-- ==== Sys2Proof/Word.lean ====
section
/-! DEFINITION. The bit-vector types of the engine: bytes, 32-bit command and register words, 64-bit registers
(spec/00_scope.md R8), and the binary64 patterns held in them (R9, R10). -/

namespace Sys2Proof

/-- A byte of a memory or of the port. -/
abbrev Byte := BitVec 8

/-- A 32-bit word: a command word (spec/30_encoding.md R90), a CSR or a port address. -/
abbrev Word := BitVec 32

/-- A 64-bit register (spec/10_state.md R38 to R41). -/
abbrev DWord := BitVec 64

/-- A binary64 value, held as its pattern: `bits64` and `fromBits64` of spec/00_scope.md R10 are the identity. -/
abbrev F64 := BitVec 64

/-- Names ONE arithmetic operation of one command, so that two operations never share a free NaN pattern: the
last entry is the serial number of the command's draws, the others say where in the command it stands
(spec/93_implementation_defined.md U7). -/
abbrev Site := List Nat

end Sys2Proof
end

