-- ==== Sys2Proof/Syntax.lean ====
section
/-! DEFINITION. The commands of the engine, one constructor per row of spec/opcode_table.json
(spec/30_encoding.md R92, R93). -/

namespace Sys2Proof

/-- A command. LEN is 3 bits, HOFF 8 bits and IDX 7 bits wide (spec/30_encoding.md R90); a value outside the range
that a command allows is still a command of that name, which completes with ILLEGAL_COMMAND (R94, KIND 4 to 6). -/
inductive Instr where
  /-- NOP (R110). -/
  | nop
  /-- B83ENC LEN, HOFF (R124). -/
  | b83enc (len : BitVec 3) (hoff : BitVec 8)
  /-- B83DEC LEN, HOFF (R125). -/
  | b83dec (len : BitVec 3) (hoff : BitVec 8)
  /-- S2L (R144). -/
  | s2l
  /-- L2S (R145). -/
  | l2s
  /-- SPOW (R146). -/
  | spow
  /-- QMAX (R166). -/
  | qmax
  /-- QDC (R167). -/
  | qdc
  /-- QAC IDX (R168). -/
  | qac (idx : BitVec 7)
  /-- DQMAX (R195). -/
  | dqmax
  /-- DQDC (R196). -/
  | dqdc
  /-- DQAC IDX (R197). -/
  | dqac (idx : BitVec 7)
  /-- DCTF (R165). -/
  | dctf
  /-- DCTI (R198). -/
  | dcti
  /-- VALIDATE (R221). -/
  | validate
  /-- ENCODE (R169). -/
  | encode
  /-- DECODE (R199). -/
  | decode
  deriving DecidableEq, Repr

end Sys2Proof
end

