-- ==== Sys2Proof/WellFormed.lean ====
section
/-! DEFINITION. The operand ranges a command must keep (spec/30_encoding.md R92 and the checks of order 4 to 6 of
R94): outside them the command completes with ILLEGAL_COMMAND. -/

namespace Sys2Proof

/-- The base83 field lies in HASHMEM: LEN in 1..4 (KIND 4) and HOFF + LEN ≤ 256 (KIND 5). -/
def fieldInRange (len : BitVec 3) (hoff : BitVec 8) : Bool :=
  1 ≤ len.toNat && len.toNat ≤ 4 && hoff.toNat + len.toNat ≤ 256

/-- The grid index names an entry: IDX ≤ 80 (KIND 6). -/
def indexInRange (idx : BitVec 7) : Bool :=
  idx.toNat ≤ 80

/-- The command's operand fields are in range. -/
def WellFormed : Instr → Bool
  | .b83enc len hoff => fieldInRange len hoff
  | .b83dec len hoff => fieldInRange len hoff
  | .qac idx => indexInRange idx
  | .dqac idx => indexInRange idx
  | .nop => true
  | .s2l => true
  | .l2s => true
  | .spow => true
  | .qmax => true
  | .qdc => true
  | .dqmax => true
  | .dqdc => true
  | .dctf => true
  | .dcti => true
  | .validate => true
  | .encode => true
  | .decode => true

end Sys2Proof
end

