-- ==== Sys2Proof/Decode.lean ====
section
/-! DEFINITION. The command word (spec/30_encoding.md): the fields of R90, the opcode map of R93, the word checks of
order 1 to 3 of R94, the encoder, and the assembler syntax of R97. -/

namespace Sys2Proof

/-- OP, bits [7:0] (R90). -/
def opField (w : Word) : BitVec 8 := w.extractLsb' 0 8

/-- LEN, bits [10:8] (R90). -/
def lenField (w : Word) : BitVec 3 := w.extractLsb' 8 3

/-- The low reserved field, bits [15:11] (R90). -/
def reservedField (w : Word) : BitVec 5 := w.extractLsb' 11 5

/-- HOFF, bits [23:16] (R90). -/
def hoffField (w : Word) : BitVec 8 := w.extractLsb' 16 8

/-- IDX, bits [30:24] (R90). -/
def idxField (w : Word) : BitVec 7 := w.extractLsb' 24 7

/-- The reserved bit 31 (R90). -/
def topField (w : Word) : BitVec 1 := w.extractLsb' 31 1

/-- Which operand fields a command uses (the columns LEN, HOFF, IDX of R92), and how its command is built of them. -/
inductive Shape where
  /-- No operand field. -/
  | plain (i : Instr)
  /-- LEN and HOFF. -/
  | field (mk : BitVec 3 → BitVec 8 → Instr)
  /-- IDX. -/
  | index (mk : BitVec 7 → Instr)

/-- The rows of the opcode map up to QAC (R93). -/
def opcodeRowsLow : List (BitVec 8 × Shape) :=
  [(0x00, .plain .nop), (0x10, .field .b83enc), (0x11, .field .b83dec), (0x20, .plain .s2l), (0x21, .plain .l2s),
   (0x22, .plain .spow), (0x30, .plain .qmax), (0x31, .plain .qdc), (0x32, .index .qac)]

/-- The rows of the opcode map from DQMAX on (R93). -/
def opcodeRowsHigh : List (BitVec 8 × Shape) :=
  [(0x38, .plain .dqmax), (0x39, .plain .dqdc), (0x3A, .index .dqac), (0x40, .plain .dctf), (0x41, .plain .dcti),
   (0x50, .plain .validate), (0x51, .plain .encode), (0x52, .plain .decode)]

/-- The opcode map (R93): a decoder selects the command by OP alone; every other OP is reserved (R95). -/
def opcodeMap (op : BitVec 8) : Option Shape :=
  (opcodeRowsLow ++ opcodeRowsHigh).lookup op

/-- Why a word names no command: the checks of order 1 to 3 of R94. -/
inductive IllegalWord where
  /-- OP is not in the opcode map: KIND 1. -/
  | unknownOp
  /-- A reserved bit is set: KIND 2. -/
  | reservedBits
  /-- A field the opcode does not use is nonzero: KIND 3. -/
  | unusedField
  deriving DecidableEq, Repr

/-- The KIND that R94 gives the failed check. -/
def illegalKind : IllegalWord → BitVec 8
  | .unknownOp => 1
  | .reservedBits => 2
  | .unusedField => 3

/-- The fields that the opcode does not use are 0 (R94, order 3). -/
def unusedZero (sh : Shape) (w : Word) : Bool :=
  match sh with
  | .plain _ => lenField w == 0 && hoffField w == 0 && idxField w == 0
  | .field _ => idxField w == 0
  | .index _ => lenField w == 0 && hoffField w == 0

/-- The command that a shape builds of a word's fields (R91). -/
def buildInstr (sh : Shape) (w : Word) : Instr :=
  match sh with
  | .plain i => i
  | .field mk => mk (lenField w) (hoffField w)
  | .index mk => mk (idxField w)

/-- The command of a word, or the first failing check of order 1 to 3 of R94. -/
def decode (w : Word) : Except IllegalWord Instr :=
  match opcodeMap (opField w) with
  | none => .error .unknownOp
  | some sh =>
    if reservedField w ≠ 0 ∨ topField w ≠ 0 then .error .reservedBits
    else if unusedZero sh w = false then .error .unusedField
    else .ok (buildInstr sh w)

/-- The decoder on a word numbered as spec/opcode_table.json numbers it: a command is one 32-bit word (R96), bit 0
its least significant bit; bits from `nbits` up are 0. -/
def decodeTableWord (nbits w : Nat) : Option Instr :=
  match decode (BitVec.ofNat 32 (w % 2 ^ nbits)) with
  | .ok i => some i
  | .error _ => none

/-- A word of its fields, from bit 31 down: `0 IDX HOFF 00000 LEN OP` (R90). -/
def packFields (op : BitVec 8) (len : BitVec 3) (hoff : BitVec 8) (idx : BitVec 7) : Word :=
  0#1 ++ idx ++ hoff ++ 0#5 ++ len ++ op

/-- The word of a command (R92, R97). -/
def encode : Instr → Word
  | .nop => packFields 0x00 0 0 0
  | .b83enc len hoff => packFields 0x10 len hoff 0
  | .b83dec len hoff => packFields 0x11 len hoff 0
  | .s2l => packFields 0x20 0 0 0
  | .l2s => packFields 0x21 0 0 0
  | .spow => packFields 0x22 0 0 0
  | .qmax => packFields 0x30 0 0 0
  | .qdc => packFields 0x31 0 0 0
  | .qac idx => packFields 0x32 0 0 idx
  | .dqmax => packFields 0x38 0 0 0
  | .dqdc => packFields 0x39 0 0 0
  | .dqac idx => packFields 0x3A 0 0 idx
  | .dctf => packFields 0x40 0 0 0
  | .dcti => packFields 0x41 0 0 0
  | .validate => packFields 0x50 0 0 0
  | .encode => packFields 0x51 0 0 0
  | .decode => packFields 0x52 0 0 0

/-! The assembler (R97), on text held as a list of characters. -/

/-- The first mnemonics in lower case, each with its shape (R97). -/
def mnemonicsLow : List (List Char × Shape) :=
  [(['n', 'o', 'p'], .plain .nop),
   (['b', '8', '3', 'e', 'n', 'c'], .field .b83enc),
   (['b', '8', '3', 'd', 'e', 'c'], .field .b83dec),
   (['s', '2', 'l'], .plain .s2l),
   (['l', '2', 's'], .plain .l2s),
   (['s', 'p', 'o', 'w'], .plain .spow)]

/-- The quantizer's mnemonics (R97). -/
def mnemonicsMid : List (List Char × Shape) :=
  [(['q', 'm', 'a', 'x'], .plain .qmax),
   (['q', 'd', 'c'], .plain .qdc),
   (['q', 'a', 'c'], .index .qac),
   (['d', 'q', 'm', 'a', 'x'], .plain .dqmax),
   (['d', 'q', 'd', 'c'], .plain .dqdc),
   (['d', 'q', 'a', 'c'], .index .dqac)]

/-- The transforms' and whole operations' mnemonics (R97). -/
def mnemonicsHigh : List (List Char × Shape) :=
  [(['d', 'c', 't', 'f'], .plain .dctf),
   (['d', 'c', 't', 'i'], .plain .dcti),
   (['v', 'a', 'l', 'i', 'd', 'a', 't', 'e'], .plain .validate),
   (['e', 'n', 'c', 'o', 'd', 'e'], .plain .encode),
   (['d', 'e', 'c', 'o', 'd', 'e'], .plain .decode)]

/-- A letter in upper case; any other character as it is. -/
def upperChar (c : Char) : Char :=
  if 'a'.toNat ≤ c.toNat ∧ c.toNat ≤ 'z'.toNat then Char.ofNat (c.toNat - 32) else c

/-- The shape of a mnemonic written all in lower or all in upper case (R97). -/
def mnemonicShape (m : List Char) : Option Shape :=
  ((mnemonicsLow ++ mnemonicsMid ++ mnemonicsHigh).find? fun row => row.1 == m || row.1.map upperChar == m).map Prod.snd

/-- The value of a hexadecimal digit. -/
def hexDigit (c : Char) : Option Nat :=
  if '0'.toNat ≤ c.toNat ∧ c.toNat ≤ '9'.toNat then some (c.toNat - '0'.toNat)
  else if 'a'.toNat ≤ c.toNat ∧ c.toNat ≤ 'f'.toNat then some (c.toNat - 'a'.toNat + 10)
  else if 'A'.toNat ≤ c.toNat ∧ c.toNat ≤ 'F'.toNat then some (c.toNat - 'A'.toNat + 10)
  else none

/-- The number that digits write in base 10 or 16; no digit at all writes none. -/
def digitsValue (base : Nat) : List Char → Nat → Option Nat
  | [], v => some v
  | c :: cs, v =>
    match hexDigit c with
    | some d => if d < base then digitsValue base cs (v * base + d) else none
    | none => none

/-- An operand: unsigned decimal or 0x-prefixed hexadecimal (R97). -/
def parseNumber (cs : List Char) : Option Nat :=
  if cs.take 2 = ['0', 'x'] ∧ 2 < cs.length then digitsValue 16 (cs.drop 2) 0
  else if cs = [] then none
  else digitsValue 10 cs 0

/-- Text without the spaces around it. -/
def trimSpaces (cs : List Char) : List Char :=
  (((cs.dropWhile (· == ' ')).reverse).dropWhile (· == ' ')).reverse

/-- The pieces of a text between commas. -/
def splitCommas : List Char → List (List Char)
  | [] => [[]]
  | c :: cs =>
    if c = ',' then [] :: splitCommas cs
    else
      match splitCommas cs with
      | [] => [[c]]
      | p :: ps => (c :: p) :: ps

/-- The operands of a command line: none, or numbers separated by commas. -/
def parseOperands (cs : List Char) : Option (List Nat) :=
  if trimSpaces cs = [] then some []
  else (splitCommas cs).mapM fun p => parseNumber (trimSpaces p)

/-- A command of its shape and operands: a field outside its width and a wrong operand count are refused (R97); the
ranges that R94 checks are not the assembler's to refuse. -/
def assembleShape (sh : Shape) (ops : List Nat) : Option Instr :=
  match sh, ops with
  | .plain i, [] => some i
  | .field mk, [len, hoff] =>
    if len ≤ 7 ∧ hoff ≤ 255 then some (mk (BitVec.ofNat 3 len) (BitVec.ofNat 8 hoff)) else none
  | .index mk, [idx] => if idx ≤ 127 then some (mk (BitVec.ofNat 7 idx)) else none
  | _, _ => none

/-- The word that an assembler line stands for, or none where the assembler refuses it (R97). -/
def assemble (line : List Char) : Option Word := do
  let text := trimSpaces line
  let sh ← mnemonicShape (text.takeWhile (· != ' '))
  let ops ← parseOperands (text.dropWhile (· != ' '))
  let i ← assembleShape sh ops
  return encode i

end Sys2Proof
end

