-- ==== Sys2Proof/Config.lean ====
section
/-! DEFINITION. What the spec leaves to the implementation (spec/00_scope.md R7, spec/93_implementation_defined.md):
opaque constants, of which nothing can be proved but what holds whatever they are. `LATENCY` has no constant: no rule
depends on it (spec/70_reset_and_hazards.md R269). -/

namespace Sys2Proof

/-- Picks PIXMEM_BYTES (`Machine.pixmemBytes` maps it onto the legal values). DESIGN CHOICE: log entry 8. -/
opaque Config.pixmemPick : Nat

/-- The implementation's cosine before property P1 is imposed (`Machine.cos64`). Log entry 6. -/
opaque Config.cosRaw : F64 → F64

/-- The implementation's power on operand patterns, NaN patterns told apart (U4), before properties P2 to P5 are imposed
(`Machine.pow64`). Log entry 7. -/
opaque Config.powRaw : F64 → F64 → F64

/-- The pattern of a NaN that the engine's own arithmetic produces at this site (U7): a free value. Log entry 5. -/
opaque Config.freeNaN : Site → F64

/-- What a host read of a location that a command may write returns in the busy window (U2): a free value,
for each serial number of a draw. Log entry 5. -/
opaque Config.freeRead : Nat → Word

end Sys2Proof
end

