-- ==== Sys2Proof/Machine/Float.lean ====
section
/-! DEFINITION. IEEE 754 binary64 arithmetic on patterns (spec/00_scope.md R9, R10): each operation computes the exact
result on integers and rounds it once, ties to even. Magnitudes are counted in units of 2^-1074, the least subnormal,
of which every finite binary64 value is an integer multiple. -/

namespace Sys2Proof.Machine

/-- The sign bit. -/
def fsign (x : F64) : Bool := x.getLsbD 63

/-- The biased exponent field. -/
def fexp (x : F64) : Nat := (x.extractLsb' 52 11).toNat

/-- The fraction field. -/
def ffrac (x : F64) : Nat := (x.extractLsb' 0 52).toNat

/-- The pattern without its sign bit: it orders the magnitudes, infinity included. -/
def fbits (x : F64) : Nat := (x.extractLsb' 0 63).toNat

/-- The magnitude pattern of an infinity. -/
def infBits : Nat := 0x7FF0000000000000

/-- `isNaN(x)` (R10). -/
def isNaN (x : F64) : Bool := infBits < fbits x

/-- x is an infinity. -/
def isInf (x : F64) : Bool := fbits x == infBits

/-- x is a finite value. -/
def isFinite (x : F64) : Bool := fbits x < infBits

/-- x is +0 or −0. -/
def isZero (x : F64) : Bool := fbits x == 0

/-- +0.0. -/
def posZero : F64 := 0x0000000000000000

/-- The quiet NaN that stands for every NaN where only the value counts. -/
def quietNaN : F64 := 0x7FF8000000000000

/-- The magnitude of a finite value whose pattern without sign is n, in units of 2^-1074. -/
def magOfBits (n : Nat) : Nat :=
  if n < 2 ^ 52 then n else (2 ^ 52 + n % 2 ^ 52) * 2 ^ (n / 2 ^ 52 - 1)

/-- The magnitude of a finite x in units of 2^-1074. -/
def fmag (x : F64) : Nat := magOfBits (fbits x)

/-- The value of a finite x in units of 2^-1074. -/
def fval (x : F64) : Int := if fsign x then - (fmag x : Int) else fmag x

/-- `abs(x)` clears the sign bit (R10). -/
def fabs (x : F64) : F64 := x &&& 0x7FFFFFFFFFFFFFFF#64

/-- `neg(x)` flips the sign bit (R10). -/
def fneg (x : F64) : F64 := x ^^^ 0x8000000000000000#64

/-- The order of the values that are no NaN, −0 and +0 alike. -/
def orderKey (x : F64) : Int := if fsign x then - (fbits x : Int) else fbits x

/-- `x < y`: false when either operand is NaN (R10). -/
def flt (x y : F64) : Bool := !isNaN x && !isNaN y && decide (orderKey x < orderKey y)

/-- `x ≤ y`: false when either operand is NaN (R10). -/
def fle (x y : F64) : Bool := !isNaN x && !isNaN y && decide (orderKey x ≤ orderKey y)

/-- A value's sign and magnitude pattern as one pattern. -/
def packFloat (negative : Bool) (bits : Nat) : F64 :=
  BitVec.ofNat 64 (if negative then bits + 2 ^ 63 else bits)

/-- The quotient num / den rounded to an integer, ties to even. -/
def roundEven (num den : Nat) : Nat :=
  let m := num / den
  let r := num % den
  if den < 2 * r ∨ (2 * r = den ∧ m % 2 = 1) then m + 1 else m

/-- The binary logarithm of n < 2^(2^k), rounded down, by halving the range k times. -/
def logBelow : Nat → Nat → Nat
  | 0, _ => 0
  | k + 1, n => if n < 2 ^ 2 ^ k then logBelow k n else 2 ^ k + logBelow k (n / 2 ^ 2 ^ k)

/-- The binary logarithm, rounded down (`Laws.Float` proves it is `Nat.log2`), in few steps for the sizes that arise. -/
def bitLog (n : Nat) : Nat := if n < 2 ^ 2 ^ 12 then logBelow 12 n else Nat.log2 n

/-- The exponent of the last place that a magnitude of num / den units keeps: 53 significant bits, or the least
subnormal. -/
def lastPlace (num den : Nat) : Nat := bitLog (num / den) - 52

/-- The magnitude pattern nearest to num / den units of 2^-1074, ties to even, infinity on overflow (R9). The kept
integer carries its leading bit, so that adding it onto the exponent field makes the pattern, a carry out of the
rounding included. -/
def roundMag (num den : Nat) : Nat :=
  let q := lastPlace num den
  min infBits (q * 2 ^ 52 + roundEven num (den * 2 ^ q))

/-- A pattern as a NaN: itself where it is one. -/
def asNaN (u : F64) : F64 := if isNaN u then u else quietNaN

/-- The NaN that the engine's arithmetic produces at a site: a free value among the NaN patterns
(spec/93_implementation_defined.md U7; log entry 5). -/
def producedNaN (d : Site) : F64 := asNaN (Config.freeNaN d)

/-- The sign of an exact sum that is zero: −0 only of two −0. -/
def zeroSum (x y : F64) : F64 := packFloat (fsign x && fsign y) 0

/-- `x + y` (R9). -/
def fadd (d : Site) (x y : F64) : F64 :=
  if isNaN x || isNaN y then producedNaN d
  else if isInf x then (if isInf y && fsign x != fsign y then producedNaN d else x)
  else if isInf y then y
  else if fval x + fval y = 0 then zeroSum x y
  else packFloat (decide (fval x + fval y < 0)) (roundMag (fval x + fval y).natAbs 1)

/-- `x - y` (R9). -/
def fsub (d : Site) (x y : F64) : F64 := fadd d x (fneg y)

/-- The sign of a product or quotient. -/
def signXor (x y : F64) : Bool := fsign x != fsign y

/-- `x × y` (R9). -/
def fmul (d : Site) (x y : F64) : F64 :=
  if isNaN x || isNaN y then producedNaN d
  else if isInf x then (if isZero y then producedNaN d else packFloat (signXor x y) infBits)
  else if isInf y then (if isZero x then producedNaN d else packFloat (signXor x y) infBits)
  else packFloat (signXor x y) (roundMag (fmag x * fmag y) (2 ^ 1074))

/-- `x / y` (R9). -/
def fdiv (d : Site) (x y : F64) : F64 :=
  if isNaN x || isNaN y then producedNaN d
  else if isInf x then (if isInf y then producedNaN d else packFloat (signXor x y) infBits)
  else if isInf y then packFloat (signXor x y) 0
  else if isZero y then (if isZero x then producedNaN d else packFloat (signXor x y) infBits)
  else packFloat (signXor x y) (roundMag (fmag x * 2 ^ 1074) (fmag y))

/-- `f64(n)` of a natural number (R10): exact below 2^53. -/
def fofNat (n : Nat) : F64 := packFloat false (roundMag (n * 2 ^ 1074) 1)

/-- The greatest integer not above a finite t (R10). -/
def ffloor (t : F64) : Int := fval t / 2 ^ 1074

/-- `sat_floor(t, lo, hi)` (R10). -/
def satFloor (t : F64) (lo hi : Nat) : Nat :=
  if isNaN t then lo
  else if isInf t then (if fsign t then lo else hi)
  else (min (hi : Int) (max (lo : Int) (ffloor t))).toNat

end Sys2Proof.Machine
end

