-- ==== Sys2Proof/Machine/Elementary.lean ====
section
/-! DEFINITION. The constants of spec/42_color.md R140, the colour functions of R141 to R143, and the configuration
functions cos64 and pow64 (spec/00_scope.md R11) with exactly the properties P1 to P5 of
spec/93_implementation_defined.md part 1. -/

namespace Sys2Proof.Machine

/-! The constants of R140 and of spec/00_scope.md R11. -/

/-- 255. -/
def c255 : F64 := 0x406FE00000000000
/-- 0.04045. -/
def cS2lKnee : F64 := 0x3FA4B5DCC63F1412
/-- 12.92. -/
def c12_92 : F64 := 0x4029D70A3D70A3D7
/-- 0.055. -/
def c0_055 : F64 := 0x3FAC28F5C28F5C29
/-- 1.055. -/
def c1_055 : F64 := 0x3FF0E147AE147AE1
/-- 2.4. -/
def c2_4 : F64 := 0x4003333333333333
/-- 0.0031308. -/
def cL2sKnee : F64 := 0x3F69A5C37387B719
/-- 1/2.4. -/
def cInv2_4 : F64 := 0x3FDAAAAAAAAAAAAB
/-- 0.5. -/
def cHalf : F64 := 0x3FE0000000000000
/-- 166. -/
def c166 : F64 := 0x4064C00000000000
/-- 9. -/
def c9 : F64 := 0x4022000000000000
/-- 9.5. -/
def c9_5 : F64 := 0x4023000000000000
/-- 1. -/
def c1 : F64 := 0x3FF0000000000000
/-- 2. -/
def c2 : F64 := 0x4000000000000000
/-- PI64, the binary64 value nearest π (R11). -/
def pi64 : F64 := 0x400921FB54442D18

/-! The colour functions over a power function, so that property P5 can speak of them. -/

/-- `s2l(b)` (R141) with the power `pow`. -/
def s2lWith (pow : F64 → F64 → F64) (d : Site) (b : Byte) : F64 :=
  let v := fdiv (0 :: d) (fofNat b.toNat) c255
  if fle v cS2lKnee then fdiv (1 :: d) v c12_92
  else pow (fdiv (3 :: d) (fadd (2 :: d) v c0_055) c1_055) c2_4

/-- `clamp01(x)` (R142). -/
def clamp01 (x : F64) : F64 :=
  if isNaN x then posZero
  else if flt x posZero then posZero
  else if flt c1 x then c1
  else x

/-- The value t that `l2s(x)` floors (R142), for x clamped to v, with the power `pow`. -/
def l2sScaled (pow : F64 → F64 → F64) (d : Site) (v : F64) : F64 :=
  if fle v cL2sKnee then fadd (2 :: d) (fmul (1 :: d) (fmul (0 :: d) v c12_92) c255) cHalf
  else fadd (6 :: d) (fmul (5 :: d) (fsub (4 :: d) (fmul (3 :: d) (pow v cInv2_4) c1_055) c0_055) c255) cHalf

/-- `l2s(x)` (R142) with the power `pow`. -/
def l2sWith (pow : F64 → F64 → F64) (d : Site) (x : F64) : Byte :=
  BitVec.ofNat 8 (satFloor (l2sScaled pow d (clamp01 x)) 0 255)

/-! The configuration functions. -/

/-- A cosine with P1 imposed. -/
def cosOf (f : F64 → F64) (x : F64) : F64 := if x = posZero then c1 else f x

/-- `cos64(x)` (R11): any total function with P1, cos64(+0.0) = 1.0 (log entry 6). -/
def cos64 (x : F64) : F64 := cosOf Config.cosRaw x

/-- The values of the power that P2, P3 and P4 fix. P4's product is that of a finite value with itself: no NaN. -/
def powFixed (x y : F64) : Option F64 :=
  if x = c1 ∧ isNaN y = false then some c1
  else if x = posZero ∧ flt posZero y then some posZero
  else if y = c2 ∧ isFinite x then some (fmul [] x x)
  else none

/-- x lies in [0, 1]. -/
def inUnit (x : F64) : Bool := fle posZero x && fle x c1

/-- A power function with P2 to P4 imposed, and P5's range: on [0, 1] with a positive exponent it stays in [0, 1]. -/
def powBounded (f : F64 → F64 → F64) (x y : F64) : F64 :=
  match powFixed x y with
  | some r => r
  | none => if inUnit x && flt posZero y && !inUnit (f x y) then x else f x y

/-- P5's round-trip law for one byte: |b − l2s(s2l(b))| ≤ 1 with the power `pow`. -/
def roundTripByte (pow : F64 → F64 → F64) (b : Byte) : Bool :=
  let back := (l2sWith pow [] (s2lWith pow [] b)).toNat
  back ≤ b.toNat + 1 && b.toNat ≤ back + 1

/-- P5's round-trip law, for every byte. -/
def roundTrips (pow : F64 → F64 → F64) : Bool :=
  (List.range 256).all fun b => roundTripByte pow (BitVec.ofNat 8 b)

/-- A power where it conforms to P5's round-trip law; a conforming stand-in where it does not, since such an
implementation is none of this spec's (log entry 7). -/
def powChosen (f : F64 → F64 → F64) : F64 → F64 → F64 :=
  if roundTrips (powBounded f) then f else fun x _ => x

/-- A power with P2 to P5 imposed, and nothing else: one that has them is left as it is. -/
def powOf (f : F64 → F64 → F64) (x y : F64) : F64 := powBounded (powChosen f) x y

/-- `pow64(x, y)` (R11): any total function with P2 to P5, and nothing else is known of it; at NaN operands it may tell
their patterns apart, and the NaN patterns it returns are its own (U4; log entry 7). -/
def pow64 (x y : F64) : F64 := powOf Config.powRaw x y

/-! The colour functions of the engine. -/

/-- `s2l(b)` (R141). -/
def s2l (d : Site) (b : Byte) : F64 := s2lWith pow64 d b

/-- `l2s(x)` (R142). -/
def l2s (d : Site) (x : F64) : Byte := l2sWith pow64 d x

/-- `sign_pow(n, e)` (R143). -/
def signPow (n e : F64) : F64 :=
  if flt n posZero then fneg (pow64 (fneg n) e) else pow64 (fabs n) e

end Sys2Proof.Machine
end

