-- ==== Sys2Proof/Machine/State.lean ====
section
/-! DEFINITION. The state of the engine as plain data (spec/10_state.md R21), the two agents' moves still to come
(R20), the reasons a step may stop, and the state after reset (spec/70_reset_and_hazards.md R261 to R263). -/

namespace Sys2Proof.Machine

/-- Why the machine stops. Both are the faults of the model that spec/70_reset_and_hazards.md R262 asks for. -/
inductive Fault where
  /-- A host read outside the busy window takes in the byte at this port address, which nothing has written since
  reset. Raised by `hostRead`. Safe: the hardware returns some value. -/
  | hostReadsPoison (address : Nat)
  /-- A command reads the byte at this port address, which nothing has written since reset. Raised by `commit` for
  every command that reads a memory. Safe: the hardware computes with some value. -/
  | commandReadsPoison (address : Nat)
  deriving DecidableEq, Repr

/-- Why an instruction has no meaning. -/
inductive Refusal where
  /-- An instruction without a meaning in this model, by its mnemonic. Raised by no arm of `exec`: every row of the
  opcode table has its meaning. Safe. -/
  | notModelled (mnemonic : String)
  deriving DecidableEq, Repr

/-- The width of a port access (spec/20_memory.md R70). -/
inductive Width where
  /-- 8 bits. -/
  | byte
  /-- 16 bits. -/
  | half
  /-- 32 bits. -/
  | word
  deriving DecidableEq, Repr

/-- One move of an agent (spec/10_state.md R20, spec/70_reset_and_hazards.md R267). -/
inductive Turn where
  /-- The engine takes its completion step, if a command is pending. -/
  | engine
  /-- The host reads at an address. -/
  | read (width : Width) (address : Word)
  /-- The host writes the low bits of a value at an address. -/
  | write (width : Width) (address : Word) (value : Word)
  /-- The host's completion poll: it reads STATUS until BUSY is 0 (spec/30_encoding.md R98). -/
  | poll
  /-- The reset input is asserted (spec/70_reset_and_hazards.md R260). -/
  | reset
  deriving DecidableEq, Repr

/-- What the port answers an access: read data, zero-extended, and the error response (spec/20_memory.md R71). -/
structure Reply where
  /-- The data of a read; 0 for a write and for a bus error. -/
  data : Word
  /-- The access was a bus error (`resp = ERR`). -/
  err : Bool
  deriving DecidableEq, Repr

/-- The memories of the port's address space: written bytes by port address, rising. A byte not listed is poison
(spec/70_reset_and_hazards.md R262). -/
abbrev Memory := List Host.Cell

/-- The state of the machine. ID and PIXCAP are constants that `csrRead` answers; ERR and the interrupt output are
functions of other fields; reserved bits are RAZ/WI and have no field (spec/10_state.md R42). -/
structure State where
  /-- CTRL.IE (R28). -/
  ie : Bool
  /-- STATUS.BUSY (R29). -/
  busy : Bool
  /-- STATUS.DONE (R29). -/
  done : Bool
  /-- STATUS.WERR (R29). -/
  werr : Bool
  /-- STATUS.ERRCODE (R29). -/
  errcode : BitVec 4
  /-- CMD (R30). -/
  cmd : Word
  /-- ERRINFO.POS (R31). -/
  errPos : Byte
  /-- ERRINFO.KIND (R31). -/
  errKind : Byte
  /-- WIDTH (R32). -/
  width : Word
  /-- HEIGHT (R33). -/
  height : Word
  /-- DIM.NX (R34). -/
  dimNx : BitVec 4
  /-- DIM.NY (R34). -/
  dimNy : BitVec 4
  /-- PUNCH (R35). -/
  punch : Word
  /-- PIXLEN (R36). -/
  pixlen : Word
  /-- HASHLEN.LEN (R37). -/
  hashlen : BitVec 16
  /-- SRC0 (R38). -/
  src0 : DWord
  /-- SRC1 (R39). -/
  src1 : DWord
  /-- RESULT (R40). -/
  result : DWord
  /-- MAXREG (R41). -/
  maxreg : DWord
  /-- HASHMEM, GRIDMEM and PIXMEM (R43 to R45), at their port addresses. -/
  mem : Memory
  /-- The pending-command latch (R46). -/
  pending : Option Word
  /-- The model's own: the serial number of the next free draw (log entry 5). -/
  draws : Nat
  /-- The model's own: the moves the agents make next, in order (log entry 3). -/
  turns : List Turn
  /-- The model's own: the port's answer to the last host access since reset (log entry 4). -/
  reply : Option Reply
  deriving DecidableEq, Repr

/-- The machine right after reset (spec/70_reset_and_hazards.md R261 to R263; the values of the table in
spec/10_state.md R25). -/
def State.reset : State where
  ie := false
  busy := false
  done := false
  werr := false
  errcode := 0
  cmd := 0
  errPos := 0
  errKind := 0
  width := 0
  height := 0
  dimNx := 0
  dimNy := 0
  punch := 1
  pixlen := 0
  hashlen := 0
  src0 := 0
  src1 := 0
  result := 0
  maxreg := 0x3FF0000000000000
  mem := []
  pending := none
  draws := 0
  turns := []
  reply := none

end Sys2Proof.Machine
end

