-- ==== Sys2Proof/Machine/Flags.lean ====
section
/-! DEFINITION. The flags of the engine: the words of STATUS, CTRL and ERRINFO (spec/10_state.md R28, R29, R31), the
error codes (spec/60_exceptions.md R231) and the interrupt output (R238). No command sets a flag as a data side
effect (spec/10_state.md R24). -/

namespace Sys2Proof.Machine

/-- The errors of a command (R231). -/
inductive ErrCode where
  /-- DIM outside the encoder's grids: 1. -/
  | rangeError
  /-- PIXLEN ≠ W·H·4: 2. -/
  | sizeMismatch
  /-- HASHLEN < 6: 3. -/
  | lengthError
  /-- A declared grid that does not match HASHLEN, or a byte outside the alphabet: 4. -/
  | formatError
  /-- An image that PIXMEM cannot hold: 5. -/
  | capacityError
  /-- W·H = 0 for an encode: 6. -/
  | emptyImage
  /-- A command word or operand the engine refuses: 7. -/
  | illegalCommand
  deriving DecidableEq, Repr

/-- The value of STATUS.ERRCODE for an error (R231). -/
def errCodeBits : ErrCode → BitVec 4
  | .rangeError => 1
  | .sizeMismatch => 2
  | .lengthError => 3
  | .formatError => 4
  | .capacityError => 5
  | .emptyImage => 6
  | .illegalCommand => 7

/-- `Error(CODE, KIND, POS)` (spec/00_scope.md R12, spec/60_exceptions.md R235). -/
structure CmdError where
  /-- The error code. -/
  code : ErrCode
  /-- The sub-cause (R232). -/
  kind : Byte
  /-- The position of a byte outside the alphabet, else 0 (R232). -/
  pos : Byte
  deriving DecidableEq, Repr

/-- A condition as a bit. -/
def flag (b : Bool) : BitVec 1 := if b then 1 else 0

/-- STATUS.ERR: (ERRCODE ≠ 0) at all times (R29). -/
def errFlag (s : State) : Bool := s.errcode != 0

/-- The word of STATUS, from bit 31 down: reserved, ERRCODE, reserved, WERR, ERR, DONE, BUSY (R29). -/
def statusWord (s : State) : Word :=
  0#20 ++ s.errcode ++ 0#4 ++ flag s.werr ++ flag (errFlag s) ++ flag s.done ++ flag s.busy

/-- The word of CTRL (R28). -/
def ctrlWord (s : State) : Word := 0#31 ++ flag s.ie

/-- The word of ERRINFO: reserved, KIND, POS (R31). -/
def errinfoWord (s : State) : Word := 0#16 ++ s.errKind ++ s.errPos

/-- The interrupt output, a level (spec/60_exceptions.md R238). -/
def irq (s : State) : Bool := s.ie && s.done

/-- A host write to STATUS: writing 1 clears DONE (bit 1) and WERR (bit 3), and nothing else (R29). -/
def clearStatus (v : Word) (s : State) : State :=
  { s with done := s.done && !v.getLsbD 1, werr := s.werr && !v.getLsbD 3 }

/-- A host write to CTRL: bit 0 is IE, the rest is discarded (R28). -/
def setCtrl (v : Word) (s : State) : State :=
  { s with ie := v.getLsbD 0 }

/-- A host write dropped in the busy window (spec/70_reset_and_hazards.md R265, R266). -/
def dropWrite (s : State) : State :=
  { s with werr := true }

end Sys2Proof.Machine
end

