-- ==== Sys2Proof/Machine/Ops.lean ====
section
/-! DEFINITION. The named operations over memory and registers: the memories (spec/20_memory.md R61 to R63), the
registers of the CSR window (spec/10_state.md R25), accepting a command (R30), and completing it, with or without an
error (R46, spec/60_exceptions.md R235). -/

namespace Sys2Proof.Machine

/-! ## Memory -/

/-- PIXMEM_BYTES (spec/00_scope.md R7): any multiple of 4 in 4 .. 0xFFFF0000 (log entry 8). -/
def pixmemBytes : Nat := 4 * (Config.pixmemPick % 0x3FFFC000) + 4

/-- An image of that many bytes does not fit in PIXMEM. -/
def exceedsPixmem (bytes : Nat) : Bool := decide (pixmemBytes < bytes)

/-- The port address of HASH[0] (R61). -/
def hashBase : Nat := 0x100

/-- The port address of GRID[0] (R61). -/
def gridBase : Nat := 0x800

/-- The port address of PIX[0] (R61). -/
def pixBase : Nat := 0x10000

/-- The port address of grid entry k (R63). -/
def gridAddr (k : Nat) : Nat := gridBase + 24 * k

/-- The byte at an address, or none where nothing has been written since reset. -/
def Memory.read : Memory → Nat → Option Byte
  | [], _ => none
  | (k, b) :: m, a => if k = a then some b else Memory.read m a

/-- Writes one byte, keeping the cells in rising order. -/
def Memory.write : Memory → Nat → Byte → Memory
  | [], a, b => [(a, b)]
  | (k, c) :: m, a, b =>
    if a < k then (a, b) :: (k, c) :: m
    else if a = k then (a, b) :: m
    else (k, c) :: Memory.write m a b

/-- Writes bytes at rising addresses from a. -/
def Memory.writeBytes : Memory → Nat → List Byte → Memory
  | m, _, [] => m
  | m, a, b :: bs => Memory.writeBytes (Memory.write m a b) (a + 1) bs

/-- The canonical form: addresses strictly rising. An unlisted address reads as no value, so no entry equals it. -/
def Memory.wf : Memory → Bool
  | [] => true
  | [_] => true
  | (a, _) :: (b, c) :: m => decide (a < b) && Memory.wf ((b, c) :: m)

/-- The number that bytes write in little-endian order (R62). -/
def leNat : List Byte → Nat
  | [] => 0
  | b :: bs => b.toNat + 256 * leNat bs

/-- The low n bytes of a number in little-endian order (R62). -/
def leBytes : Nat → Nat → List Byte
  | 0, _ => []
  | n + 1, v => BitVec.ofNat 8 v :: leBytes n (v / 256)

/-- The n bytes from a, or the first address among them that is poison. -/
def bytesFrom (m : Memory) : Nat → Nat → Except Nat (List Byte)
  | _, 0 => .ok []
  | a, n + 1 =>
    match Memory.read m a with
    | none => .error a
    | some b =>
      match bytesFrom m (a + 1) n with
      | .error e => .error e
      | .ok bs => .ok (b :: bs)

/-! ## Errors, completion and issue -/

/-- Why the evaluation of a command ends early. -/
inductive Stop where
  /-- `raise Error(CODE, KIND, POS)` (spec/60_exceptions.md R235). -/
  | raise (e : CmdError)
  /-- The command reads the poison byte at this address (spec/70_reset_and_hazards.md R262). -/
  | poison (address : Nat)
  deriving DecidableEq, Repr

/-- Raises an error. -/
def raiseErr {α : Type} (code : ErrCode) (kind pos : Byte) : Except Stop α :=
  .error (.raise ⟨code, kind, pos⟩)

/-- What the completion step does besides the command's writes: the outcome into ERRCODE and ERRINFO, BUSY ← 0,
DONE ← 1, the latch emptied (spec/10_state.md R46, items 3 to 5). The model's draw number moves on. -/
def finish (code : BitVec 4) (kind pos : Byte) (s : State) : State :=
  { s with
    busy := false
    done := true
    errcode := code
    errKind := kind
    errPos := pos
    pending := none
    draws := s.draws + 1 }

/-- Completion with success: ERRCODE and ERRINFO are 0 (spec/60_exceptions.md R232). -/
def complete (s : State) : State := finish 0 0 0 s

/-- Completion with an error, the engine's trap entry: nothing but STATUS, ERRINFO and the latch changes
(spec/60_exceptions.md R235). -/
def raiseError (e : CmdError) (s : State) : State := finish (errCodeBits e.code) e.kind e.pos s

/-- An accepted write of a word to CMD, which is also the only return from an error: it clears ERRCODE and ERRINFO
(spec/10_state.md R30, spec/60_exceptions.md R236). -/
def acceptCommand (w : Word) (s : State) : State :=
  { s with
    cmd := w
    busy := true
    done := false
    errcode := 0
    errKind := 0
    errPos := 0
    pending := some w }

/-- The completion step of a command whose evaluation against `s` gives `r` (spec/10_state.md R46): its writes and
success, or none of them and the error; a poison byte read stops the model. -/
def commit (s : State) (r : Except Stop State) : Host.Outcome State Fault Refusal :=
  match r with
  | .ok t => .next (complete t)
  | .error (.raise e) => .next (raiseError e s)
  | .error (.poison a) => .fault (.commandReadsPoison a)

/-! ## The CSR window -/

/-- The registers of the CSR window (spec/10_state.md R25). -/
inductive Csr where
  | id | pixcap | ctrl | status | cmd | errinfo | width | height | dim | punch | pixlen | hashlen
  | src0Lo | src0Hi | src1Lo | src1Hi | resultLo | resultHi | maxregLo | maxregHi
  /-- An offset from 0x50 to 0xFC (R42). -/
  | reserved
  deriving DecidableEq, Repr

/-- The register at a 4-byte aligned offset of the CSR window (R25). -/
def csrAt (offset : Nat) : Csr :=
  match offset / 4 with
  | 0 => .id
  | 1 => .pixcap
  | 2 => .ctrl
  | 3 => .status
  | 4 => .cmd
  | 5 => .errinfo
  | 6 => .width
  | 7 => .height
  | 8 => .dim
  | 9 => .punch
  | 10 => .pixlen
  | 11 => .hashlen
  | 12 => .src0Lo
  | 13 => .src0Hi
  | 14 => .src1Lo
  | 15 => .src1Hi
  | 16 => .resultLo
  | 17 => .resultHi
  | 18 => .maxregLo
  | 19 => .maxregHi
  | _ => .reserved

/-- Bits [31:0] of a 64-bit register (spec/20_memory.md R64). -/
def loHalf (v : DWord) : Word := v.extractLsb' 0 32

/-- Bits [63:32] of a 64-bit register (R64). -/
def hiHalf (v : DWord) : Word := v.extractLsb' 32 32

/-- A 64-bit register with its low half replaced (R64). -/
def setLo (v : DWord) (w : Word) : DWord := hiHalf v ++ w

/-- A 64-bit register with its high half replaced (R64). -/
def setHi (v : DWord) (w : Word) : DWord := w ++ loHalf v

/-- The ID register's constant value (spec/10_state.md R26). -/
def idWord : Word := 0x42480107

/-- The value of a register outside the busy window: fields zero-extended, reserved bits 0 (R25 to R42). -/
def csrRead (s : State) : Csr → Word
  | .id => idWord
  | .pixcap => BitVec.ofNat 32 pixmemBytes
  | .ctrl => ctrlWord s
  | .status => statusWord s
  | .cmd => s.cmd
  | .errinfo => errinfoWord s
  | .width => s.width
  | .height => s.height
  | .dim => 0#24 ++ s.dimNy ++ s.dimNx
  | .punch => s.punch
  | .pixlen => s.pixlen
  | .hashlen => 0#16 ++ s.hashlen
  | .src0Lo => loHalf s.src0
  | .src0Hi => hiHalf s.src0
  | .src1Lo => loHalf s.src1
  | .src1Hi => hiHalf s.src1
  | .resultLo => loHalf s.result
  | .resultHi => hiHalf s.result
  | .maxregLo => loHalf s.maxreg
  | .maxregHi => hiHalf s.maxreg
  | .reserved => 0

/-- A register that some command may write: a host read of it in the busy window returns any value
(spec/70_reset_and_hazards.md R266). -/
def csrVolatile : Csr → Bool
  | .dim => true
  | .hashlen => true
  | .resultLo => true
  | .resultHi => true
  | .maxregLo => true
  | .maxregHi => true
  | _ => false

/-- A write to an operand register that is dropped in the busy window, else stored (R266). -/
def storeUnlessBusy (s t : State) : State := if s.busy then dropWrite s else t

/-- A host write of a 32-bit word to a register (spec/10_state.md R25 to R42, spec/70_reset_and_hazards.md R265,
R266). -/
def csrWrite (c : Csr) (v : Word) (s : State) : State :=
  match c with
  | .id => s
  | .pixcap => s
  | .ctrl => setCtrl v s
  | .status => clearStatus v s
  | .cmd => storeUnlessBusy s (acceptCommand v s)
  | .errinfo => s
  | .width => storeUnlessBusy s { s with width := v }
  | .height => storeUnlessBusy s { s with height := v }
  | .dim => storeUnlessBusy s { s with dimNx := v.extractLsb' 0 4, dimNy := v.extractLsb' 4 4 }
  | .punch => storeUnlessBusy s { s with punch := v }
  | .pixlen => storeUnlessBusy s { s with pixlen := v }
  | .hashlen => storeUnlessBusy s { s with hashlen := v.extractLsb' 0 16 }
  | .src0Lo => storeUnlessBusy s { s with src0 := setLo s.src0 v }
  | .src0Hi => storeUnlessBusy s { s with src0 := setHi s.src0 v }
  | .src1Lo => storeUnlessBusy s { s with src1 := setLo s.src1 v }
  | .src1Hi => storeUnlessBusy s { s with src1 := setHi s.src1 v }
  | .resultLo => s
  | .resultHi => s
  | .maxregLo => storeUnlessBusy s { s with maxreg := setLo s.maxreg v }
  | .maxregHi => storeUnlessBusy s { s with maxreg := setHi s.maxreg v }
  | .reserved => s

end Sys2Proof.Machine
end

