-- ==== Sys2Proof/Machine/Operands.lean ====
section
/-! DEFINITION. The operands of the commands: the fields of the command word and their checks (spec/30_encoding.md R91,
R94), the registers as numbers (spec/10_state.md R32 to R39), and the entries of HASHMEM, GRIDMEM and PIXMEM by index
(R43 to R45), read from and written to their port addresses. -/

namespace Sys2Proof.Machine

/-- A Linear Color Triple (spec/10_state.md R44). -/
structure Triple where
  /-- Red. -/
  r : F64
  /-- Green. -/
  g : F64
  /-- Blue. -/
  b : F64
  deriving DecidableEq, Repr

/-- The colour bytes of a pixel; the encoder ignores alpha (spec/20_memory.md R65). -/
structure Rgb where
  /-- Red. -/
  r : Byte
  /-- Green. -/
  g : Byte
  /-- Blue. -/
  b : Byte
  deriving DecidableEq, Repr

/-! ## Fields of the command word -/

/-- The checks of order 4 and 5 of R94. -/
def checkField (len : BitVec 3) (hoff : BitVec 8) : Except Stop Unit :=
  if len.toNat < 1 ∨ 4 < len.toNat then raiseErr .illegalCommand 4 0
  else if 256 < hoff.toNat + len.toNat then raiseErr .illegalCommand 5 0
  else .ok ()

/-- The check of order 6 of R94. -/
def checkIndex (idx : BitVec 7) : Except Stop Unit :=
  if 80 < idx.toNat then raiseErr .illegalCommand 6 0 else .ok ()

/-! ## Registers as numbers -/

/-- DIM.NX. -/
def gridNx (s : State) : Nat := s.dimNx.toNat

/-- DIM.NY. -/
def gridNy (s : State) : Nat := s.dimNy.toNat

/-- n = NX·NY. -/
def gridCount (s : State) : Nat := gridNx s * gridNy s

/-- `encDims(NX, NY)` (spec/10_state.md R34). -/
def encDims (nx ny : Nat) : Bool := 1 ≤ nx && nx ≤ 9 && 1 ≤ ny && ny ≤ 9

/-- `gridDims(NX, NY)` (R34). -/
def gridDims (nx ny : Nat) : Bool := 1 ≤ nx && nx ≤ 9 && 1 ≤ ny && ny ≤ 10 && nx * ny ≤ 81

/-- W. -/
def imageW (s : State) : Nat := s.width.toNat

/-- H. -/
def imageH (s : State) : Nat := s.height.toNat

/-- W·H, exact (spec/92_eei_decisions.md D35). -/
def pixelCount (s : State) : Nat := imageW s * imageH s

/-- The engine's punch, `PUNCH | 1` (spec/44_decoder.md R193). -/
def effectivePunch (s : State) : Nat := (s.punch ||| 1).toNat

/-- Where a command's NaN draws start (log entry 5). -/
def drawSite (s : State) : Site := [s.draws]

/-! ## Memories by index -/

/-- A result of reading bytes, a poison byte as a stop. -/
def orPoison {α : Type} : Except Nat α → Except Stop α
  | .ok v => .ok v
  | .error a => .error (.poison a)

/-- HASH[p]. -/
def readHash (s : State) (p : Nat) : Except Stop Byte :=
  match Memory.read s.mem (hashBase + p) with
  | some b => .ok b
  | none => .error (.poison (hashBase + p))

/-- Writes HASH[p ..]. -/
def writeHash (s : State) (p : Nat) (bs : List Byte) : State :=
  { s with mem := Memory.writeBytes s.mem (hashBase + p) bs }

/-- The binary64 value in the 8 bytes from a port address (spec/20_memory.md R63). -/
def readFloat (s : State) (a : Nat) : Except Stop F64 :=
  match orPoison (bytesFrom s.mem a 8) with
  | .ok bs => .ok (BitVec.ofNat 64 (leNat bs))
  | .error e => .error e

/-- GRID[k] (R63). -/
def readGrid (s : State) (k : Nat) : Except Stop Triple := do
  let r ← readFloat s (gridAddr k)
  let g ← readFloat s (gridAddr k + 8)
  let b ← readFloat s (gridAddr k + 16)
  return ⟨r, g, b⟩

/-- GRID[k .. k + count − 1]. -/
def readGridFrom (s : State) : Nat → Nat → Except Stop (List Triple)
  | _, 0 => .ok []
  | k, count + 1 => do
    let t ← readGrid s k
    let ts ← readGridFrom s (k + 1) count
    return t :: ts

/-- The 24 bytes of a grid entry (R63). -/
def tripleBytes (t : Triple) : List Byte :=
  leBytes 8 t.r.toNat ++ leBytes 8 t.g.toNat ++ leBytes 8 t.b.toNat

/-- Writes GRID[k ..]. -/
def writeGrid (s : State) (k : Nat) (ts : List Triple) : State :=
  { s with mem := Memory.writeBytes s.mem (gridAddr k) (ts.flatMap tripleBytes) }

/-- PIX[a]. -/
def readPix (s : State) (a : Nat) : Except Stop Byte :=
  match Memory.read s.mem (pixBase + a) with
  | some b => .ok b
  | none => .error (.poison (pixBase + a))

/-- The colour bytes of pixel q = y·W + x (spec/20_memory.md R65). -/
def readRgb (s : State) (q : Nat) : Except Stop Rgb := do
  let r ← readPix s (4 * q)
  let g ← readPix s (4 * q + 1)
  let b ← readPix s (4 * q + 2)
  return ⟨r, g, b⟩

/-- The colour bytes of `count` pixels from pixel q on, in row-major order. -/
def readRgbFrom (s : State) : Nat → Nat → Except Stop (List Rgb)
  | _, 0 => .ok []
  | q, count + 1 => do
    let p ← readRgb s q
    let ps ← readRgbFrom s (q + 1) count
    return p :: ps

/-- Writes PIX[0 ..]. -/
def writePix (s : State) (bs : List Byte) : State :=
  { s with mem := Memory.writeBytes s.mem pixBase bs }

end Sys2Proof.Machine
end

