-- ==== Sys2Proof/Machine/Base83.lean ====
section
/-! DEFINITION. The base83 codec (spec/41_base83.md). -/

namespace Sys2Proof.Machine

/-- The ASCII codes from `first` on. -/
def asciiRun (first count : Nat) : List Byte :=
  (List.range count).map fun i => BitVec.ofNat 8 (first + i)

/-- The symbols of digits 62 to 82 (R120). -/
def alphabetMarks : List Byte :=
  [0x23, 0x24, 0x25, 0x2A, 0x2B, 0x2C, 0x2D, 0x2E, 0x3A, 0x3B, 0x3D, 0x3F, 0x40, 0x5B, 0x5D, 0x5E, 0x5F, 0x7B, 0x7C,
   0x7D, 0x7E]

/-- ALPHABET (R120): digits, capital letters, small letters, marks. -/
def alphabet : List Byte :=
  asciiRun 0x30 10 ++ asciiRun 0x41 26 ++ asciiRun 0x61 26 ++ alphabetMarks

/-- `ascii(ALPHABET[d])` for a digit d ≤ 82 (R120). -/
def digitChar (d : Nat) : Byte := alphabet.getD d 0

/-- `index_of(c)` (R121). -/
def indexOf (c : Byte) : Option Nat := alphabet.idxOf? c

/-- `b83_encode(value, L)` (R122): the L low digits, most significant first. -/
def b83Encode (value len : Nat) : List Byte :=
  (List.range len).map fun p => digitChar (value / 83 ^ (len - 1 - p) % 83)

/-- `b83_decode` of the `count` characters from HASH[p] on, by Horner's rule from the value v (R123): reads each
character in turn and raises FORMAT_ERROR at the first that is no digit (R125). -/
def b83DecodeFrom (s : State) : Nat → Nat → Nat → Except Stop Nat
  | _, 0, v => .ok v
  | p, count + 1, v => do
    let c ← readHash s p
    match indexOf c with
    | none => raiseErr .formatError 2 (BitVec.ofNat 8 p)
    | some d => b83DecodeFrom s (p + 1) count (v * 83 + d)

/-- `b83_decode(HASH[p .. p + count − 1])` (R123). -/
def b83Decode (s : State) (p count : Nat) : Except Stop Nat := b83DecodeFrom s p count 0

/-- B83ENC (R124). -/
def execB83enc (len : BitVec 3) (hoff : BitVec 8) (s : State) : Host.Outcome State Fault Refusal :=
  commit s do
    checkField len hoff
    return writeHash s hoff.toNat (b83Encode s.src0.toNat len.toNat)

/-- B83DEC (R125). -/
def execB83dec (len : BitVec 3) (hoff : BitVec 8) (s : State) : Host.Outcome State Fault Refusal :=
  commit s do
    checkField len hoff
    let v ← b83Decode s hoff.toNat len.toNat
    return { s with result := BitVec.ofNat 64 v }

end Sys2Proof.Machine
end

