-- ==== Sys2Proof/Machine/Color.lean ====
section
/-! DEFINITION. The colour conversion commands (spec/42_color.md); their functions stand in Machine/Elementary.lean. -/

namespace Sys2Proof.Machine

/-- S2L (R144): the byte SRC0[7:0]. -/
def execS2l (s : State) : Host.Outcome State Fault Refusal :=
  commit s (.ok { s with result := s2l (drawSite s) (s.src0.extractLsb' 0 8) })

/-- L2S (R145): the byte zero-extended. -/
def execL2s (s : State) : Host.Outcome State Fault Refusal :=
  commit s (.ok { s with result := (l2s (drawSite s) s.src0).setWidth 64 })

/-- SPOW (R146). -/
def execSpow (s : State) : Host.Outcome State Fault Refusal :=
  commit s (.ok { s with result := signPow s.src0 s.src1 })

end Sys2Proof.Machine
end

