-- ==== Sys2Proof/Machine/Control.lean ====
section
/-! DEFINITION. The control command (spec/40_control.md). -/

namespace Sys2Proof.Machine

/-- NOP (R110): reads and writes nothing, and completes. -/
def execNop (s : State) : Host.Outcome State Fault Refusal :=
  commit s (.ok s)

end Sys2Proof.Machine
end

