-- ==== Sys2Proof/Machine/Transform.lean ====
section
/-! DEFINITION. What the forward and the inverse transform share (spec/43_encoder.md R160, spec/44_decoder.md R194):
the basis and the weighted accumulation of a triple; and the reconstruction scale (R161, R191). -/

namespace Sys2Proof.Machine

/-- A basis argument ((PI64 × a) × b) / w, in this order of multiplication (spec/92_eei_decisions.md D16). -/
def angle (d : Site) (a b w : Nat) : F64 :=
  fdiv (0 :: d) (fmul (1 :: d) (fmul (2 :: d) pi64 (fofNat a)) (fofNat b)) (fofNat w)

/-- cos64(ax) × cos64(ay). -/
def basis (d : Site) (ax ay : F64) : F64 := fmul d (cos64 ax) (cos64 ay)

/-- Adds basis × colour to each channel's sum. -/
def addWeighted (d : Site) (acc : Triple) (w : F64) (t : Triple) : Triple :=
  ⟨fadd (0 :: d) acc.r (fmul (1 :: d) w t.r),
   fadd (2 :: d) acc.g (fmul (3 :: d) w t.g),
   fadd (4 :: d) acc.b (fmul (5 :: d) w t.b)⟩

/-- The triple (+0.0, +0.0, +0.0) that a sum starts from. -/
def zeroTriple : Triple := ⟨posZero, posZero, posZero⟩

/-- A pixel's or a packed word's bytes as a triple of s2l values. -/
def s2lTriple (d : Site) (p : Rgb) : Triple :=
  ⟨s2l (0 :: d) p.r, s2l (1 :: d) p.g, s2l (2 :: d) p.b⟩

/-- `dqmax(v)` (R191), and the scale of `qmax` (R161): (v + 1) / 166. -/
def dqmax (d : Site) (v : Nat) : F64 := fdiv d (fofNat (v + 1)) c166

end Sys2Proof.Machine
end

