-- ==== Sys2Proof/Machine/Validator.lean ====
section
/-! DEFINITION. The validator (spec/45_validator.md), with the size flag of spec/44_decoder.md R190. -/

namespace Sys2Proof.Machine

/-- `sizeFlag(d)` (R190). -/
def sizeFlag (d : Nat) : Nat × Nat := (d % 9 + 1, d / 9 + 1)

/-- `validate()` (R220): the declared grid. -/
def validate (s : State) : Except Stop (Nat × Nat) :=
  if s.hashlen.toNat < 6 then raiseErr .lengthError 0 0
  else do
    let c ← readHash s 0
    match indexOf c with
    | none => raiseErr .formatError 2 0
    | some d =>
      let dims := sizeFlag d
      if s.hashlen.toNat ≠ 4 + 2 * (dims.1 * dims.2) then raiseErr .formatError 1 0
      else return dims

/-- VALIDATE (R221): the grid is discarded. -/
def execValidate (s : State) : Host.Outcome State Fault Refusal :=
  commit s do
    let _ ← validate s
    return s

end Sys2Proof.Machine
end

