-- ==== Sys2Proof/Machine/Decoder.lean ====
section
/-! DEFINITION. The decoder: dequantizer and inverse transform (spec/44_decoder.md). -/

namespace Sys2Proof.Machine

/-! ## Functions -/

/-- `dqdc(v)` (R192): R in bits [23:16], G in [15:8], B in [7:0]; higher bits are discarded. -/
def dqdc (d : Site) (v : DWord) : Triple :=
  s2lTriple d ⟨v.extractLsb' 16 8, v.extractLsb' 8 8, v.extractLsb' 0 8⟩

/-- `dch(q, m, P)` (R193): ((s × m) × P). -/
def dch (d : Site) (q : Nat) (m : F64) (punch : Nat) : F64 :=
  let s := signPow (fdiv (1 :: d) (fsub (0 :: d) (fofNat q) c9) c9) c2
  fmul (3 :: d) (fmul (2 :: d) s m) (fofNat punch)

/-- `dqac(v, m, P)` (R193). -/
def dqac (d : Site) (v : Nat) (m : F64) (punch : Nat) : Triple :=
  ⟨dch (0 :: d) (v / 361) m punch, dch (1 :: d) (v / 19 % 19) m punch, dch (2 :: d) (v % 19) m punch⟩

/-- The sum at pixel (x, y) over the grid entries from index k on, from `acc` (R194): entry k is (k mod nx, k div nx),
so that k ascending is grid rows outer, columns inner. -/
def dctiSum (d : Site) (w h nx x y : Nat) : Nat → List Triple → Triple → Triple
  | _, [], acc => acc
  | k, t :: ts, acc =>
    let e := k :: d
    let weight := basis (0 :: e) (angle (1 :: e) x (k % nx) w) (angle (2 :: e) y (k / nx) h)
    dctiSum d w h nx x y (k + 1) ts (addWeighted (3 :: e) acc weight t)

/-- The four bytes R, G, B, A = 255 of pixel q = y·W + x (R194). -/
def dctiPixel (d : Site) (w h nx : Nat) (grid : List Triple) (q : Nat) : List Byte :=
  let e := q :: d
  let t := dctiSum (0 :: e) w h nx (q % w) (q / w) 0 grid zeroTriple
  [l2s (1 :: e) t.r, l2s (2 :: e) t.g, l2s (3 :: e) t.b, 255]

/-- The bytes PIX[0 .. W·H·4 − 1] of `dcti(W, H, nx, ny, G)` (R194). -/
def dctiBytes (d : Site) (w h nx : Nat) (grid : List Triple) : List Byte :=
  (List.range (w * h)).flatMap (dctiPixel d w h nx grid)

/-- The alphabet pre-scan of HASH[p .. p + count − 1] (R199). -/
def scanHash (s : State) : Nat → Nat → Except Stop Unit
  | _, 0 => .ok ()
  | p, count + 1 => do
    let c ← readHash s p
    match indexOf c with
    | none => raiseErr .formatError 2 (BitVec.ofNat 8 p)
    | some _ => scanHash s (p + 1) count

/-- The AC terms k .. k + count − 1 of the hash, dequantized (R199). -/
def decodeAcs (d : Site) (s : State) (m : F64) : Nat → Nat → Except Stop (List Triple)
  | _, 0 => .ok []
  | k, count + 1 => do
    let v ← b83Decode s (4 + 2 * k) 2
    let ts ← decodeAcs d s m (k + 1) count
    return dqac (k :: d) v m (effectivePunch s) :: ts

/-! ## Commands -/

/-- DQMAX (R195). -/
def execDqmax (s : State) : Host.Outcome State Fault Refusal :=
  commit s do
    if 82 < s.src0.toNat then raiseErr .illegalCommand 8 0
    else return { s with maxreg := dqmax (drawSite s) s.src0.toNat }

/-- DQDC (R196). -/
def execDqdc (s : State) : Host.Outcome State Fault Refusal :=
  commit s (.ok (writeGrid s 0 [dqdc (drawSite s) s.src0]))

/-- DQAC (R197). -/
def execDqac (idx : BitVec 7) (s : State) : Host.Outcome State Fault Refusal :=
  commit s do
    checkIndex idx
    if 6888 < s.src0.toNat then raiseErr .illegalCommand 8 0
    else return writeGrid s idx.toNat [dqac (drawSite s) s.src0.toNat s.maxreg (effectivePunch s)]

/-- DCTI (R198): with W·H = 0 it reads and writes nothing. -/
def execDcti (s : State) : Host.Outcome State Fault Refusal :=
  commit s do
    if gridDims (gridNx s) (gridNy s) = false then raiseErr .illegalCommand 7 0
    else if exceedsPixmem (pixelCount s * 4) then raiseErr .capacityError 0 0
    else if pixelCount s = 0 then return s
    else
      let grid ← readGridFrom s 0 (gridCount s)
      return writePix s (dctiBytes (drawSite s) (imageW s) (imageH s) (gridNx s) grid)

/-- The writes of DECODE for the decoded grid and scale (R199). -/
def decodeWrites (s : State) (d : Site) (dims : Nat × Nat) (m : F64) (grid : List Triple) : State :=
  let filled := writeGrid s 0 grid
  { writePix filled (dctiBytes d (imageW s) (imageH s) dims.1 grid) with
    dimNx := BitVec.ofNat 4 dims.1
    dimNy := BitVec.ofNat 4 dims.2
    maxreg := m }

/-- DECODE (R199). -/
def execDecode (s : State) : Host.Outcome State Fault Refusal :=
  commit s do
    let dims ← validate s
    scanHash s 1 (s.hashlen.toNat - 1)
    if exceedsPixmem (pixelCount s * 4) then raiseErr .capacityError 0 0
    else
      let d := drawSite s
      let top ← b83Decode s 1 1
      let m := dqmax (0 :: d) top
      let word ← b83Decode s 2 4
      let acs ← decodeAcs (2 :: d) s m 1 (dims.1 * dims.2 - 1)
      return decodeWrites s (3 :: d) dims m (dqdc (1 :: d) (BitVec.ofNat 64 word) :: acs)

end Sys2Proof.Machine
end

