-- ==== Sys2Proof/Machine/Encoder.lean ====
section
/-! DEFINITION. The encoder: forward transform and quantizer (spec/43_encoder.md). -/

namespace Sys2Proof.Machine

/-! ## Functions -/

/-- The sums of frequency (i, j) over the pixels from pixel q on, from `acc` (R160): pixel q is column q mod W of row
q div W, so that q ascending is rows outer, columns inner. -/
def dctfSum (d : Site) (w h i j : Nat) : Nat → List Rgb → Triple → Triple
  | _, [], acc => acc
  | q, p :: ps, acc =>
    let e := q :: d
    let weight := basis (0 :: e) (angle (1 :: e) i (q % w) w) (angle (2 :: e) j (q / w) h)
    dctfSum d w h i j (q + 1) ps (addWeighted (3 :: e) acc weight (s2lTriple (4 :: e) p))

/-- The scale norm / f64(W·H) of entry k (R160). -/
def dctfScale (d : Site) (w h k : Nat) : F64 :=
  fdiv d (if k = 0 then c1 else c2) (fofNat (w * h))

/-- Each channel times a factor. -/
def scaleTriple (d : Site) (t : Triple) (f : F64) : Triple :=
  ⟨fmul (0 :: d) t.r f, fmul (1 :: d) t.g f, fmul (2 :: d) t.b f⟩

/-- Entry k = i + j·NX of `dctf(W, H, NX, NY)` (R160). -/
def dctfEntry (d : Site) (w h nx : Nat) (ps : List Rgb) (k : Nat) : Triple :=
  let e := k :: d
  scaleTriple (0 :: e) (dctfSum (1 :: e) w h (k % nx) (k / nx) 0 ps zeroTriple) (dctfScale (2 :: e) w h k)

/-- Entries `first` to `first + count − 1` of `dctf(W, H, NX, NY)` (R160). -/
def dctfEntries (d : Site) (w h nx : Nat) (ps : List Rgb) (first count : Nat) : List Triple :=
  (List.range' first count).map (dctfEntry d w h nx ps)

/-- One step of the fold of R161: a NaN channel never passes the test. -/
def foldAbs (am c : F64) : F64 := if flt am (fabs c) then fabs c else am

/-- actual_max over the AC triples, from +0.0 (R161). -/
def actualMax (acs : List Triple) : F64 :=
  acs.foldl (fun am t => foldAbs (foldAbs (foldAbs am t.r) t.g) t.b) posZero

/-- `qmax` (R161) of the AC triples: questioned_max and maximum; a 1×1 grid has no AC triple. -/
def qmax (d : Site) (acs : List Triple) : Nat × F64 :=
  match acs with
  | [] => (0, c1)
  | t :: ts =>
    let qm := satFloor (fsub (0 :: d) (fmul (1 :: d) (actualMax (t :: ts)) c166) cHalf) 0 82
    (qm, dqmax (2 :: d) qm)

/-- `qdc(t)` (R162): R in bits [23:16], G in [15:8], B in [7:0]. -/
def qdc (d : Site) (t : Triple) : BitVec 24 :=
  l2s (0 :: d) t.r ++ l2s (1 :: d) t.g ++ l2s (2 :: d) t.b

/-- `qch(c, m)` (R163). A quotient that is not finite saturates as R163 says: +inf gives 18, −inf and NaN give 0, whatever
the power, which U4 leaves open there, returns for it (DEDUCED: log entry 19). -/
def qch (d : Site) (c m : F64) : Nat :=
  let u := fdiv (0 :: d) c m
  if isNaN u then 0
  else if isInf u then (if fsign u then 0 else 18)
  else satFloor (fadd (2 :: d) (fmul (1 :: d) (signPow u cHalf) c9) c9_5) 0 18

/-- `qac(t, m)` (R163). -/
def qac (d : Site) (t : Triple) (m : F64) : Nat :=
  qch (0 :: d) t.r m * 361 + qch (1 :: d) t.g m * 19 + qch (2 :: d) t.b m

/-- The characters of the AC terms from index k on (R169). -/
def acChars (d : Site) (m : F64) : Nat → List Triple → List Byte
  | _, [] => []
  | k, t :: ts => b83Encode (qac (k :: d) t m) 2 ++ acChars d m (k + 1) ts

/-- The hash of a transformed image (R169): size flag, questioned_max, DC term, AC terms. -/
def hashChars (d : Site) (nx ny : Nat) (dc : Triple) (acs : List Triple) : List Byte :=
  let q := qmax (0 :: d) acs
  b83Encode ((nx - 1) + (ny - 1) * 9) 1 ++ b83Encode q.1 1 ++ b83Encode (qdc (1 :: d) dc).toNat 4
    ++ acChars (2 :: d) q.2 1 acs

/-- `encCheck()` (R164). -/
def encCheck (s : State) : Except Stop Unit :=
  if encDims (gridNx s) (gridNy s) = false then raiseErr .rangeError 0 0
  else if s.pixlen.toNat ≠ pixelCount s * 4 then raiseErr .sizeMismatch 0 0
  else if exceedsPixmem s.pixlen.toNat then raiseErr .capacityError 0 0
  else if pixelCount s = 0 then raiseErr .emptyImage 0 0
  else .ok ()

/-! ## Commands -/

/-- DCTF (R165). -/
def execDctf (s : State) : Host.Outcome State Fault Refusal :=
  commit s do
    encCheck s
    let ps ← readRgbFrom s 0 (pixelCount s)
    return writeGrid s 0 (dctfEntries (drawSite s) (imageW s) (imageH s) (gridNx s) ps 0 (gridCount s))

/-- QMAX (R166): reads GRID[1 .. n−1]. -/
def execQmax (s : State) : Host.Outcome State Fault Refusal :=
  commit s do
    if gridDims (gridNx s) (gridNy s) = false then raiseErr .illegalCommand 7 0
    else
      let acs ← readGridFrom s 1 (gridCount s - 1)
      let q := qmax (drawSite s) acs
      return { s with result := BitVec.ofNat 64 q.1, maxreg := q.2 }

/-- QDC (R167). -/
def execQdc (s : State) : Host.Outcome State Fault Refusal :=
  commit s do
    let t ← readGrid s 0
    return { s with result := (qdc (drawSite s) t).setWidth 64 }

/-- QAC (R168). -/
def execQac (idx : BitVec 7) (s : State) : Host.Outcome State Fault Refusal :=
  commit s do
    checkIndex idx
    let t ← readGrid s idx.toNat
    return { s with result := BitVec.ofNat 64 (qac (drawSite s) t s.maxreg) }

/-- The writes of ENCODE for the pixels `ps` (R169). -/
def encodeWrites (s : State) (ps : List Rgb) : State :=
  let d := drawSite s
  let dc := dctfEntry (0 :: d) (imageW s) (imageH s) (gridNx s) ps 0
  let acs := dctfEntries (0 :: d) (imageW s) (imageH s) (gridNx s) ps 1 (gridCount s - 1)
  let hashed := writeHash s 0 (hashChars (1 :: d) (gridNx s) (gridNy s) dc acs)
  { writeGrid hashed 0 (dc :: acs) with
    hashlen := BitVec.ofNat 16 (4 + 2 * gridCount s)
    maxreg := (qmax (0 :: 1 :: d) acs).2 }

/-- ENCODE (R169). -/
def execEncode (s : State) : Host.Outcome State Fault Refusal :=
  commit s do
    encCheck s
    let ps ← readRgbFrom s 0 (pixelCount s)
    return encodeWrites s ps

end Sys2Proof.Machine
end

