-- ==== Sys2Proof/Machine/Dispatch.lean ====
section
/-! DEFINITION. The meaning of each command: its completion step (spec/10_state.md R46). -/

namespace Sys2Proof.Machine

def exec (i : Instr) (s : State) : Host.Outcome State Fault Refusal :=
  match i with
  | .nop => Sys2Proof.Machine.execNop s
  | .b83enc len hoff => Sys2Proof.Machine.execB83enc len hoff s
  | .b83dec len hoff => Sys2Proof.Machine.execB83dec len hoff s
  | .s2l => Sys2Proof.Machine.execS2l s
  | .l2s => Sys2Proof.Machine.execL2s s
  | .spow => Sys2Proof.Machine.execSpow s
  | .qmax => Sys2Proof.Machine.execQmax s
  | .qdc => Sys2Proof.Machine.execQdc s
  | .qac idx => Sys2Proof.Machine.execQac idx s
  | .dqmax => Sys2Proof.Machine.execDqmax s
  | .dqdc => Sys2Proof.Machine.execDqdc s
  | .dqac idx => Sys2Proof.Machine.execDqac idx s
  | .dctf => Sys2Proof.Machine.execDctf s
  | .dcti => Sys2Proof.Machine.execDcti s
  | .validate => Sys2Proof.Machine.execValidate s
  | .encode => Sys2Proof.Machine.execEncode s
  | .decode => Sys2Proof.Machine.execDecode s

end Sys2Proof.Machine
end

