-- ==== Sys2Proof/Machine/Port.lean ====
section
/-! DEFINITION. The host's moves on the port: reads and writes (spec/20_memory.md R61, R62, R70 to R73;
spec/70_reset_and_hazards.md R265, R266), the poll (spec/30_encoding.md R98) and the reset input
(spec/70_reset_and_hazards.md R260); and the host program forms of R98. -/

namespace Sys2Proof.Machine

/-- The number of bytes an access moves (R70). -/
def widthBytes : Width → Nat
  | .byte => 1
  | .half => 2
  | .word => 4

/-- The regions of the address map (R61). -/
inductive Region where
  | csr | hash | grid | pix | reserved
  deriving DecidableEq, Repr

/-- The region that an address lies in (R61). -/
def regionOf (a : Nat) : Region :=
  if a < hashBase then .csr
  else if a < 0x200 then .hash
  else if a < gridBase then .reserved
  else if a < 0xF98 then .grid
  else if a < pixBase then .reserved
  else if a < pixBase + pixmemBytes then .pix
  else .reserved

/-- The widths that a region takes (R61, R70). -/
def regionTakes : Region → Width → Bool
  | .csr, w => w == .word
  | .reserved, _ => false
  | _, _ => true

/-- The access is no bus error: aligned, of a width its region takes, and all of it in that region (R71, R72). -/
def accessOk (w : Width) (a : Nat) : Bool :=
  decide (a % widthBytes w = 0) && regionTakes (regionOf a) w && regionOf (a + widthBytes w - 1) == regionOf a

/-- Answers an access. -/
def answer (data : Word) (err : Bool) (s : State) : State := { s with reply := some ⟨data, err⟩ }

/-- Answers a bus error: no effect on the engine, read data 0 (R71). -/
def busError (s : State) : State := answer 0 true s

/-- Answers a read in the busy window of a location that a command may write: any value of the access's width
(spec/93_implementation_defined.md U2; log entry 5). -/
def freeAnswer (w : Width) (s : State) : State :=
  { answer (BitVec.ofNat 32 ((Config.freeRead s.draws).toNat % 256 ^ widthBytes w)) false s with
    draws := s.draws + 1 }

/-- A host read (R62, R71, R73, R266): no side effect on the engine; a poison byte read outside the busy window stops
the model (R262). -/
def hostRead (w : Width) (address : Word) (s : State) : Host.Outcome State Fault Refusal :=
  let a := address.toNat
  if accessOk w a = false then .next (busError s)
  else if regionOf a = .csr then
    if s.busy && csrVolatile (csrAt a) then .next (freeAnswer w s)
    else .next (answer (csrRead s (csrAt a)) false s)
  else if s.busy then .next (freeAnswer w s)
  else
    match bytesFrom s.mem a (widthBytes w) with
    | .ok bs => .next (answer (BitVec.ofNat 32 (leNat bs)) false s)
    | .error p => .fault (.hostReadsPoison p)

/-- What a host write does to the engine (R62, R73, R265, R266). -/
def writeEffect (w : Width) (a : Nat) (v : Word) (s : State) : State :=
  if regionOf a = .csr then csrWrite (csrAt a) v s
  else storeUnlessBusy s { s with mem := Memory.writeBytes s.mem a (leBytes (widthBytes w) v.toNat) }

/-- A host write: the low bytes of `v` at the address; an ignored or dropped write is answered OK (log entry 9). -/
def hostWrite (w : Width) (address : Word) (v : Word) (s : State) : Host.Outcome State Fault Refusal :=
  let a := address.toNat
  if accessOk w a = false then .next (busError s)
  else .next (answer 0 false (writeEffect w a v s))

/-- The reset input (spec/70_reset_and_hazards.md R260 to R263): every register at its reset value, every byte of
memory poison, the pending command discarded. The host's further moves stay, and free draws stay fresh. -/
def resetInput (s : State) : State :=
  { State.reset with draws := s.draws, turns := s.turns }

/-- The address of STATUS (spec/10_state.md R25). -/
def statusAddress : Word := 0x0C

/-- The address of CMD (R25). -/
def cmdAddress : Word := 0x10

/-- One turn of the poll loop (spec/30_encoding.md R98): a read of STATUS, repeated after a step of the engine while
BUSY is 1. The engine's step between two reads is its fairness (spec/70_reset_and_hazards.md R270; log entry 3). -/
def pollTurn (s : State) : State :=
  let t := answer (statusWord s) false s
  if s.busy then { t with turns := .engine :: .poll :: t.turns } else t

/-! ## Host programs (spec/30_encoding.md R98) -/

/-- `cmd`: writes the word to CMD, then polls. -/
def hostCmd (w : Word) : List Turn := [.write .word cmdAddress w, .poll]

/-- `wr64 REG, V`: the low half at the address of REG_LO, the high half at that of REG_HI. -/
def hostWr64 (regLo : Word) (v : DWord) : List Turn :=
  [.write .word regLo (loHalf v), .write .word (regLo + 4) (hiHalf v)]

/-- `wrgrid k, (r, g, b)`: six 32-bit writes, low word first. -/
def hostWrGrid (k : Nat) (r g b : DWord) : List Turn :=
  hostWr64 (BitVec.ofNat 32 (gridAddr k)) r ++ hostWr64 (BitVec.ofNat 32 (gridAddr k + 8)) g
    ++ hostWr64 (BitVec.ofNat 32 (gridAddr k + 16)) b

/-- `wrstr A, "text"`: one 8-bit write per character. -/
def hostWrStr : Word → List Byte → List Turn
  | _, [] => []
  | a, c :: cs => .write .byte a (c.setWidth 32) :: hostWrStr (a + 1) cs

end Sys2Proof.Machine
end

