-- ==== Sys2Proof/Machine/Engine.lean ====
section
/-! DEFINITION. The engine's completion step (spec/10_state.md R46) and one turn of either agent (R20,
spec/60_exceptions.md R239). -/

namespace Sys2Proof.Machine

/-- The error of a word that names no command (spec/30_encoding.md R94, order 1 to 3). -/
def illegalWordError (e : IllegalWord) : CmdError := ⟨.illegalCommand, illegalKind e, 0⟩

/-- The completion step of the pending command; with none pending the engine is idle and holds its state
(spec/60_exceptions.md R245). -/
def completionStep (s : State) : Host.Outcome State Fault Refusal :=
  match s.pending with
  | none => .next s
  | some w =>
    match decode w with
    | .ok i => exec i s
    | .error e => .next (raiseError (illegalWordError e) s)

/-- One agent's move, with the turns after it left in the state. -/
def turnStep (t : Turn) (s : State) : Host.Outcome State Fault Refusal :=
  match t with
  | .engine => completionStep s
  | .read w a => hostRead w a s
  | .write w a v => hostWrite w a v s
  | .poll => .next (pollTurn s)
  | .reset => .next (resetInput s)

/-- The next move: the first turn, or the engine's where no turn is left (log entry 3). -/
def agentStep (s : State) : Host.Outcome State Fault Refusal :=
  match s.turns with
  | [] => completionStep s
  | t :: ts => turnStep t { s with turns := ts }

/-- The state in which a command of that word has just been issued and the engine moves next (log entry 10). -/
def withIssued (s : State) (w : Word) : State :=
  { acceptCommand w s with turns := .engine :: s.turns }

end Sys2Proof.Machine
end

