-- ==== Sys2Proof/Machine/Step.lean ====
section
/-! DEFINITION. One step of the machine, and a command placed where the step takes it from. -/

namespace Sys2Proof.Machine

/-- One step: one turn of the host or of the engine (spec/10_state.md R20). -/
def step (s : State) : Host.Outcome State Fault Refusal := agentStep s

/-- `s` with the command of the low `nbits` bits of `w` accepted into CMD and the latch (spec/10_state.md R30) and the
engine to move next: the engine fetches nothing, and this write is how a command comes to run (R23; log entry 10). -/
def State.withFetchWord (s : State) (nbits w : Nat) : State :=
  withIssued s (BitVec.ofNat 32 (w % 2 ^ nbits))

end Sys2Proof.Machine
end

