-- ==== Sys2Proof/Safety.lean ====
section
/-! DEFINITION. The terms in which claims are made: what a completed command is, what it leaves unchanged, which bytes
are defined, the legal outcomes of spec/60_exceptions.md R232, and the invariant of the machine. -/

namespace Sys2Proof

open Machine

/-! ## Values -/

/-- Two patterns of one binary64 value: equal, or both NaN (spec/00_scope.md R9). -/
def SameValue (x y : F64) : Prop := x = y ∨ (isNaN x = true ∧ isNaN y = true)

/-- Two triples of the same values, channel by channel. -/
def SameTriple (t u : Triple) : Prop := SameValue t.r u.r ∧ SameValue t.g u.g ∧ SameValue t.b u.b

/-! ## Bytes -/

/-- The byte at a port address has been written since reset (spec/70_reset_and_hazards.md R262). -/
abbrev Defined (s : State) (a : Nat) : Prop := (Memory.read s.mem a).isSome = true

/-- `count` bytes from a port address have been written since reset. -/
abbrev DefinedFrom (s : State) (a count : Nat) : Prop := ∀ i < count, Defined s (a + i)

/-- The colour bytes of the first `count` pixels have been written since reset; alpha is not asked for
(spec/43_encoder.md R160). -/
abbrev ColoursDefined (s : State) (count : Nat) : Prop := ∀ q < count, DefinedFrom s (pixBase + 4 * q) 3

/-- Memory `m` holds the bytes `bs` from address a on. -/
abbrev HoldsFrom (m : Memory) (a : Nat) (bs : List Byte) : Prop :=
  ∀ i, (h : i < bs.length) → Memory.read m (a + i) = some bs[i]

/-- Two memories read alike at every address outside `count` addresses from a on. -/
def SameOutside (m m' : Memory) (a count : Nat) : Prop :=
  ∀ x, x < a ∨ a + count ≤ x → Memory.read m' x = Memory.read m x

/-- Two memories read alike everywhere. -/
def SameMemory (m m' : Memory) : Prop := ∀ x, Memory.read m' x = Memory.read m x

/-! ## Completed commands -/

/-- The flags and the record that a command leaves (spec/10_state.md R46): BUSY = 0, DONE = 1, ERRCODE, ERRINFO, and
no pending command. -/
def Completed (t : State) (code : BitVec 4) (kind pos : Byte) : Prop :=
  t.busy = false ∧ t.done = true ∧ t.errcode = code ∧ t.errKind = kind ∧ t.errPos = pos ∧ t.pending = none

/-- A command's success (spec/60_exceptions.md R231, R232). -/
def Succeeded (t : State) : Prop := Completed t 0 0 0

/-- What no command writes (spec/30_encoding.md R92): CTRL, WERR, CMD and the host's operand registers; and the host's
side of the model. -/
def SameInputs (s t : State) : Prop :=
  t.ie = s.ie ∧ t.werr = s.werr ∧ t.cmd = s.cmd ∧ t.width = s.width ∧ t.height = s.height ∧ t.punch = s.punch ∧
    t.pixlen = s.pixlen ∧ t.src0 = s.src0 ∧ t.src1 = s.src1 ∧ t.turns = s.turns ∧ t.reply = s.reply

/-- The registers that some command writes: DIM, HASHLEN, RESULT, MAXREG. -/
def SameOutputs (s t : State) : Prop :=
  t.dimNx = s.dimNx ∧ t.dimNy = s.dimNy ∧ t.hashlen = s.hashlen ∧ t.result = s.result ∧ t.maxreg = s.maxreg

/-- The outcome of a command that raises an error (spec/60_exceptions.md R235): the record, and nothing else. -/
def FailedOnly (s t : State) (code : BitVec 4) (kind pos : Byte) : Prop :=
  Completed t code kind pos ∧ SameInputs s t ∧ SameOutputs s t ∧ t.mem = s.mem

/-- What a step of the host on the port leaves unchanged when it has no effect on the engine: all of the engine's
state (the reply and the model's draws may differ). -/
def SameEngine (s t : State) : Prop :=
  t.ie = s.ie ∧ t.busy = s.busy ∧ t.done = s.done ∧ t.werr = s.werr ∧ t.errcode = s.errcode ∧
    t.errKind = s.errKind ∧ t.errPos = s.errPos ∧ t.cmd = s.cmd ∧ t.width = s.width ∧ t.height = s.height ∧
    t.punch = s.punch ∧ t.pixlen = s.pixlen ∧ t.src0 = s.src0 ∧ t.src1 = s.src1 ∧ SameOutputs s t ∧
    t.mem = s.mem ∧ t.pending = s.pending

/-- A command has succeeded and left alone what no command writes. -/
def Ran (s t : State) : Prop := Succeeded t ∧ SameInputs s t

/-- Dropped in the busy window: WERR is set and nothing else of the engine changes (spec/70_reset_and_hazards.md R265,
R266). -/
def DroppedOnly (s t : State) : Prop := SameEngine { s with werr := true } t

/-! ## Which commands write what (spec/30_encoding.md R92, spec/10_state.md R22, R43 to R45) -/

/-- The commands that write RESULT. -/
def writesResult : Instr → Bool
  | .b83dec _ _ => true
  | .s2l => true
  | .l2s => true
  | .spow => true
  | .qmax => true
  | .qdc => true
  | .qac _ => true
  | .nop | .b83enc _ _ | .dqmax | .dqdc | .dqac _ | .dctf | .dcti | .validate | .encode | .decode => false

/-- The commands that write MAXREG. -/
def writesMaxreg : Instr → Bool
  | .qmax => true
  | .dqmax => true
  | .encode => true
  | .decode => true
  | .nop | .b83enc _ _ | .b83dec _ _ | .s2l | .l2s | .spow | .qdc | .qac _ | .dqdc | .dqac _ | .dctf | .dcti
  | .validate => false

/-- The commands that write HASHMEM. -/
def writesHash : Instr → Bool
  | .b83enc _ _ => true
  | .encode => true
  | .nop | .b83dec _ _ | .s2l | .l2s | .spow | .qmax | .qdc | .qac _ | .dqmax | .dqdc | .dqac _ | .dctf | .dcti
  | .validate | .decode => false

/-- The commands that write GRIDMEM. -/
def writesGrid : Instr → Bool
  | .dctf => true
  | .dqdc => true
  | .dqac _ => true
  | .encode => true
  | .decode => true
  | .nop | .b83enc _ _ | .b83dec _ _ | .s2l | .l2s | .spow | .qmax | .qdc | .qac _ | .dqmax | .dcti
  | .validate => false

/-- The commands that write PIXMEM. -/
def writesPix : Instr → Bool
  | .dcti => true
  | .decode => true
  | .nop | .b83enc _ _ | .b83dec _ _ | .s2l | .l2s | .spow | .qmax | .qdc | .qac _ | .dqmax | .dqdc | .dqac _ | .dctf
  | .validate | .encode => false

/-! ## Errors by command (spec/60_exceptions.md R233) -/

/-- The outcomes of the range checks of KIND 4 and 5. -/
def fieldError (code : BitVec 4) (kind : Byte) : Bool := code == 7 && (kind == 4 || kind == 5)

/-- The outcomes of validation. -/
def validateError (code : BitVec 4) (kind : Byte) : Bool :=
  (code == 3 && kind == 0) || (code == 4 && (kind == 1 || kind == 2))

/-- The outcomes of the encoder's checks. -/
def encoderError (code : BitVec 4) (kind : Byte) : Bool :=
  kind == 0 && (code == 1 || code == 2 || code == 5 || code == 6)

/-- The row of the command × error matrix (R233) for a decoded command: the word checks of KIND 1 to 3 are behind it. -/
def mayRaise (i : Instr) (code : BitVec 4) (kind : Byte) : Bool :=
  match i with
  | .nop => false
  | .b83enc _ _ => fieldError code kind
  | .b83dec _ _ => fieldError code kind || (code == 4 && kind == 2)
  | .s2l => false
  | .l2s => false
  | .spow => false
  | .qmax => code == 7 && kind == 7
  | .qdc => false
  | .qac _ => code == 7 && kind == 6
  | .dqmax => code == 7 && kind == 8
  | .dqdc => false
  | .dqac _ => code == 7 && (kind == 6 || kind == 8)
  | .dctf => encoderError code kind
  | .dcti => (code == 7 && kind == 7) || (code == 5 && kind == 0)
  | .validate => validateError code kind
  | .encode => encoderError code kind
  | .decode => validateError code kind || (code == 5 && kind == 0)

/-! ## The transforms as the nested loops of the rules -/

/-- PIX[a], where it has been written. -/
def pixByte (s : State) (a : Nat) : Byte := (Memory.read s.mem (pixBase + a)).getD 0

/-- The colour bytes at column x, row y (spec/20_memory.md R65). -/
def pixelAt (s : State) (x y : Nat) : Rgb :=
  ⟨pixByte s (4 * (y * imageW s + x)), pixByte s (4 * (y * imageW s + x) + 1), pixByte s (4 * (y * imageW s + x) + 2)⟩

/-- G[i + j·NX] of `dctf(W, H, NX, NY)` as the loops of spec/43_encoder.md R160: rows outer, columns inner. -/
def dctfLoops (d : Site) (s : State) (i j : Nat) : Triple :=
  let w := imageW s
  let h := imageH s
  let e := (i + j * gridNx s) :: d
  let sum := (List.range h).foldl (fun acc y =>
    (List.range w).foldl (fun acc x =>
      let f := (y * w + x) :: 1 :: e
      addWeighted (3 :: f) acc (basis (0 :: f) (angle (1 :: f) i x w) (angle (2 :: f) j y h))
        (s2lTriple (4 :: f) (pixelAt s x y))) acc) zeroTriple
  scaleTriple (0 :: e) sum (fdiv (2 :: e) (if i = 0 ∧ j = 0 then c1 else c2) (fofNat (w * h)))

/-- The n triples of `dctf(W, H, NX, NY)`, the loop over j outer (R160). -/
def dctfGrid (d : Site) (s : State) : List Triple :=
  (List.range (gridNy s)).flatMap fun j => (List.range (gridNx s)).map fun i => dctfLoops d s i j

/-- The four bytes of pixel (x, y) of `dcti(W, H, nx, ny, G)` as the loops of spec/44_decoder.md R194: grid rows
outer, columns inner. -/
def dctiLoops (d : Site) (w h nx ny : Nat) (grid : List Triple) (x y : Nat) : List Byte :=
  let e := (y * w + x) :: d
  let sum := (List.range ny).foldl (fun acc j =>
    (List.range nx).foldl (fun acc i =>
      let f := (i + j * nx) :: 0 :: e
      addWeighted (3 :: f) acc (basis (0 :: f) (angle (1 :: f) x i w) (angle (2 :: f) y j h))
        (grid.getD (i + j * nx) zeroTriple)) acc) zeroTriple
  [l2s (1 :: e) sum.r, l2s (2 :: e) sum.g, l2s (3 :: e) sum.b, 255]

/-- PIX[0 .. W·H·4 − 1] of `dcti(W, H, nx, ny, G)`, the loop over y outer (R194). -/
def dctiImage (d : Site) (w h nx ny : Nat) (grid : List Triple) : List Byte :=
  (List.range h).flatMap fun y => (List.range w).flatMap fun x => dctiLoops d w h nx ny grid x y

/-! ## The hash -/

/-- The digit of HASH[p], or none where it is poison or outside the alphabet. -/
def hashDigit? (s : State) (p : Nat) : Option Nat := (Memory.read s.mem (hashBase + p)).bind indexOf

/-- The digit of HASH[p], where it has one. -/
def hashDigit (s : State) (p : Nat) : Nat := (hashDigit? s p).getD 0

/-- The value of the field HASH[p .. p + len − 1] (spec/41_base83.md R123). -/
def hashField (s : State) (p len : Nat) : Nat :=
  (List.range len).foldl (fun v i => v * 83 + hashDigit s (p + i)) 0

/-- The grid width that the size flag declares (spec/44_decoder.md R190). -/
def hashNx (s : State) : Nat := hashDigit s 0 % 9 + 1

/-- The grid height that the size flag declares (R190). -/
def hashNy (s : State) : Nat := hashDigit s 0 / 9 + 1

/-- HASH passes validation (spec/45_validator.md R220). -/
abbrev HashValid (s : State) : Prop :=
  6 ≤ s.hashlen.toNat ∧ (hashDigit? s 0).isSome = true ∧ s.hashlen.toNat = 4 + 2 * (hashNx s * hashNy s)

/-- HASH passes validation and the pre-scan of DECODE (spec/44_decoder.md R199). -/
abbrev HashDecodable (s : State) : Prop :=
  HashValid s ∧ ∀ p < s.hashlen.toNat, (hashDigit? s p).isSome = true

/-- The scale that DECODE takes of the hash (R199, R191). -/
def hashScale (s : State) : F64 := fdiv [] (fofNat (hashField s 1 1 + 1)) c166

/-- The grid that DECODE takes of the hash (R199); where a product is no number its pattern is free. -/
def hashGrid (s : State) : List Triple :=
  dqdc [] (BitVec.ofNat 64 (hashField s 2 4)) ::
    (List.range (hashNx s * hashNy s - 1)).map fun k =>
      dqac ((k + 1) :: 2 :: drawSite s) (hashField s (6 + 2 * k) 2) (hashScale s) (s.punch ||| 1).toNat

/-! ## The invariant -/

/-- The outcomes that a conforming engine records (spec/60_exceptions.md R231, R232). -/
def legalOutcome (code : BitVec 4) (kind pos : Byte) : Bool :=
  if code = 4 then (kind == 1 && pos == 0) || kind == 2
  else if code = 7 then decide (1 ≤ kind.toNat) && decide (kind.toNat ≤ 8) && pos == 0
  else decide (code.toNat ≤ 6) && kind == 0 && pos == 0

/-- Every written byte lies in a memory of the address map (spec/20_memory.md R61). -/
def cellsInMap (m : Memory) : Bool :=
  m.all fun c => regionOf c.1 == .hash || regionOf c.1 == .grid || regionOf c.1 == .pix

/-- BUSY is 1 exactly while a command is pending, CMD then holds its word, and DONE, ERRCODE and ERRINFO are clear
(spec/10_state.md R29, R30, R31, R46). -/
def issueCoherent (s : State) : Bool :=
  match s.pending with
  | none => !s.busy
  | some w => s.busy && s.cmd == w && !s.done && s.errcode == 0 && s.errKind == 0 && s.errPos == 0

/-- The invariant of the machine. -/
def Inv (s : State) : Prop :=
  Memory.wf s.mem = true ∧ cellsInMap s.mem = true ∧ issueCoherent s = true ∧
    legalOutcome s.errcode s.errKind s.errPos = true

end Sys2Proof
end

