-- ==== Sys2Proof/Certificates/Slice0/Obligations.lean ====
section
/-! DEFINITION. The statements about the engine, made from the numbered rules of spec/. Each docstring names the rule.
`Ran`, `FailedOnly`, `SameEngine` and the other relations stand in Sys2Proof/Safety.lean. -/

open Sys2Proof Sys2Proof.Machine

/-! ## Encoding -/

/-- Decoding the word of any command, at every value of its fields, gives that command (spec/30_encoding.md R90 to
R92). -/
def Obligations.DecodeOfEncodeIsTheCommand : Prop :=
  ∀ i : Instr, decode (encode i) = .ok i

/-- A word that decodes is the word of its command: each word has one meaning (R90, R94). -/
def Obligations.EncodeOfDecodeIsTheWord : Prop :=
  ∀ (w : Word) (i : Instr), decode w = .ok i → encode i = w

/-- Words written out from the spec's encodings decode to the commands they stand for (R97, spec/95_test_vectors.md
section 2.1). -/
def Obligations.SpecWordsDecodeToTheirCommands : Prop :=
  decode 0x00020410 = .ok (.b83enc 4 2) ∧ decode 0x00FF0111 = .ok (.b83dec 1 255) ∧
    decode 0x5000003A = .ok (.dqac 80) ∧ decode 0x00000052 = .ok .decode ∧
    decode 0x80000000 = .error .reservedBits

/-- R94: the completion step of a pending word makes the checks of KIND 1 to 6 in this order, and the first that fails
gives ILLEGAL_COMMAND with its KIND and POS = 0, and changes nothing else. (No turn left: the engine moves, log entry 3.) -/
def Obligations.IllegalWordsFailByTheFirstCheck : Prop :=
  ∀ (s : State) (w : Word), s.turns = [] → s.pending = some w →
    let op := w.toNat % 2 ^ 8
    let len := w.toNat / 2 ^ 8 % 2 ^ 3
    let low := w.toNat / 2 ^ 11 % 2 ^ 5
    let hoff := w.toNat / 2 ^ 16 % 2 ^ 8
    let idx := w.toNat / 2 ^ 24 % 2 ^ 7
    let top := w.toNat / 2 ^ 31
    let known := op ∈ [0x00, 0x10, 0x11, 0x20, 0x21, 0x22, 0x30, 0x31, 0x32, 0x38, 0x39, 0x3A, 0x40, 0x41, 0x50, 0x51, 0x52]
    let fielded := op = 0x10 ∨ op = 0x11
    let indexed := op = 0x32 ∨ op = 0x3A
    let unused := (¬ fielded ∧ (len ≠ 0 ∨ hoff ≠ 0)) ∨ (¬ indexed ∧ idx ≠ 0)
    let fails (kind : Byte) := ∃ t, step s = .next t ∧ FailedOnly s t 7 kind 0
    (¬ known → fails 1) ∧
    (known → low ≠ 0 ∨ top ≠ 0 → fails 2) ∧
    (known → low = 0 → top = 0 → unused → fails 3) ∧
    (fielded → low = 0 → top = 0 → ¬ unused → len < 1 ∨ 4 < len → fails 4) ∧
    (fielded → low = 0 → top = 0 → ¬ unused → 1 ≤ len → len ≤ 4 → 256 < hoff + len → fails 5) ∧
    (indexed → low = 0 → top = 0 → ¬ unused → 80 < idx → fails 6)

/-! ## Steps -/

/-- A step takes the first turn. At the engine's turn it runs the decoded command: `exec` of it, on the state whose turn
has been taken (R46), or holds the state where no command is pending (R245). At the host's turn it makes that read,
write or poll (R20, R98: a read of STATUS, repeated after an engine's turn while BUSY = 1). That turns are a list, that
the engine moves when no turn is left, and that a poll leaves the engine a turn, is the model's choice: log entry 3. -/
def Obligations.StepRunsTheDecodedCommand : Prop :=
  (∀ (s : State) (w : Word) (i : Instr), s.pending = some w → decode w = .ok i →
    (s.turns = [] → step s = exec i s) ∧
    (∀ ts, s.turns = .engine :: ts → step s = exec i { s with turns := ts })) ∧
  (∀ s : State, s.pending = none →
    (s.turns = [] → step s = .next s) ∧
    (∀ ts, s.turns = .engine :: ts → step s = .next { s with turns := ts })) ∧
  (∀ (s : State) (ts : List Turn),
    (∀ width a, s.turns = .read width a :: ts → step s = hostRead width a { s with turns := ts }) ∧
    (∀ width a v, s.turns = .write width a v :: ts → step s = hostWrite width a v { s with turns := ts }) ∧
    (s.turns = .poll :: ts → ∃ t, step s = .next t ∧ SameEngine s t ∧ t.reply = some ⟨statusWord s, false⟩ ∧
      (s.busy = true → t.turns = .engine :: .poll :: ts) ∧ (s.busy = false → t.turns = ts)))

/-- A pending command completes at the engine's step, or the step stops for a poison byte that it reads; nothing else
can happen. With no turn left the engine moves, log entry 3 (spec/10_state.md R46, spec/60_exceptions.md R230,
spec/70_reset_and_hazards.md R262, R270). -/
def Obligations.PendingCommandCompletesOrReadsPoison : Prop :=
  ∀ (s : State) (w : Word), s.turns = [] → s.pending = some w →
    (∃ t, step s = .next t ∧ t.busy = false ∧ t.done = true ∧ t.pending = none) ∨
    (∃ a, step s = .fault (.commandReadsPoison a) ∧ Memory.read s.mem a = none)

/-! ## The port -/

/-- R30 and R265: what a write to CMD does while idle and while busy, what a read of CMD returns, that a narrower write
is a bus error, and CMD's reset value. -/
def Obligations.CmdWriteIssuesOrIsDropped : Prop :=
  (∀ (s : State) (w : Word), s.busy = false →
    ∃ t, hostWrite .word 0x10 w s = .next t ∧ t.turns = s.turns ∧
      SameEngine { s with
        cmd := w, busy := true, done := false, errcode := 0, errKind := 0, errPos := 0, pending := some w } t) ∧
  (∀ (s : State) (w : Word), s.busy = true →
    ∃ t, hostWrite .word 0x10 w s = .next t ∧ DroppedOnly s t) ∧
  (∀ s : State, ∃ t, hostRead .word 0x10 s = .next t ∧ t.reply = some ⟨s.cmd, false⟩) ∧
  (∀ (s : State) (w : Word) (width : Width), width ≠ .word →
    ∃ t r, hostWrite width 0x10 w s = .next t ∧ SameEngine s t ∧ t.reply = some r ∧ r.err = true) ∧
  State.reset.cmd = 0

/-- Host writes that store nothing. In the busy window (R266) a write to an operand register or a memory is dropped and
sets WERR. At any time, in the window or not, a write to a read-only register (R25, R26, R27, R31, R40) or to a reserved
offset (R42) is ignored, does not set WERR, and is answered OK. -/
def Obligations.BusyWindowWritesAreDropped : Prop :=
  (∀ (s : State) (v : Word), s.busy = true → ∀ (width : Width) (a : Word), accessOk width a.toNat = true →
    (0x100 ≤ a.toNat ∨ (0x18 ≤ a.toNat ∧ a.toNat ≤ 0x3C) ∨ a.toNat = 0x48 ∨ a.toNat = 0x4C) →
    ∃ t, hostWrite width a v s = .next t ∧ DroppedOnly s t) ∧
  (∀ (s : State) (v a : Word),
    a.toNat ∈ [0x00, 0x04, 0x14, 0x40, 0x44] ∨ (0x50 ≤ a.toNat ∧ a.toNat ≤ 0xFC ∧ a.toNat % 4 = 0) →
    ∃ t r, hostWrite .word a v s = .next t ∧ SameEngine s t ∧ t.reply = some r ∧ r.err = false)

/-- The reads of R266 in the busy window: they never stop the model and have no effect on the engine; a register that no
command writes returns its value. That a poison byte is answered too is the model's choice: log entry 15. -/
def Obligations.BusyWindowReadsHaveNoEffect : Prop :=
  ∀ (s : State) (width : Width) (a : Word), s.busy = true → accessOk width a.toNat = true →
    (∃ t r, hostRead width a s = .next t ∧ SameEngine s t ∧ t.reply = some r ∧ r.err = false) ∧
    (a.toNat < 0x20 ∨ a.toNat = 0x24 ∨ a.toNat = 0x28 ∨ (0x30 ≤ a.toNat ∧ a.toNat ≤ 0x3C) →
      ∃ t, hostRead width a s = .next t ∧ t.reply = some ⟨csrRead s (csrAt a.toNat), false⟩)

/-- R29: the fields of STATUS in its word, and a write to STATUS, which clears DONE and WERR where it writes 1 and does
nothing else, at any time. R31: the word of ERRINFO, POS in bits [7:0], KIND in [15:8] and 0 above; both words are what
the host reads. -/
def Obligations.StatusFieldsAndWriteOneToClear : Prop :=
  ∀ s : State,
    ((statusWord s).toNat =
      s.busy.toNat + 2 * s.done.toNat + 4 * (decide (s.errcode ≠ 0)).toNat + 8 * s.werr.toNat + 256 * s.errcode.toNat) ∧
    (∃ t, hostRead .word 0x0C s = .next t ∧ SameEngine s t ∧ t.reply = some ⟨statusWord s, false⟩) ∧
    (∀ v : Word, ∃ t, hostWrite .word 0x0C v s = .next t ∧
      SameEngine { s with done := s.done && !v.getLsbD 1, werr := s.werr && !v.getLsbD 3 } t) ∧
    (errinfoWord s).toNat = s.errPos.toNat + 256 * s.errKind.toNat ∧
    (∃ t, hostRead .word 0x14 s = .next t ∧ SameEngine s t ∧ t.reply = some ⟨errinfoWord s, false⟩)

/-- R71 and R72: a misaligned access, a narrow access to the CSR window and an access to a reserved region are bus
errors: no effect on any state, read data 0; a reserved CSR offset is none: it reads 0 and ignores writes. -/
def Obligations.BusErrorsHaveNoEffect : Prop :=
  (∀ (s : State) (width : Width) (a v : Word),
    (a.toNat % widthBytes width ≠ 0 ∨ (a.toNat < 0x100 ∧ width ≠ .word) ∨
      (∃ i < widthBytes width, (0x200 ≤ a.toNat + i ∧ a.toNat + i < 0x800) ∨
        (0xF98 ≤ a.toNat + i ∧ a.toNat + i < 0x10000) ∨ 0x10000 + pixmemBytes ≤ a.toNat + i)) →
    (∃ t, hostRead width a s = .next t ∧ SameEngine s t ∧ t.reply = some ⟨0, true⟩) ∧
    (∃ t r, hostWrite width a v s = .next t ∧ SameEngine s t ∧ t.reply = some r ∧ r.err = true)) ∧
  (∀ (s : State) (a v : Word), 0x50 ≤ a.toNat → a.toNat ≤ 0xFC → a.toNat % 4 = 0 →
    (∃ t, hostRead .word a s = .next t ∧ SameEngine s t ∧ t.reply = some ⟨0, false⟩) ∧
    (∃ t r, hostWrite .word a v s = .next t ∧ SameEngine s t ∧ t.reply = some r ∧ r.err = false))

/-- The accesses that are served (R61, R70): aligned, in one region, of a width the region takes. -/
def Obligations.ServedAccessesAreThoseOfTheMap : Prop :=
  ∀ (width : Width) (a : Word), accessOk width a.toNat = true ↔
    a.toNat % widthBytes width = 0 ∧
      ((a.toNat < 0x100 ∧ width = .word) ∨ (0x100 ≤ a.toNat ∧ a.toNat + widthBytes width ≤ 0x200) ∨
        (0x800 ≤ a.toNat ∧ a.toNat + widthBytes width ≤ 0xF98) ∨
        (0x10000 ≤ a.toNat ∧ a.toNat + widthBytes width ≤ 0x10000 + pixmemBytes))

/-- R62: a 32-bit read at any served address is its four bytes, a 16-bit read its two and an 8-bit read its one, the
lowest address in the lowest bits. -/
def Obligations.WideReadsAreTheirBytesLittleEndian : Prop :=
  ∀ (s : State) (a : Word) (b0 b1 b2 b3 : Byte), s.busy = false → 0x100 ≤ a.toNat →
    (accessOk .word a.toNat = true → HoldsFrom s.mem a.toNat [b0, b1, b2, b3] →
      ∃ t, hostRead .word a s = .next t ∧ t.reply = some ⟨b3 ++ b2 ++ b1 ++ b0, false⟩) ∧
    (accessOk .half a.toNat = true → HoldsFrom s.mem a.toNat [b0, b1] →
      ∃ t, hostRead .half a s = .next t ∧ t.reply = some ⟨(b1 ++ b0).setWidth 32, false⟩) ∧
    (accessOk .byte a.toNat = true → HoldsFrom s.mem a.toNat [b0] →
      ∃ t, hostRead .byte a s = .next t ∧ t.reply = some ⟨b0.setWidth 32, false⟩)

/-- A write to a memory outside the busy window stores its bytes in little-endian order and nothing else, and a read of
the same width returns the value written (R62, R73, R79). -/
def Obligations.MemoryWriteIsReadBack : Prop :=
  ∀ (s : State) (width : Width) (a v : Word), s.busy = false → 0x100 ≤ a.toNat → accessOk width a.toNat = true →
    ∃ t, hostWrite width a v s = .next t ∧ SameEngine { s with mem := t.mem } t ∧
      HoldsFrom t.mem a.toNat (leBytes (widthBytes width) v.toNat) ∧
      SameOutside s.mem t.mem a.toNat (widthBytes width) ∧
      ∃ u, hostRead width a t = .next u ∧ u.reply = some ⟨BitVec.ofNat 32 (v.toNat % 256 ^ widthBytes width), false⟩

/-- R63: where the 24 bytes of a grid entry hold three patterns, the entry is those three values; and it is no other. -/
def Obligations.GridEntryIsItsTwentyFourBytes : Prop :=
  ∀ (s : State) (k : Nat) (v : Triple), k ≤ 80 →
    (readGrid s k = .ok v ↔
      HoldsFrom s.mem (0x800 + 24 * k) (leBytes 8 v.r.toNat ++ leBytes 8 v.g.toNat ++ leBytes 8 v.b.toNat))

/-- The registers as the host writes and reads them. R64: SRC0, SRC1, RESULT and MAXREG are two halves, and a write to
one half, outside the busy window, leaves the other unchanged. R32 to R37: outside the window a write to WIDTH, HEIGHT,
DIM, PUNCH, PIXLEN or HASHLEN stores its fields and changes nothing else. R28, R266: a write to CTRL stores IE at any
time, in the window too. Every register reads as its fields with the reserved bits 0 (R42); ID and PIXCAP as their
constants (R26, R27); DIM, HASHLEN, RESULT and MAXREG are read outside the window, the others at any time (R266). -/
def Obligations.RegistersStoreTheirFieldsAndReadBack : Prop :=
  (∀ s : State,
    (∀ v : Word, ∃ t, hostWrite .word 0x08 v s = .next t ∧ SameEngine { s with ie := v.getLsbD 0 } t) ∧
    (∃ t, hostRead .word 0x00 s = .next t ∧ t.reply = some ⟨0x42480107, false⟩) ∧
    (∃ t, hostRead .word 0x04 s = .next t ∧ t.reply = some ⟨BitVec.ofNat 32 pixmemBytes, false⟩) ∧
    (∃ t, hostRead .word 0x08 s = .next t ∧ t.reply = some ⟨BitVec.ofNat 32 s.ie.toNat, false⟩) ∧
    (∃ t, hostRead .word 0x18 s = .next t ∧ t.reply = some ⟨s.width, false⟩) ∧
    (∃ t, hostRead .word 0x1C s = .next t ∧ t.reply = some ⟨s.height, false⟩) ∧
    (∃ t, hostRead .word 0x24 s = .next t ∧ t.reply = some ⟨s.punch, false⟩) ∧
    (∃ t, hostRead .word 0x28 s = .next t ∧ t.reply = some ⟨s.pixlen, false⟩) ∧
    (∃ t, hostRead .word 0x30 s = .next t ∧ t.reply = some ⟨s.src0.extractLsb' 0 32, false⟩) ∧
    (∃ t, hostRead .word 0x34 s = .next t ∧ t.reply = some ⟨s.src0.extractLsb' 32 32, false⟩) ∧
    (∃ t, hostRead .word 0x38 s = .next t ∧ t.reply = some ⟨s.src1.extractLsb' 0 32, false⟩) ∧
    (∃ t, hostRead .word 0x3C s = .next t ∧ t.reply = some ⟨s.src1.extractLsb' 32 32, false⟩)) ∧
  (∀ (s : State) (v : Word), s.busy = false →
    (∃ t, hostWrite .word 0x18 v s = .next t ∧ SameEngine { s with width := v } t) ∧
    (∃ t, hostWrite .word 0x1C v s = .next t ∧ SameEngine { s with height := v } t) ∧
    (∃ t, hostWrite .word 0x20 v s = .next t ∧
      SameEngine { s with dimNx := BitVec.ofNat 4 v.toNat, dimNy := BitVec.ofNat 4 (v.toNat / 16) } t) ∧
    (∃ t, hostWrite .word 0x24 v s = .next t ∧ SameEngine { s with punch := v } t) ∧
    (∃ t, hostWrite .word 0x28 v s = .next t ∧ SameEngine { s with pixlen := v } t) ∧
    (∃ t, hostWrite .word 0x2C v s = .next t ∧ SameEngine { s with hashlen := BitVec.ofNat 16 v.toNat } t) ∧
    (∃ t, hostWrite .word 0x30 v s = .next t ∧ SameEngine { s with src0 := s.src0.extractLsb' 32 32 ++ v } t) ∧
    (∃ t, hostWrite .word 0x34 v s = .next t ∧ SameEngine { s with src0 := v ++ s.src0.extractLsb' 0 32 } t) ∧
    (∃ t, hostWrite .word 0x38 v s = .next t ∧ SameEngine { s with src1 := s.src1.extractLsb' 32 32 ++ v } t) ∧
    (∃ t, hostWrite .word 0x3C v s = .next t ∧ SameEngine { s with src1 := v ++ s.src1.extractLsb' 0 32 } t) ∧
    (∃ t, hostWrite .word 0x48 v s = .next t ∧ SameEngine { s with maxreg := s.maxreg.extractLsb' 32 32 ++ v } t) ∧
    (∃ t, hostWrite .word 0x4C v s = .next t ∧ SameEngine { s with maxreg := v ++ s.maxreg.extractLsb' 0 32 } t) ∧
    (∃ t, hostRead .word 0x20 s = .next t ∧
      t.reply = some ⟨BitVec.ofNat 32 (s.dimNx.toNat + 16 * s.dimNy.toNat), false⟩) ∧
    (∃ t, hostRead .word 0x2C s = .next t ∧ t.reply = some ⟨BitVec.ofNat 32 s.hashlen.toNat, false⟩) ∧
    (∃ t, hostRead .word 0x40 s = .next t ∧ t.reply = some ⟨s.result.extractLsb' 0 32, false⟩) ∧
    (∃ t, hostRead .word 0x44 s = .next t ∧ t.reply = some ⟨s.result.extractLsb' 32 32, false⟩) ∧
    (∃ t, hostRead .word 0x48 s = .next t ∧ t.reply = some ⟨s.maxreg.extractLsb' 0 32, false⟩) ∧
    (∃ t, hostRead .word 0x4C s = .next t ∧ t.reply = some ⟨s.maxreg.extractLsb' 32 32, false⟩))

/-- No read has a side effect on the engine or on the host's further moves (R73). -/
def Obligations.ReadsHaveNoSideEffect : Prop :=
  ∀ (s t : State) (width : Width) (a : Word), hostRead width a s = .next t → SameEngine s t ∧ t.turns = s.turns

/-- R262: a host read outside the busy window, of any width, that takes in a byte not written since reset stops the
model; the fault names the first such byte. -/
def Obligations.PoisonReadStopsTheModel : Prop :=
  ∀ (s : State) (width : Width) (a : Word) (i : Nat), s.busy = false → 0x100 ≤ a.toNat →
    accessOk width a.toNat = true → i < widthBytes width → Memory.read s.mem (a.toNat + i) = none →
    ∃ j ≤ i, hostRead width a s = .fault (.hostReadsPoison (a.toNat + j)) ∧
      Memory.read s.mem (a.toNat + j) = none ∧ DefinedFrom s a.toNat j

/-- R261 and R263: whatever the engine was doing, the reset input leaves every register of the CSR window at its reset
value, no command pending and no interrupt. That every byte of memory is poison after it is R262 as log entry 1 reads it;
that the host's further turns stay is the model's choice: log entry 13. -/
def Obligations.ResetLeavesTheResetValues : Prop :=
  ∀ (s : State) (ts : List Turn), s.turns = .reset :: ts →
    ∃ t, step s = .next t ∧ t.turns = ts ∧ t.pending = none ∧ irq t = false ∧
      csrRead t .id = 0x42480107 ∧ (csrRead t .pixcap).toNat = pixmemBytes ∧ csrRead t .ctrl = 0 ∧
      csrRead t .status = 0 ∧ csrRead t .cmd = 0 ∧ csrRead t .errinfo = 0 ∧ csrRead t .width = 0 ∧
      csrRead t .height = 0 ∧ csrRead t .dim = 0 ∧ csrRead t .punch = 1 ∧ csrRead t .pixlen = 0 ∧
      csrRead t .hashlen = 0 ∧ csrRead t .src0Lo = 0 ∧ csrRead t .src0Hi = 0 ∧ csrRead t .src1Lo = 0 ∧
      csrRead t .src1Hi = 0 ∧ csrRead t .resultLo = 0 ∧ csrRead t .resultHi = 0 ∧ csrRead t .maxregLo = 0 ∧
      csrRead t .maxregHi = 0x3FF00000 ∧ csrRead t .reserved = 0 ∧ ∀ x, Memory.read t.mem x = none

/-- R238: the interrupt is CTRL.IE and STATUS.DONE; every completed command raises it where IE is 1; a write of 1 to
DONE, of 0 to IE, an accepted command and reset clear it; setting IE while DONE = 1 raises it at once. -/
def Obligations.InterruptFollowsDoneUnderEnable : Prop :=
  (∀ s : State, irq s = (s.ie && s.done)) ∧
  (∀ (i : Instr) (s t : State), exec i s = .next t → irq t = s.ie) ∧
  (∀ (s t : State) (v : Word), hostWrite .word 0x0C v s = .next t → v.getLsbD 1 = true → irq t = false) ∧
  (∀ (s t : State) (v : Word), hostWrite .word 0x08 v s = .next t → irq t = (v.getLsbD 0 && s.done)) ∧
  (∀ (s t : State) (w : Word), s.busy = false → hostWrite .word 0x10 w s = .next t → irq t = false) ∧
  (∀ (s t : State) (ts : List Turn), s.turns = .reset :: ts → step s = .next t → irq t = false)

/-! ## Commands -/

/-- NOP completes and reads and writes nothing (spec/40_control.md R110); from STATUS with WERR = 0 it leaves STATUS =
0x0000_0002. -/
def Obligations.NopOnlyCompletes : Prop :=
  encode .nop = 0x00000000 ∧
  ∀ s : State, ∃ t, exec .nop s = .next t ∧ Ran s t ∧ SameOutputs s t ∧ t.mem = s.mem ∧
    (s.werr = false → statusWord t = 0x00000002)

/-- R124 with R122: B83ENC writes the LEN low base-83 digits of all 64 bits of SRC0, most significant first, and nothing
else; LEN outside 1..4 gives KIND 4 and a field past HASHMEM KIND 5. -/
def Obligations.B83encWritesTheLowDigits : Prop :=
  ∀ (s : State) (len : BitVec 3) (hoff : BitVec 8),
    (encode (.b83enc len hoff)).toNat = hoff.toNat * 2 ^ 16 + len.toNat * 2 ^ 8 + 0x10 ∧
    (1 ≤ len.toNat → len.toNat ≤ 4 → hoff.toNat + len.toNat ≤ 256 →
      ∃ t, exec (.b83enc len hoff) s = .next t ∧ Ran s t ∧ SameOutputs s t ∧
        SameOutside s.mem t.mem (0x100 + hoff.toNat) len.toNat ∧
        ∀ p < len.toNat, Memory.read t.mem (0x100 + hoff.toNat + p) =
          some (digitChar (s.src0.toNat / 83 ^ (len.toNat - 1 - p) % 83))) ∧
    (len.toNat < 1 ∨ 4 < len.toNat → ∃ t, exec (.b83enc len hoff) s = .next t ∧ FailedOnly s t 7 4 0) ∧
    (1 ≤ len.toNat → len.toNat ≤ 4 → 256 < hoff.toNat + len.toNat →
      ∃ t, exec (.b83enc len hoff) s = .next t ∧ FailedOnly s t 7 5 0)

/-- R125 with R123: B83DEC leaves in RESULT the Horner value of LEN alphabet characters and changes nothing else; the
first character outside the alphabet gives FORMAT_ERROR KIND 2 with its position; field errors as B83ENC. That the bytes
after that character are not read, so that they may be poison, is the model's inference: log entry 2. -/
def Obligations.B83decReadsTheHornerValue : Prop :=
  ∀ (s : State) (len : BitVec 3) (hoff : BitVec 8),
    (encode (.b83dec len hoff)).toNat = hoff.toNat * 2 ^ 16 + len.toNat * 2 ^ 8 + 0x11 ∧
    (1 ≤ len.toNat → len.toNat ≤ 4 → hoff.toNat + len.toNat ≤ 256 →
      (∀ p < len.toNat, (hashDigit? s (hoff.toNat + p)).isSome = true) →
      ∃ t, exec (.b83dec len hoff) s = .next t ∧ Ran s t ∧ t.result.toNat = hashField s hoff.toNat len.toNat ∧
        SameOutputs { s with result := t.result } t ∧ t.mem = s.mem) ∧
    (1 ≤ len.toNat → len.toNat ≤ 4 → hoff.toNat + len.toNat ≤ 256 →
      ∀ (p : Nat) (c : Byte), p < len.toNat → (∀ q < p, (hashDigit? s (hoff.toNat + q)).isSome = true) →
      Memory.read s.mem (0x100 + hoff.toNat + p) = some c → indexOf c = none →
      ∃ t, exec (.b83dec len hoff) s = .next t ∧ FailedOnly s t 4 2 (BitVec.ofNat 8 (hoff.toNat + p))) ∧
    (len.toNat < 1 ∨ 4 < len.toNat → ∃ t, exec (.b83dec len hoff) s = .next t ∧ FailedOnly s t 7 4 0) ∧
    (1 ≤ len.toNat → len.toNat ≤ 4 → 256 < hoff.toNat + len.toNat →
      ∃ t, exec (.b83dec len hoff) s = .next t ∧ FailedOnly s t 7 5 0)

/-- R126: B83ENC then B83DEC of the same field leaves RESULT = SRC0 and ERRCODE = 0 for every value below 83^LEN. -/
def Obligations.Base83RoundTrip : Prop :=
  ∀ (s : State) (len : BitVec 3) (hoff : BitVec 8), 1 ≤ len.toNat → len.toNat ≤ 4 → hoff.toNat + len.toNat ≤ 256 →
    s.src0.toNat < 83 ^ len.toNat →
    ∃ t u, exec (.b83enc len hoff) s = .next t ∧
      exec (.b83dec len hoff) (acceptCommand (encode (.b83dec len hoff)) t) = .next u ∧
      u.result = s.src0 ∧ u.errcode = 0

/-- S2L (R144, R141): bytes 0 to 10 of SRC0[7:0] take the linear branch, 11 to 255 the power branch; the result lies in
[0, 1], is 0.0 for 0 and 1.0 for 255; SRC0[63:8] is ignored, and nothing but RESULT is written. -/
def Obligations.S2lConvertsTheByte : Prop :=
  encode .s2l = 0x00000020 ∧
  ∀ s : State, ∃ t, exec .s2l s = .next t ∧ Ran s t ∧ SameOutputs { s with result := t.result } t ∧ t.mem = s.mem ∧
    (let b := s.src0.toNat % 256
     let v := fdiv [] (fofNat b) c255
     (b ≤ 10 → t.result = fdiv [] v c12_92) ∧
     (11 ≤ b → t.result = pow64 (fdiv [] (fadd [] v c0_055) c1_055) c2_4) ∧
     (b = 0 → t.result = 0) ∧ (b = 255 → t.result = 0x3FF0000000000000) ∧ inUnit t.result = true)

/-- L2S (R142, R145): NaN, negative values and zeros give 0, values from 1.0 up give 255, and between them the branch of
the value's side of the knee gives the byte; RESULT[63:8] is 0 and nothing but RESULT is written. -/
def Obligations.L2sConvertsTheValue : Prop :=
  encode .l2s = 0x00000021 ∧
  ∀ s : State, ∃ t, exec .l2s s = .next t ∧ Ran s t ∧ SameOutputs { s with result := t.result } t ∧ t.mem = s.mem ∧
    t.result.toNat ≤ 255 ∧
    (isNaN s.src0 = true ∨ fle s.src0 posZero = true → t.result = 0) ∧
    (fle c1 s.src0 = true → t.result = 255) ∧
    (inUnit s.src0 = true → fle s.src0 cL2sKnee = true →
      t.result.toNat = satFloor (fadd [] (fmul [] (fmul [] s.src0 c12_92) c255) cHalf) 0 255) ∧
    (inUnit s.src0 = true → fle s.src0 cL2sKnee = false →
      t.result.toNat = satFloor
        (fadd [] (fmul [] (fsub [] (fmul [] (pow64 s.src0 cInv2_4) c1_055) c0_055) c255) cHalf) 0 255)

/-- SPOW (R146, R143): the power of the magnitude with the sign of a negative operand put back; with exponent 2.0 the
square of a finite operand under its sign (property P4); nothing but RESULT is written. -/
def Obligations.SpowKeepsTheSign : Prop :=
  encode .spow = 0x00000022 ∧
  ∀ s : State, ∃ t, exec .spow s = .next t ∧ Ran s t ∧ SameOutputs { s with result := t.result } t ∧ t.mem = s.mem ∧
    (flt s.src0 posZero = true → t.result = fneg (pow64 (fneg s.src0) s.src1)) ∧
    (flt s.src0 posZero = false → t.result = pow64 (fabs s.src0) s.src1) ∧
    (s.src1 = c2 → isFinite s.src0 = true → flt s.src0 posZero = true →
      t.result = fneg (fmul [] (fneg s.src0) (fneg s.src0))) ∧
    (s.src1 = c2 → isFinite s.src0 = true → flt s.src0 posZero = false →
      t.result = fmul [] (fabs s.src0) (fabs s.src0))

/-- R147, item 1: S2L, then L2S of its result, comes back within 1 of the byte. -/
def Obligations.ColourRoundTripWithinOne : Prop :=
  ∀ s : State, ∃ t u, exec .s2l s = .next t ∧
    exec .l2s (acceptCommand (encode .l2s) { t with src0 := t.result }) = .next u ∧
    u.result.toNat ≤ s.src0.toNat % 256 + 1 ∧ s.src0.toNat % 256 ≤ u.result.toNat + 1

/-- actual_max of R161 is the greatest magnitude: no channel that is a number exceeds it, and it is +0.0 or a channel's
magnitude. -/
def Obligations.ActualMaxIsTheGreatestMagnitude : Prop :=
  ∀ acs : List Triple,
    (∀ t ∈ acs, ∀ c ∈ [t.r, t.g, t.b], isNaN c = false → fle (fabs c) (actualMax acs) = true) ∧
    (actualMax acs = posZero ∨ ∃ t ∈ acs, ∃ c ∈ [t.r, t.g, t.b], isNaN c = false ∧ actualMax acs = fabs c)

/-- QMAX (R166, R161): a grid that no hash can declare gives KIND 7; a 1×1 grid gives 0 and 1.0 and reads no entry; any
other, with its AC entries defined, the quantized maximum and its scale; nothing but RESULT and MAXREG is written. -/
def Obligations.QmaxQuantizesTheMaximum : Prop :=
  encode .qmax = 0x00000030 ∧
  (∀ s : State, gridDims s.dimNx.toNat s.dimNy.toNat = false →
    ∃ t, exec .qmax s = .next t ∧ FailedOnly s t 7 7 0) ∧
  (∀ s : State, s.dimNx = 1 → s.dimNy = 1 →
    ∃ t, exec .qmax s = .next t ∧ Ran s t ∧ t.result = 0 ∧ t.maxreg = 0x3FF0000000000000 ∧
      SameOutputs { s with result := t.result, maxreg := t.maxreg } t ∧ t.mem = s.mem) ∧
  (∀ s : State, gridDims s.dimNx.toNat s.dimNy.toNat = true → 1 < s.dimNx.toNat * s.dimNy.toNat →
    DefinedFrom s (0x800 + 24) (24 * (s.dimNx.toNat * s.dimNy.toNat - 1)) →
    ∃ t acs, exec .qmax s = .next t ∧ Ran s t ∧ acs.length = s.dimNx.toNat * s.dimNy.toNat - 1 ∧
      (∀ k, (h : k < acs.length) → readGrid s (k + 1) = .ok acs[k]) ∧
      t.result.toNat = satFloor (fsub [] (fmul [] (actualMax acs) c166) cHalf) 0 82 ∧
      t.maxreg = fdiv [] (fofNat (t.result.toNat + 1)) c166 ∧
      SameOutputs { s with result := t.result, maxreg := t.maxreg } t ∧ t.mem = s.mem)

/-- R167 with R162: QDC packs the sRGB bytes of GRID[0], R in bits [23:16], and writes nothing but RESULT; DIM is not
read. -/
def Obligations.QdcPacksTheDcBytes : Prop :=
  encode .qdc = 0x00000031 ∧
  ∀ s : State, DefinedFrom s 0x800 24 →
    ∃ t v, exec .qdc s = .next t ∧ Ran s t ∧ readGrid s 0 = .ok v ∧
      t.result.toNat = (l2s [] v.r).toNat * 2 ^ 16 + (l2s [] v.g).toNat * 2 ^ 8 + (l2s [] v.b).toNat ∧
      SameOutputs { s with result := t.result } t ∧ t.mem = s.mem

/-- R168 with R163: QAC packs the quantized channels of GRID[IDX] over MAXREG in base 19, at most 6858, and writes
nothing but RESULT; IDX above 80 gives KIND 6. A quotient of +inf gives 18, of −inf or NaN 0, as R163 says; that this
holds whatever the power returns there is the model's inference: log entry 19. -/
def Obligations.QacPacksTheQuantizedChannels : Prop :=
  ∀ (s : State) (idx : BitVec 7),
    (encode (.qac idx)).toNat = idx.toNat * 2 ^ 24 + 0x32 ∧
    (idx.toNat ≤ 80 → DefinedFrom s (0x800 + 24 * idx.toNat) 24 →
      ∃ t v, exec (.qac idx) s = .next t ∧ Ran s t ∧ readGrid s idx.toNat = .ok v ∧
        (let q (c : F64) := if isNaN (fdiv [] c s.maxreg) then 0
           else if isInf (fdiv [] c s.maxreg) then (if fsign (fdiv [] c s.maxreg) then 0 else 18)
           else satFloor (fadd [] (fmul [] (signPow (fdiv [] c s.maxreg) cHalf) c9) c9_5) 0 18
         t.result.toNat = q v.r * 361 + q v.g * 19 + q v.b) ∧
        t.result.toNat ≤ 6858 ∧ SameOutputs { s with result := t.result } t ∧ t.mem = s.mem) ∧
    (80 < idx.toNat → ∃ t, exec (.qac idx) s = .next t ∧ FailedOnly s t 7 6 0)

/-- R195 with R191: DQMAX leaves (SRC0 + 1) / 166 in MAXREG and writes nothing else; SRC0 above 82 gives KIND 8. -/
def Obligations.DqmaxScalesTheDigit : Prop :=
  encode .dqmax = 0x00000038 ∧
  (∀ s : State, s.src0.toNat ≤ 82 →
    ∃ t, exec .dqmax s = .next t ∧ Ran s t ∧ t.maxreg = fdiv [] (fofNat (s.src0.toNat + 1)) c166 ∧
      SameOutputs { s with maxreg := t.maxreg } t ∧ t.mem = s.mem) ∧
  (∀ s : State, 82 < s.src0.toNat → ∃ t, exec .dqmax s = .next t ∧ FailedOnly s t 7 8 0)

/-- R196 with R192: DQDC leaves the linear values of the bytes SRC0[23:16], [15:8] and [7:0] in GRID[0], ignores the
bits above, and writes nothing else. -/
def Obligations.DqdcUnpacksTheDcBytes : Prop :=
  encode .dqdc = 0x00000039 ∧
  ∀ s : State, ∃ t, exec .dqdc s = .next t ∧ Ran s t ∧ SameOutputs s t ∧ SameOutside s.mem t.mem 0x800 24 ∧
    readGrid t 0 = .ok ⟨s2l [] (BitVec.ofNat 8 (s.src0.toNat / 2 ^ 16)), s2l [] (BitVec.ofNat 8 (s.src0.toNat / 2 ^ 8)),
      s2l [] (BitVec.ofNat 8 s.src0.toNat)⟩

/-- R197 with R193: DQAC leaves the three dequantized channels in GRID[IDX] and writes nothing else; IDX above 80 gives
KIND 6, then SRC0 above 6888 KIND 8. A channel that is no number has a free NaN pattern, named by its site (log entry 5). -/
def Obligations.DqacUnpacksTheChannels : Prop :=
  ∀ (s : State) (idx : BitVec 7),
    (encode (.dqac idx)).toNat = idx.toNat * 2 ^ 24 + 0x3A ∧
    (idx.toNat ≤ 80 → s.src0.toNat ≤ 6888 →
      ∃ t, exec (.dqac idx) s = .next t ∧ Ran s t ∧ SameOutputs s t ∧
        SameOutside s.mem t.mem (0x800 + 24 * idx.toNat) 24 ∧
        (let punch := (s.punch ||| 1).toNat
         let ch (c q : Nat) := fmul [3, c, s.draws]
           (fmul [2, c, s.draws] (signPow (fdiv [] (fsub [] (fofNat q) c9) c9) c2) s.maxreg) (fofNat punch)
         readGrid t idx.toNat = .ok ⟨ch 0 (s.src0.toNat / 361), ch 1 (s.src0.toNat / 19 % 19), ch 2 (s.src0.toNat % 19)⟩)) ∧
    (80 < idx.toNat → ∃ t, exec (.dqac idx) s = .next t ∧ FailedOnly s t 7 6 0) ∧
    (idx.toNat ≤ 80 → 6888 < s.src0.toNat → ∃ t, exec (.dqac idx) s = .next t ∧ FailedOnly s t 7 8 0)

/-- R164: DCTF and ENCODE make the encoder's checks in this order before anything else; passing them bounds the image. -/
def Obligations.EncoderChecksFailInOrder : Prop :=
  ∀ (s : State) (i : Instr), i = .dctf ∨ i = .encode →
    let pixels := s.width.toNat * s.height.toNat
    let dims := 1 ≤ s.dimNx.toNat ∧ s.dimNx.toNat ≤ 9 ∧ 1 ≤ s.dimNy.toNat ∧ s.dimNy.toNat ≤ 9
    let fails (code : BitVec 4) := ∃ t, exec i s = .next t ∧ FailedOnly s t code 0 0
    (¬ dims → fails 1) ∧
    (dims → s.pixlen.toNat ≠ pixels * 4 → fails 2) ∧
    (dims → s.pixlen.toNat = pixels * 4 → pixmemBytes < s.pixlen.toNat → fails 5) ∧
    (dims → s.pixlen.toNat = pixels * 4 → s.pixlen.toNat ≤ pixmemBytes → pixels = 0 → fails 6) ∧
    (dims → s.pixlen.toNat = pixels * 4 → s.pixlen.toNat ≤ pixmemBytes → pixels ≠ 0 →
      1 ≤ pixels ∧ pixels * 4 ≤ pixmemBytes ∧ pixels < 2 ^ 30)

/-- DCTF (R165, R160): past the checks of R164, with the colour bytes defined, GRID[0 .. n−1] holds the forward transform
as R160's nested loops compute it, and nothing else is written. NaN patterns are the free ones of log entry 5. -/
def Obligations.DctfWritesTheForwardTransform : Prop :=
  encode .dctf = 0x00000040 ∧
  ∀ s : State, encDims s.dimNx.toNat s.dimNy.toNat = true → s.pixlen.toNat = s.width.toNat * s.height.toNat * 4 →
    s.pixlen.toNat ≤ pixmemBytes → s.width.toNat * s.height.toNat ≠ 0 →
    ColoursDefined s (s.width.toNat * s.height.toNat) →
    ∃ t, exec .dctf s = .next t ∧ Ran s t ∧ SameOutputs s t ∧
      HoldsFrom t.mem 0x800 ((dctfGrid (drawSite s) s).flatMap tripleBytes) ∧
      SameOutside s.mem t.mem 0x800 (24 * (s.dimNx.toNat * s.dimNy.toNat))

/-- R198 with R194: DCTI fails with KIND 7 for a grid no hash can declare, then with CAPACITY_ERROR for an image PIXMEM
cannot hold; with W·H = 0 it writes nothing; else, with the grid defined, PIX[0 .. W·H·4 − 1] holds the inverse
transform as R194's nested loops compute it, and nothing else is written. The sites name free NaN patterns (log entry 5). -/
def Obligations.DctiWritesTheInverseTransform : Prop :=
  encode .dcti = 0x00000041 ∧
  ∀ s : State,
    let pixels := s.width.toNat * s.height.toNat
    let n := s.dimNx.toNat * s.dimNy.toNat
    (gridDims s.dimNx.toNat s.dimNy.toNat = false → ∃ t, exec .dcti s = .next t ∧ FailedOnly s t 7 7 0) ∧
    (gridDims s.dimNx.toNat s.dimNy.toNat = true → pixmemBytes < pixels * 4 →
      ∃ t, exec .dcti s = .next t ∧ FailedOnly s t 5 0 0) ∧
    (gridDims s.dimNx.toNat s.dimNy.toNat = true → pixels = 0 →
      ∃ t, exec .dcti s = .next t ∧ Ran s t ∧ SameOutputs s t ∧ t.mem = s.mem) ∧
    (gridDims s.dimNx.toNat s.dimNy.toNat = true → pixels * 4 ≤ pixmemBytes → pixels ≠ 0 → DefinedFrom s 0x800 (24 * n) →
      ∃ t grid, exec .dcti s = .next t ∧ Ran s t ∧ SameOutputs s t ∧ grid.length = n ∧
        (∀ k, (h : k < grid.length) → readGrid s k = .ok grid[k]) ∧
        HoldsFrom t.mem 0x10000
          (dctiImage (drawSite s) s.width.toNat s.height.toNat s.dimNx.toNat s.dimNy.toNat grid) ∧
        SameOutside s.mem t.mem 0x10000 (pixels * 4))

/-- R221 with R220: VALIDATE writes nothing but its outcome: LENGTH_ERROR below 6 whatever the bytes, then the alphabet
error of HASH[0], then the length mismatch, else success. -/
def Obligations.ValidateChecksInOrder : Prop :=
  encode .validate = 0x00000050 ∧
  ∀ s : State,
    (s.hashlen.toNat < 6 → ∃ t, exec .validate s = .next t ∧ FailedOnly s t 3 0 0) ∧
    (∀ c : Byte, 6 ≤ s.hashlen.toNat → Memory.read s.mem 0x100 = some c → indexOf c = none →
      ∃ t, exec .validate s = .next t ∧ FailedOnly s t 4 2 0) ∧
    (∀ (c : Byte) (d : Nat), 6 ≤ s.hashlen.toNat → Memory.read s.mem 0x100 = some c → indexOf c = some d →
      s.hashlen.toNat ≠ 4 + 2 * ((d % 9 + 1) * (d / 9 + 1)) →
      ∃ t, exec .validate s = .next t ∧ FailedOnly s t 4 1 0) ∧
    (∀ (c : Byte) (d : Nat), 6 ≤ s.hashlen.toNat → Memory.read s.mem 0x100 = some c → indexOf c = some d →
      s.hashlen.toNat = 4 + 2 * ((d % 9 + 1) * (d / 9 + 1)) →
      ∃ t, exec .validate s = .next t ∧ Ran s t ∧ SameOutputs s t ∧ t.mem = s.mem)

/-- R222, items 1 and 2: VALIDATE completes with ERRCODE = 0 exactly on a length of at least 6 that matches the grid the
alphabet character HASH[0] declares, and that length is even and at most 166. -/
def Obligations.ValidateSucceedsIffTheLengthMatches : Prop :=
  ∀ s t : State, exec .validate s = .next t →
    (t.errcode = 0 ↔ HashValid s) ∧ (t.errcode = 0 → s.hashlen.toNat ≤ 166 ∧ s.hashlen.toNat % 2 = 0)

/-- ENCODE (R169): past the checks of R164, with the colour bytes defined, HASH holds size flag, quantized maximum, DC
term and AC terms of the forward transform, HASHLEN their length, GRID the transform and MAXREG the scale; DIM,
RESULT, PIXMEM, the rest of HASHMEM and the grid entries from n on are unchanged. The sites name free NaN patterns
(log entry 5). -/
def Obligations.EncodeWritesTheHash : Prop :=
  encode .encode = 0x00000051 ∧
  ∀ s : State, encDims s.dimNx.toNat s.dimNy.toNat = true → s.pixlen.toNat = s.width.toNat * s.height.toNat * 4 →
    s.pixlen.toNat ≤ pixmemBytes → s.width.toNat * s.height.toNat ≠ 0 →
    ColoursDefined s (s.width.toNat * s.height.toNat) →
    ∃ t dc acs, exec .encode s = .next t ∧ Ran s t ∧ dctfGrid (0 :: drawSite s) s = dc :: acs ∧
      (let n := s.dimNx.toNat * s.dimNy.toNat
       let qm := satFloor (fsub [] (fmul [] (actualMax acs) c166) cHalf) 0 82
       let top := if n = 1 then 0 else qm
       let m := if n = 1 then c1 else fdiv [] (fofNat (qm + 1)) c166
       t.hashlen.toNat = 4 + 2 * n ∧ t.maxreg = m ∧
         HoldsFrom t.mem 0x100 (b83Encode ((s.dimNx.toNat - 1) + (s.dimNy.toNat - 1) * 9) 1 ++ b83Encode top 1 ++
           b83Encode (qdc [] dc).toNat 4 ++ acs.flatMap fun v => b83Encode (qac [] v m) 2) ∧
         HoldsFrom t.mem 0x800 ((dc :: acs).flatMap tripleBytes) ∧
         ∀ x, ¬ (0x100 ≤ x ∧ x < 0x100 + (4 + 2 * n)) → ¬ (0x800 ≤ x ∧ x < 0x800 + 24 * n) →
           Memory.read t.mem x = Memory.read s.mem x) ∧
      t.dimNx = s.dimNx ∧ t.dimNy = s.dimNy ∧ t.result = s.result

/-- The errors of DECODE in the order of R199: length, size flag, length match, first bad character, capacity; each
changes nothing but its record. That the pre-scan does not read the bytes after the first bad character, so that they may
be poison, is the model's inference from R12: log entry 2. -/
def Obligations.DecodeFailsInOrder : Prop :=
  ∀ s : State,
    (s.hashlen.toNat < 6 → ∃ t, exec .decode s = .next t ∧ FailedOnly s t 3 0 0) ∧
    (∀ c : Byte, 6 ≤ s.hashlen.toNat → Memory.read s.mem 0x100 = some c → indexOf c = none →
      ∃ t, exec .decode s = .next t ∧ FailedOnly s t 4 2 0) ∧
    (6 ≤ s.hashlen.toNat → (hashDigit? s 0).isSome = true → s.hashlen.toNat ≠ 4 + 2 * (hashNx s * hashNy s) →
      ∃ t, exec .decode s = .next t ∧ FailedOnly s t 4 1 0) ∧
    (HashValid s → ∀ (p : Nat) (c : Byte), 1 ≤ p → p < s.hashlen.toNat →
      (∀ q < p, (hashDigit? s q).isSome = true) → Memory.read s.mem (0x100 + p) = some c → indexOf c = none →
      ∃ t, exec .decode s = .next t ∧ FailedOnly s t 4 2 (BitVec.ofNat 8 p)) ∧
    (HashDecodable s → pixmemBytes < s.width.toNat * s.height.toNat * 4 →
      ∃ t, exec .decode s = .next t ∧ FailedOnly s t 5 0 0)

/-- DECODE (R199): of a hash that passes the checks, with an image that fits, DIM, MAXREG, GRID[0 .. n−1] and
PIX[0 .. W·H·4 − 1] are what the hash declares, and nothing else is written. The sites name free NaN patterns
(log entry 5). -/
def Obligations.DecodeWritesTheImage : Prop :=
  encode .decode = 0x00000052 ∧
  ∀ s : State, HashDecodable s → s.width.toNat * s.height.toNat * 4 ≤ pixmemBytes →
    ∃ t, exec .decode s = .next t ∧ Ran s t ∧ t.dimNx.toNat = hashNx s ∧ t.dimNy.toNat = hashNy s ∧
      t.maxreg = hashScale s ∧ t.result = s.result ∧ t.hashlen = s.hashlen ∧
      HoldsFrom t.mem 0x800 ((hashGrid s).flatMap tripleBytes) ∧
      HoldsFrom t.mem 0x10000
        (dctiImage (3 :: drawSite s) s.width.toNat s.height.toNat (hashNx s) (hashNy s) (hashGrid s)) ∧
      ∀ x, ¬ (0x800 ≤ x ∧ x < 0x800 + 24 * (hashNx s * hashNy s)) →
        ¬ (0x10000 ≤ x ∧ x < 0x10000 + s.width.toNat * s.height.toNat * 4) →
        Memory.read t.mem x = Memory.read s.mem x

/-! ## Laws of the commands -/

/-- R170, items 1 and 2, and R222, item 3: after a successful ENCODE the length is 4 + 2·NX·NY, in 6..166, and VALIDATE of
the result succeeds. -/
def Obligations.EncodedHashValidates : Prop :=
  ∀ s t : State, exec .encode s = .next t → t.errcode = 0 →
    t.hashlen.toNat = 4 + 2 * (s.dimNx.toNat * s.dimNy.toNat) ∧ 6 ≤ t.hashlen.toNat ∧ t.hashlen.toNat ≤ 166 ∧
    ∃ u, exec .validate (acceptCommand (encode .validate) t) = .next u ∧ Succeeded u

/-- A hash that ENCODE wrote is one DECODE accepts, and it declares the grid that was encoded (R170, R199, R222). -/
def Obligations.EncodedHashDecodes : Prop :=
  ∀ s t : State, exec .encode s = .next t → t.errcode = 0 →
    ∃ u, exec .decode (acceptCommand (encode .decode) t) = .next u ∧ Succeeded u ∧
      u.dimNx = s.dimNx ∧ u.dimNy = s.dimNy

/-- R200, item 1: after a successful DECODE or DCTI exactly PIX[0 .. W·H·4 − 1] has been written, and every fourth byte
is 255. -/
def Obligations.RenderedPixelsAreOpaque : Prop :=
  ∀ (i : Instr) (s t : State), i = .decode ∨ i = .dcti → exec i s = .next t → t.errcode = 0 →
    DefinedFrom t 0x10000 (s.width.toNat * s.height.toNat * 4) ∧
    (∀ q < s.width.toNat * s.height.toNat, Memory.read t.mem (0x10000 + 4 * q + 3) = some 255) ∧
    (∀ x, 0x10000 + s.width.toNat * s.height.toNat * 4 ≤ x → Memory.read t.mem x = Memory.read s.mem x)

/-- DCTI after a successful DECODE writes the same bytes again (R199, spec/95_test_vectors.md P2): DECODE leaves DIM,
MAXREG and the grid that its pixels were computed from. -/
def Obligations.DctiRendersTheDecodedGridAgain : Prop :=
  ∀ s t : State, exec .decode s = .next t → t.errcode = 0 →
    ∃ u, exec .dcti (acceptCommand (encode .dcti) t) = .next u ∧ Succeeded u ∧ SameMemory t.mem u.mem

/-- R200, item 4: PUNCH values 2p and 2p + 1 give DECODE identical results, and PUNCH reaches only GRID[1 .. n−1] and
PIX[0 .. W·H·4 − 1]: the outcome, DIM, MAXREG, every other register and every other byte are the same whatever it is.
The two states share the model's draw number, which names free NaN patterns (log entry 5). -/
def Obligations.PunchReachesOnlyTheAcTerms : Prop :=
  (∀ s t : State, exec .decode s = .next t →
    exec .decode { s with punch := s.punch ^^^ 1 } = .next { t with punch := s.punch ^^^ 1 }) ∧
  (∀ (s t : State) (p : Word), exec .decode s = .next t →
    ∃ u, exec .decode { s with punch := p } = .next u ∧ u = { t with punch := p, mem := u.mem } ∧
      ∀ x, ¬ (0x800 + 24 ≤ x ∧ x < 0x800 + 24 * (hashNx s * hashNy s)) →
        ¬ (0x10000 ≤ x ∧ x < 0x10000 + s.width.toNat * s.height.toNat * 4) →
        Memory.read u.mem x = Memory.read t.mem x)

/-- ENCODE is a function of its image and grid (R170, item 5): two states that agree on W, H, DIM, PIXLEN and the colour
bytes (and on the model's draw number, which names free NaN patterns: log entry 5) give the same hash, scale and grid. -/
def Obligations.EncodeDependsOnlyOnTheImage : Prop :=
  ∀ s s' t : State, s'.width = s.width → s'.height = s.height → s'.dimNx = s.dimNx → s'.dimNy = s.dimNy →
    s'.pixlen = s.pixlen → s'.draws = s.draws →
    (∀ a < s.width.toNat * s.height.toNat * 4, a % 4 ≠ 3 →
      Memory.read s'.mem (0x10000 + a) = Memory.read s.mem (0x10000 + a)) →
    exec .encode s = .next t → t.errcode = 0 →
    ∃ t', exec .encode s' = .next t' ∧ t'.errcode = 0 ∧ t'.hashlen = t.hashlen ∧ t'.maxreg = t.maxreg ∧
      (∀ p < t.hashlen.toNat, Memory.read t'.mem (0x100 + p) = Memory.read t.mem (0x100 + p)) ∧
      (∀ x < 24 * (s.dimNx.toNat * s.dimNy.toNat), Memory.read t'.mem (0x800 + x) = Memory.read t.mem (0x800 + x))

/-- The DC basis is exactly 1.0, so entry 0 of the forward transform is the plain sum of the linear values, in the order
of the pixels, times 1/(W·H) (R160, R170, item 3, by property P1). -/
def Obligations.DcTermIsTheMean : Prop :=
  ∀ (d : Site) (w h nx : Nat) (ps : List Rgb), 0 < w → 0 < h → w < 2 ^ 32 → h < 2 ^ 32 → ps.length = w * h →
    let mean (f : Rgb → Byte) :=
      fmul [] (ps.foldl (fun acc p => fadd [] acc (s2l [] (f p))) posZero) (fdiv [] c1 (fofNat (w * h)))
    dctfEntry d w h nx ps 0 = ⟨mean Rgb.r, mean Rgb.g, mean Rgb.b⟩

/-- A one-term grid renders every pixel as its DC colour (R200, item 5, by property P1). -/
def Obligations.OneTermGridRendersOneColour : Prop :=
  ∀ (d : Site) (w h : Nat) (t : Triple) (q : Nat), w < 2 ^ 32 → h < 2 ^ 32 → q < w * h →
    dctiPixel d w h 1 [t] q = [l2s [] t.r, l2s [] t.g, l2s [] t.b, 255]

/-! ## Laws of every command -/

/-- R235: whatever the command, an error changes nothing but STATUS and ERRINFO, and ends the command. -/
def Obligations.ErrorsArePrecise : Prop :=
  ∀ (i : Instr) (s t : State), exec i s = .next t → t.errcode ≠ 0 →
    FailedOnly s t t.errcode t.errKind t.errPos

/-- Each decoded command ends with success or with an error of its row of the command × error matrix (R231 to R233). -/
def Obligations.OutcomesAreThoseOfTheMatrix : Prop :=
  ∀ (i : Instr) (s t : State), exec i s = .next t →
    (t.errcode = 0 ∧ t.errKind = 0 ∧ t.errPos = 0) ∨ mayRaise i t.errcode t.errKind = true

/-- No command writes CTRL, WERR, CMD or an operand register of the host, and each output register and memory is written
only by the commands that R22, R43 to R45 and R92 name. -/
def Obligations.CommandsWriteOnlyTheirOutputs : Prop :=
  ∀ (i : Instr) (s t : State), exec i s = .next t →
    SameInputs s t ∧
    (writesResult i = false → t.result = s.result) ∧
    (writesMaxreg i = false → t.maxreg = s.maxreg) ∧
    (i ≠ .encode → t.hashlen = s.hashlen) ∧
    (i ≠ .decode → t.dimNx = s.dimNx ∧ t.dimNy = s.dimNy) ∧
    (writesHash i = false → ∀ x, 0x100 ≤ x → x < 0x200 → Memory.read t.mem x = Memory.read s.mem x) ∧
    (writesGrid i = false → ∀ x, 0x800 ≤ x → x < 0xF98 → Memory.read t.mem x = Memory.read s.mem x) ∧
    (writesPix i = false → ∀ x, 0x10000 ≤ x → Memory.read t.mem x = Memory.read s.mem x)

/-- The invariant of the machine: memory in canonical form and within the address map, BUSY exactly while a command is
pending with CMD its word and DONE and the record clear, and a record that R232 lists. Every step of either agent keeps
it, from every state that has it. -/
def Obligations.EveryStepKeepsTheInvariant : Prop :=
  ∀ s t : State, Inv s → step s = .next t → Inv t

/-- The invariant holds at reset. -/
def Obligations.ResetMeetsTheInvariant : Prop := Inv State.reset

/-! ## Arithmetic -/

/-- The arithmetic of spec/00_scope.md R9, IEEE 754 binary64 as log entry 14 presumes it. A pattern's exponent and
fraction fields give its value. Rounding is to nearest, ties to even: the pattern chosen for num / den units of 2^-1074
is finite exactly below the overflow threshold, no finite pattern lies nearer, and between two as near it is the even
one. The sum, difference, product and quotient of finite operands are the exact ones rounded once, under their sign; a
NaN arises of a NaN, inf − inf, 0 × inf, 0 / 0 and inf / inf only; and the other results of infinities and of a division
by zero are as IEEE 754 has them. -/
def Obligations.ArithmeticIsCorrectlyRounded : Prop :=
  (∀ x : F64,
    (isFinite x = decide (fexp x ≠ 2047)) ∧ (isInf x = (decide (fexp x = 2047) && decide (ffrac x = 0))) ∧
    (isNaN x = (decide (fexp x = 2047) && decide (ffrac x ≠ 0))) ∧
    (fexp x = 0 → fmag x = ffrac x) ∧
    (fexp x ≠ 0 → isFinite x = true → fmag x = (2 ^ 52 + ffrac x) * 2 ^ (fexp x - 1)) ∧
    fval x = (if fsign x then -1 else 1) * (fmag x : Int)) ∧
  (∀ num den : Nat, 0 < den →
    let p := roundMag num den
    let dist (q : Nat) := ((magOfBits q * den : Nat) - (num : Int)).natAbs
    (p < infBits ↔ num < den * ((2 ^ 54 - 1) * 2 ^ 2044)) ∧
    (p < infBits → ∀ q < infBits, dist p ≤ dist q ∧ (dist q = dist p → q ≠ p → p % 2 = 0))) ∧
  (∀ (d : Site) (x y : F64), isFinite x = true → isFinite y = true →
    fbits (fadd d x y) = roundMag (fval x + fval y).natAbs 1 ∧
    (fval x + fval y ≠ 0 → fsign (fadd d x y) = decide (fval x + fval y < 0)) ∧
    (fval x + fval y = 0 → fsign (fadd d x y) = (fsign x && fsign y)) ∧
    fbits (fsub d x y) = roundMag (fval x - fval y).natAbs 1 ∧
    (fval x - fval y ≠ 0 → fsign (fsub d x y) = decide (fval x - fval y < 0)) ∧
    (fval x - fval y = 0 → fsign (fsub d x y) = (fsign x && !fsign y)) ∧
    fbits (fmul d x y) = roundMag (fmag x * fmag y) (2 ^ 1074) ∧ fsign (fmul d x y) = (fsign x != fsign y) ∧
    (fmag y ≠ 0 → fbits (fdiv d x y) = roundMag (fmag x * 2 ^ 1074) (fmag y) ∧
      fsign (fdiv d x y) = (fsign x != fsign y)) ∧
    (fmag y = 0 → fmag x ≠ 0 → fbits (fdiv d x y) = infBits ∧ fsign (fdiv d x y) = (fsign x != fsign y))) ∧
  (∀ (d : Site) (x y : F64),
    isNaN (fadd d x y) = (isNaN x || isNaN y || (isInf x && isInf y && fsign x != fsign y)) ∧
    isNaN (fsub d x y) = (isNaN x || isNaN y || (isInf x && isInf y && fsign x == fsign y)) ∧
    isNaN (fmul d x y) = (isNaN x || isNaN y || (isInf x && isZero y) || (isZero x && isInf y)) ∧
    isNaN (fdiv d x y) = (isNaN x || isNaN y || (isInf x && isInf y) || (isZero x && isZero y)) ∧
    (isInf x = true → isNaN (fadd d x y) = false → fadd d x y = x) ∧
    (isInf y = true → isNaN (fadd d x y) = false → fadd d x y = y) ∧
    (isInf x = true → isNaN (fsub d x y) = false → fsub d x y = x) ∧
    (isInf y = true → isNaN (fsub d x y) = false → fsub d x y = fneg y) ∧
    (isInf x = true ∨ isInf y = true → isNaN (fmul d x y) = false →
      isInf (fmul d x y) = true ∧ fsign (fmul d x y) = (fsign x != fsign y)) ∧
    (isInf x = true → isNaN (fdiv d x y) = false →
      isInf (fdiv d x y) = true ∧ fsign (fdiv d x y) = (fsign x != fsign y)) ∧
    (isInf y = true → isNaN (fdiv d x y) = false →
      isZero (fdiv d x y) = true ∧ fsign (fdiv d x y) = (fsign x != fsign y)))

/-- The primitives of spec/00_scope.md R10: every integer below 2^53 converts exactly; abs clears the sign bit and neg
flips it; the comparisons are those of the values, false on a NaN, with −0 = +0 and the infinities at the ends; and
sat_floor is the floor brought into lo .. hi, lo for a NaN and −inf, hi for +inf. -/
def Obligations.ConversionsAndComparisonsAreExact : Prop :=
  (∀ n : Nat, n < 2 ^ 53 → isFinite (fofNat n) = true ∧ fval (fofNat n) = (n : Int) * 2 ^ 1074) ∧
  (∀ x : F64, fbits (fabs x) = fbits x ∧ fsign (fabs x) = false ∧ fbits (fneg x) = fbits x ∧
    fsign (fneg x) = !fsign x) ∧
  (∀ x y : F64,
    (isFinite x = true → isFinite y = true → flt x y = decide (fval x < fval y)) ∧
    (isNaN x = true ∨ isNaN y = true → flt x y = false ∧ fle x y = false) ∧
    (isNaN x = false → isNaN y = false → fle x y = !flt y x) ∧
    (isInf x = true → isNaN y = false → flt x y = (fsign x && !(isInf y && fsign y)) ∧
      flt y x = (!fsign x && !(isInf y && !fsign y)))) ∧
  (∀ (t : F64) (lo hi : Nat), lo ≤ hi →
    (isNaN t = true → satFloor t lo hi = lo) ∧
    (isInf t = true → satFloor t lo hi = if fsign t then lo else hi) ∧
    (isFinite t = true → lo ≤ satFloor t lo hi ∧ satFloor t lo hi ≤ hi ∧
      (satFloor t lo hi < hi → fval t < ((satFloor t lo hi : Int) + 1) * 2 ^ 1074) ∧
      (lo < satFloor t lo hi → (satFloor t lo hi : Int) * 2 ^ 1074 ≤ fval t)))

/-- cos64 and pow64 have the properties P1 to P5 (R11, spec/93_implementation_defined.md part 1), however the model's
open functions are chosen: it imposes them as log entries 6 and 7 say. And it imposes nothing else: every function
that has the properties, on every pattern, NaN operands included (U4), is left as it is. -/
def Obligations.ConfigurationFunctionsConform : Prop :=
  cos64 posZero = c1 ∧
  (∀ y : F64, isNaN y = false → pow64 c1 y = c1) ∧
  (∀ y : F64, flt posZero y = true → pow64 posZero y = posZero) ∧
  (∀ x : F64, isFinite x = true → pow64 x c2 = fmul [] x x) ∧
  (∀ x y : F64, inUnit x = true → flt posZero y = true → inUnit (pow64 x y) = true) ∧
  (∀ b : Byte, (l2s [] (s2l [] b)).toNat ≤ b.toNat + 1 ∧ b.toNat ≤ (l2s [] (s2l [] b)).toNat + 1) ∧
  (∀ x, cos64 x = cosOf Config.cosRaw x) ∧ (∀ x y, pow64 x y = powOf Config.powRaw x y) ∧
  (∀ f : F64 → F64, f posZero = c1 → cosOf f = f) ∧
  (∀ f : F64 → F64 → F64, (∀ y, isNaN y = false → f c1 y = c1) → (∀ y, flt posZero y = true → f posZero y = posZero) →
    (∀ x, isFinite x = true → f x c2 = fmul [] x x) →
    (∀ x y, inUnit x = true → flt posZero y = true → inUnit (f x y) = true) →
    (∀ b : Byte, (l2sWith f [] (s2lWith f [] b)).toNat ≤ b.toNat + 1 ∧
      b.toNat ≤ (l2sWith f [] (s2lWith f [] b)).toNat + 1) →
    powOf f = f)

/-- The functions that make bytes, digits and the scale, l2s, qdc, qmax, qch and qac, give the same at every site, and the
same for every two patterns of one value, of the channels and of the scale m alike: this is why no byte depends on which
NaN pattern the arithmetic produced (spec/93_implementation_defined.md U7; log entries 5 and 19). -/
def Obligations.BytesIgnoreNanPatterns : Prop :=
  (∀ (d e : Site) (x y : F64), SameValue x y → l2s d x = l2s e y) ∧
  (∀ (d e : Site) (t u : Triple), SameTriple t u → qdc d t = qdc e u) ∧
  (∀ (d e : Site) (ts us : List Triple), List.Forall₂ SameTriple ts us → qmax d ts = qmax e us) ∧
  (∀ (d e : Site) (c c' m m' : F64), SameValue c c' → SameValue m m' → qch d c m = qch e c' m') ∧
  (∀ (d e : Site) (t u : Triple) (m m' : F64), SameTriple t u → SameValue m m' → qac d t m = qac e u m')
end

