-- ==== Sys2Proof/Laws/Encoding.lean ====
section
/-! SUPPORT. The fields of a packed command word (spec/30_encoding.md R90). -/

namespace Sys2Proof

/-- A packed word as a number. -/
theorem packFields_toNat (op : BitVec 8) (len : BitVec 3) (hoff : BitVec 8) (idx : BitVec 7) :
    (packFields op len hoff idx).toNat =
      idx.toNat * 2 ^ 24 + hoff.toNat * 2 ^ 16 + len.toNat * 2 ^ 8 + op.toNat := by
  have h1 := op.isLt
  have h2 := len.isLt
  have h3 := hoff.isLt
  have h4 := idx.isLt
  simp only [packFields, BitVec.toNat_append]
  rw [← Nat.shiftLeft_add_eq_or_of_lt, ← Nat.shiftLeft_add_eq_or_of_lt, ← Nat.shiftLeft_add_eq_or_of_lt,
    ← Nat.shiftLeft_add_eq_or_of_lt, ← Nat.shiftLeft_add_eq_or_of_lt]
  all_goals simp [Nat.shiftLeft_eq]
  all_goals omega

/-- A field of a word as a number. -/
theorem extract_toNat (w : Word) (start len : Nat) :
    (w.extractLsb' start len).toNat = w.toNat / 2 ^ start % 2 ^ len := by
  simp [BitVec.extractLsb'_toNat, Nat.shiftRight_eq_div_pow]

/-- OP of a packed word. -/
@[simp] theorem opField_packFields (op : BitVec 8) (len : BitVec 3) (hoff : BitVec 8) (idx : BitVec 7) :
    opField (packFields op len hoff idx) = op := by
  apply BitVec.eq_of_toNat_eq
  have h1 := op.isLt
  rw [opField, extract_toNat, packFields_toNat]
  omega

/-- LEN of a packed word. -/
@[simp] theorem lenField_packFields (op : BitVec 8) (len : BitVec 3) (hoff : BitVec 8) (idx : BitVec 7) :
    lenField (packFields op len hoff idx) = len := by
  apply BitVec.eq_of_toNat_eq
  have h1 := op.isLt
  have h2 := len.isLt
  rw [lenField, extract_toNat, packFields_toNat]
  omega

/-- HOFF of a packed word. -/
@[simp] theorem hoffField_packFields (op : BitVec 8) (len : BitVec 3) (hoff : BitVec 8) (idx : BitVec 7) :
    hoffField (packFields op len hoff idx) = hoff := by
  apply BitVec.eq_of_toNat_eq
  have h1 := op.isLt
  have h2 := len.isLt
  have h3 := hoff.isLt
  rw [hoffField, extract_toNat, packFields_toNat]
  omega

/-- IDX of a packed word. -/
@[simp] theorem idxField_packFields (op : BitVec 8) (len : BitVec 3) (hoff : BitVec 8) (idx : BitVec 7) :
    idxField (packFields op len hoff idx) = idx := by
  apply BitVec.eq_of_toNat_eq
  have h1 := op.isLt
  have h2 := len.isLt
  have h3 := hoff.isLt
  have h4 := idx.isLt
  rw [idxField, extract_toNat, packFields_toNat]
  omega

/-- The low reserved field of a packed word is 0. -/
@[simp] theorem reservedField_packFields (op : BitVec 8) (len : BitVec 3) (hoff : BitVec 8) (idx : BitVec 7) :
    reservedField (packFields op len hoff idx) = 0 := by
  apply BitVec.eq_of_toNat_eq
  have h1 := op.isLt
  have h2 := len.isLt
  have h3 := hoff.isLt
  have h4 := idx.isLt
  rw [reservedField, extract_toNat, packFields_toNat]
  simp only [BitVec.ofNat_eq_ofNat, BitVec.toNat_ofNat]
  omega

/-- Bit 31 of a packed word is 0. -/
@[simp] theorem topField_packFields (op : BitVec 8) (len : BitVec 3) (hoff : BitVec 8) (idx : BitVec 7) :
    topField (packFields op len hoff idx) = 0 := by
  apply BitVec.eq_of_toNat_eq
  have h1 := op.isLt
  have h2 := len.isLt
  have h3 := hoff.isLt
  have h4 := idx.isLt
  rw [topField, extract_toNat, packFields_toNat]
  simp only [BitVec.ofNat_eq_ofNat, BitVec.toNat_ofNat]
  omega

end Sys2Proof
end

