-- ==== Sys2Proof/Laws/Float.lean ====
section
/-! SUPPORT. Laws of the binary64 operations and of the configuration functions. -/

namespace Sys2Proof.Machine

/-- The halving logarithm is the logarithm. -/
theorem logBelow_eq (k n : Nat) (h : n < 2 ^ 2 ^ k) : logBelow k n = Nat.log2 n := by
  induction k generalizing n with
  | zero =>
    have : n = 0 ∨ n = 1 := by simp at h; omega
    rcases this with rfl | rfl <;> decide
  | succ k ih =>
    unfold logBelow
    split
    · next hlt => exact ih n hlt
    · next hge =>
      have hge : 2 ^ 2 ^ k ≤ n := Nat.le_of_not_lt hge
      have hpos : 0 < 2 ^ 2 ^ k := Nat.pow_pos (by omega)
      have hq : n / 2 ^ 2 ^ k < 2 ^ 2 ^ k := by
        rw [Nat.div_lt_iff_lt_mul hpos, ← Nat.pow_add]
        rwa [show 2 ^ k + 2 ^ k = 2 ^ (k + 1) by rw [Nat.pow_succ]; omega]
      have h1 : 1 ≤ n / 2 ^ 2 ^ k := (Nat.one_le_div_iff hpos).mpr hge
      rw [ih _ hq]
      symm
      rw [Nat.log2_eq_iff (by omega)]
      have hlog := (Nat.log2_eq_iff (by omega : n / 2 ^ 2 ^ k ≠ 0)).mp rfl
      constructor
      · rw [Nat.pow_add, Nat.mul_comm]
        exact (Nat.le_div_iff_mul_le hpos).mp hlog.1
      · rw [Nat.add_assoc, Nat.pow_add, Nat.mul_comm]
        exact (Nat.div_lt_iff_lt_mul hpos).mp hlog.2

/-- `bitLog` is the binary logarithm rounded down. -/
theorem bitLog_eq (n : Nat) : bitLog n = Nat.log2 n := by
  unfold bitLog
  split
  · next h => exact logBelow_eq 12 n h
  · rfl

/-- A pattern made a NaN is one. -/
theorem isNaN_asNaN (u : F64) : isNaN (asNaN u) = true := by
  unfold asNaN
  split
  · assumption
  · decide

/-- What the engine's arithmetic produces as a NaN is one. -/
theorem isNaN_producedNaN (d : Site) : isNaN (producedNaN d) = true := isNaN_asNaN _

/-- sat_floor stays in its range (spec/00_scope.md R10). -/
theorem satFloor_range (t : F64) (lo hi : Nat) (h : lo ≤ hi) : lo ≤ satFloor t lo hi ∧ satFloor t lo hi ≤ hi := by
  unfold satFloor
  split
  · omega
  · split
    · split <;> omega
    · omega

/-- sat_floor maps every NaN to the lower bound (R10): no byte depends on a NaN's pattern. -/
theorem satFloor_nan {t : F64} (lo hi : Nat) (h : isNaN t = true) : satFloor t lo hi = lo := by
  simp [satFloor, h]

/-- clamp01 maps every NaN to +0.0 (spec/42_color.md R142). -/
theorem clamp01_nan {x : F64} (h : isNaN x = true) : clamp01 x = posZero := by
  simp [clamp01, h]

/-! ## Patterns -/

/-- The sign of a packed value. -/
theorem fsign_packFloat (negative : Bool) {bits : Nat} (h : bits < 2 ^ 63) :
    fsign (packFloat negative bits) = negative := by
  unfold fsign packFloat
  rw [BitVec.getLsbD_ofNat]
  cases negative
  · simp [Nat.testBit_lt_two_pow h]
  · rw [if_pos rfl, Nat.add_comm, Nat.testBit_two_pow_add_eq, Nat.testBit_lt_two_pow h]
    rfl

/-- The magnitude pattern of a packed value. -/
theorem fbits_packFloat (negative : Bool) {bits : Nat} (h : bits < 2 ^ 63) :
    fbits (packFloat negative bits) = bits := by
  unfold fbits packFloat
  rw [BitVec.extractLsb'_toNat, BitVec.toNat_ofNat, Nat.shiftRight_zero]
  cases negative <;> simp <;> omega

/-- A rounded magnitude is at most infinity. -/
theorem roundMag_le (num den : Nat) : roundMag num den ≤ infBits := Nat.min_le_left ..

/-- A rounded magnitude leaves room for the sign. -/
theorem roundMag_lt (num den : Nat) : roundMag num den < 2 ^ 63 :=
  Nat.lt_of_le_of_lt (roundMag_le num den) (by decide)

end Sys2Proof.Machine

namespace Sys2Proof

open Machine

/-! ## The same value, whatever the pattern of a NaN -/

theorem SameValue.rfl (x : F64) : SameValue x x := .inl (Eq.refl x)

theorem SameValue.trans {x y z : F64} (h : SameValue x y) (h' : SameValue y z) : SameValue x z := by
  rcases h with h | ⟨h1, h2⟩
  · exact h ▸ h'
  · rcases h' with h' | ⟨_, h4⟩
    · exact .inr ⟨h1, h' ▸ h2⟩
    · exact .inr ⟨h1, h4⟩

/-- A value that is no NaN has one pattern. -/
theorem SameValue.eq {x y : F64} (h : SameValue x y) (hx : isNaN x = false) : x = y := by
  rcases h with h | ⟨h, _⟩
  · exact h
  · simp [hx] at h

theorem SameValue.isNaN_eq {x y : F64} (h : SameValue x y) : isNaN x = isNaN y := by
  rcases h with rfl | ⟨h1, h2⟩
  · exact Eq.refl _
  · rw [h1, h2]

theorem SameTriple.rfl (t : Triple) : SameTriple t t := ⟨.rfl _, .rfl _, .rfl _⟩

end Sys2Proof

namespace Sys2Proof.Machine

/-- What arithmetic produces as NaNs at two sites is one value. -/
theorem sameValue_producedNaN (d e : Site) : SameValue (producedNaN d) (producedNaN e) :=
  .inr ⟨isNaN_producedNaN d, isNaN_producedNaN e⟩

/-- Sums at two sites of the same values are the same value. -/
theorem fadd_same (d e : Site) {x x' y y' : F64} (hx : SameValue x x') (hy : SameValue y y') :
    SameValue (fadd d x y) (fadd e x' y') := by
  rcases hx with rfl | ⟨h1, h2⟩
  · rcases hy with rfl | ⟨h3, h4⟩
    · unfold fadd
      split
      · exact sameValue_producedNaN d e
      · split
        · split
          · exact sameValue_producedNaN d e
          · exact .rfl _
        · exact .rfl _
    · simp only [fadd, h3, h4, Bool.or_true, if_true]
      exact sameValue_producedNaN d e
  · simp only [fadd, h1, h2, Bool.true_or, if_true]
    exact sameValue_producedNaN d e

/-- Negation keeps the same value. -/
theorem fneg_same {x y : F64} (h : SameValue x y) : SameValue (fneg x) (fneg y) := by
  have key (u : F64) : isNaN (fneg u) = isNaN u := by
    have : fbits (fneg u) = fbits u := by
      unfold fbits fneg
      congr 1
      rw [BitVec.extractLsb'_xor]
      simp
    simp [isNaN, this]
  rcases h with rfl | ⟨h1, h2⟩
  · exact .rfl _
  · exact .inr ⟨by rw [key, h1], by rw [key, h2]⟩

/-- Differences at two sites of the same values are the same value. -/
theorem fsub_same (d e : Site) {x x' y y' : F64} (hx : SameValue x x') (hy : SameValue y y') :
    SameValue (fsub d x y) (fsub e x' y') := fadd_same d e hx (fneg_same hy)

/-- Products at two sites of the same values are the same value. -/
theorem fmul_same (d e : Site) {x x' y y' : F64} (hx : SameValue x x') (hy : SameValue y y') :
    SameValue (fmul d x y) (fmul e x' y') := by
  rcases hx with rfl | ⟨h1, h2⟩
  · rcases hy with rfl | ⟨h3, h4⟩
    · unfold fmul
      repeat' split
      all_goals first
        | exact sameValue_producedNaN d e
        | exact .rfl _
    · simp only [fmul, h3, h4, Bool.or_true, if_true]
      exact sameValue_producedNaN d e
  · simp only [fmul, h1, h2, Bool.true_or, if_true]
    exact sameValue_producedNaN d e

/-- Quotients at two sites of the same values are the same value. -/
theorem fdiv_same (d e : Site) {x x' y y' : F64} (hx : SameValue x x') (hy : SameValue y y') :
    SameValue (fdiv d x y) (fdiv e x' y') := by
  rcases hx with rfl | ⟨h1, h2⟩
  · rcases hy with rfl | ⟨h3, h4⟩
    · unfold fdiv
      repeat' split
      all_goals first
        | exact sameValue_producedNaN d e
        | exact .rfl _
    · simp only [fdiv, h3, h4, Bool.or_true, if_true]
      exact sameValue_producedNaN d e
  · simp only [fdiv, h1, h2, Bool.true_or, if_true]
    exact sameValue_producedNaN d e

/-- sat_floor takes the value, not the pattern. -/
theorem satFloor_same {x y : F64} (lo hi : Nat) (h : SameValue x y) : satFloor x lo hi = satFloor y lo hi := by
  rcases h with rfl | ⟨h1, h2⟩
  · exact Eq.refl _
  · rw [satFloor_nan lo hi h1, satFloor_nan lo hi h2]

/-- A channel whose quotient is NaN quantizes to 0 (spec/43_encoder.md R163). -/
theorem qch_nan {d : Site} {c m : F64} (h : isNaN (fdiv (0 :: d) c m) = true) : qch d c m = 0 := by
  simp [qch, h]

/-- A channel whose quotient is infinite saturates by its sign. -/
theorem qch_inf {d : Site} {c m : F64} (h : isNaN (fdiv (0 :: d) c m) = false)
    (hi : isInf (fdiv (0 :: d) c m) = true) : qch d c m = if fsign (fdiv (0 :: d) c m) then 0 else 18 := by
  simp [qch, h, hi]

/-- A channel whose quotient is finite takes the power of it. -/
theorem qch_finite {d : Site} {c m : F64} (h : isNaN (fdiv (0 :: d) c m) = false)
    (hi : isInf (fdiv (0 :: d) c m) = false) :
    qch d c m =
      satFloor (fadd (2 :: d) (fmul (1 :: d) (signPow (fdiv (0 :: d) c m) cHalf) c9) c9_5) 0 18 := by
  simp [qch, h, hi]

/-! ## The configuration functions -/

/-- The stand-in power meets P5's round-trip law, so that the power the model chooses always meets it. -/
theorem standIn_roundTrips : roundTrips (powBounded fun x _ => x) = true := by decide +kernel

/-- The chosen power meets P5's round-trip law. -/
theorem powChosen_roundTrips (f : F64 → F64 → F64) : roundTrips (powBounded (powChosen f)) = true := by
  unfold powChosen
  split
  · assumption
  · exact standIn_roundTrips

/-- A power that meets the round-trip law is the one chosen. -/
theorem powChosen_of_roundTrips {f : F64 → F64 → F64} (h : roundTrips (powBounded f) = true) : powChosen f = f := by
  simp [powChosen, h]

/-- A power with P2 to P4 and P5's range is left as it is. -/
theorem powBounded_of_conforming {f : F64 → F64 → F64} (hf : ∀ x y r, powFixed x y = some r → f x y = r)
    (hu : ∀ x y, inUnit x = true → flt posZero y = true → inUnit (f x y) = true) : powBounded f = f := by
  funext x y
  unfold powBounded
  cases h : powFixed x y with
  | some r => exact (hf x y r h).symm
  | none =>
    dsimp only
    split
    · next hc =>
      simp only [Bool.and_eq_true, Bool.not_eq_true'] at hc
      simp [hu x y hc.1.1 hc.1.2] at hc
    · rfl

/-! ## Products in [0, 1] -/

/-- A pattern up to that of 1.0 has a magnitude up to 1.0. -/
theorem magOfBits_le_one {n : Nat} (h : n ≤ 1023 * 2 ^ 52) : magOfBits n ≤ 2 ^ 1074 := by
  unfold magOfBits
  split
  · next hlt => exact Nat.le_of_lt (Nat.lt_of_lt_of_le hlt (Nat.pow_le_pow_right (by omega) (by omega)))
  · rcases Nat.lt_or_ge (n / 2 ^ 52) 1023 with he | he
    · have h1 : 2 ^ 52 + n % 2 ^ 52 ≤ 2 ^ 53 := by omega
      have h2 : 2 ^ (n / 2 ^ 52 - 1) ≤ 2 ^ 1021 := Nat.pow_le_pow_right (by omega) (by omega)
      exact Nat.le_trans (Nat.mul_le_mul h1 h2) (by rw [← Nat.pow_add])
    · have hn : n = 1023 * 2 ^ 52 := by omega
      subst hn
      decide +kernel

/-- An integer quotient rounds to at most the bound that its numerator keeps. -/
theorem roundEven_le {num den b : Nat} (h : num ≤ b * den) : roundEven num den ≤ b := by
  unfold roundEven
  rcases Nat.eq_zero_or_pos den with rfl | hd
  · simp at h
    subst h
    simp
  · have hle : num / den ≤ b := by
      rw [Nat.mul_comm] at h
      exact Nat.div_le_of_le_mul h
    rcases Nat.lt_or_eq_of_le hle with hlt | heq
    · dsimp only
      split <;> omega
    · have hm := Nat.div_add_mod num den
      rw [heq, Nat.mul_comm] at hm
      have hr : num % den = 0 := by omega
      dsimp only
      rw [hr, if_neg (by omega)]
      omega

/-- What is at most 1.0 rounds to at most 1.0. -/
theorem roundMag_le_one {num den : Nat} (hd : 0 < den) (h : num ≤ 2 ^ 1074 * den) :
    roundMag num den ≤ 1023 * 2 ^ 52 := by
  unfold roundMag lastPlace
  rw [bitLog_eq]
  dsimp only
  refine Nat.le_trans (Nat.min_le_right ..) ?_
  have hq : num / den ≤ 2 ^ 1074 := by
    rw [Nat.mul_comm] at h
    exact Nat.div_le_of_le_mul h
  have key (b q : Nat) (hb : num ≤ b * (den * 2 ^ q)) (hs : q * 2 ^ 52 + b ≤ 1023 * 2 ^ 52) :
      q * 2 ^ 52 + roundEven num (den * 2 ^ q) ≤ 1023 * 2 ^ 52 :=
    Nat.le_trans (Nat.add_le_add_left (roundEven_le hb) _) hs
  generalize hl : Nat.log2 (num / den) = l
  rcases Nat.eq_zero_or_pos (num / den) with h0 | hpos
  · have hz : num < den := (Nat.div_eq_zero_iff_lt hd).mp h0
    have : l = 0 := by rw [← hl, h0]; decide
    subst this
    exact key 1 0 (by simpa using Nat.le_of_lt hz) (by decide)
  · have hlog := (Nat.log2_eq_iff (by omega : num / den ≠ 0)).mp hl
    have hlt : num < den * 2 ^ (l + 1) := by
      rw [Nat.mul_comm]
      exact (Nat.div_lt_iff_lt_mul hd).mp hlog.2
    have hl1 : l ≤ 1074 := (Nat.pow_le_pow_iff_right (by omega)).mp (Nat.le_trans hlog.1 hq)
    rcases Nat.lt_or_ge l 52 with hs | hs
    · rw [show l - 52 = 0 by omega]
      refine key (2 ^ 52) 0 ?_ (by decide)
      have : 2 ^ (l + 1) ≤ 2 ^ 52 := Nat.pow_le_pow_right (by omega) (by omega)
      calc num ≤ den * 2 ^ (l + 1) := Nat.le_of_lt hlt
        _ ≤ den * 2 ^ 52 := Nat.mul_le_mul_left _ this
        _ = 2 ^ 52 * (den * 2 ^ 0) := by ring
    · rcases Nat.lt_or_eq_of_le hl1 with hl2 | rfl
      · refine key (2 ^ 53) (l - 52) ?_ ?_
        · calc num ≤ den * 2 ^ (l + 1) := Nat.le_of_lt hlt
            _ = den * 2 ^ (53 + (l - 52)) := by rw [show l + 1 = 53 + (l - 52) by omega]
            _ = 2 ^ 53 * (den * 2 ^ (l - 52)) := by rw [Nat.pow_add]; ring
        · omega
      · refine key (2 ^ 52) 1022 ?_ (by decide)
        calc num ≤ 2 ^ 1074 * den := h
          _ = 2 ^ 52 * (den * 2 ^ 1022) := by
            rw [show (1074 : Nat) = 52 + 1022 from rfl, Nat.pow_add]; ring

/-- A value in [0, 1] has a pattern up to that of 1.0. -/
theorem fbits_le_one {x : F64} (h : inUnit x = true) : fbits x ≤ 1023 * 2 ^ 52 := by
  simp only [inUnit, fle, Bool.and_eq_true, decide_eq_true_eq] at h
  have h1 : orderKey posZero = 0 := by decide
  have h2 : orderKey c1 = 1023 * 2 ^ 52 := by decide +kernel
  have hk := h.1.2
  have hk' := h.2.2
  rw [h1] at hk
  rw [h2] at hk'
  unfold orderKey at hk hk'
  split at hk <;> simp_all

/-- A positive pattern up to that of 1.0 is in [0, 1]. -/
theorem inUnit_packFloat {bits : Nat} (h : bits ≤ 1023 * 2 ^ 52) : inUnit (packFloat false bits) = true := by
  have hb : fbits (packFloat false bits) = bits := fbits_packFloat _ (by omega)
  have hs : fsign (packFloat false bits) = false := fsign_packFloat _ (by omega)
  have h1 : orderKey posZero = 0 := by decide
  have h2 : orderKey c1 = 1023 * 2 ^ 52 := by decide +kernel
  have h3 : isNaN posZero = false := by decide
  have h4 : isNaN c1 = false := by decide +kernel
  have h5 : isNaN (packFloat false bits) = false := by
    simp only [isNaN, hb, infBits, decide_eq_false_iff_not]
    omega
  have h6 : orderKey (packFloat false bits) = bits := by simp [orderKey, hs, hb]
  simp only [inUnit, fle, h1, h2, h3, h4, h5, h6, Bool.not_false, Bool.true_and, Bool.and_eq_true, decide_eq_true_eq]
  omega

/-- The square of a value in [0, 1] is in [0, 1]. -/
theorem inUnit_square {x : F64} (d : Site) (h : inUnit x = true) : inUnit (fmul d x x) = true := by
  have hb := fbits_le_one h
  have hn : isNaN x = false := decide_eq_false (by unfold infBits; omega)
  have hi : isInf x = false := beq_eq_false_iff_ne.mpr (by unfold infBits; omega)
  have hs : signXor x x = false := by simp [signXor]
  simp only [fmul, hn, hi, hs, Bool.or_false, Bool.false_eq_true, if_false]
  refine inUnit_packFloat (roundMag_le_one (Nat.pow_pos (by omega)) ?_)
  exact Nat.mul_le_mul (magOfBits_le_one hb) (magOfBits_le_one hb)

/-- What P2 to P4 fix stays in [0, 1] for a base there. -/
theorem powFixed_inUnit {x y r : F64} (h : powFixed x y = some r) (hx : inUnit x = true) : inUnit r = true := by
  unfold powFixed at h
  split at h
  · cases h; decide +kernel
  · split at h
    · cases h; decide +kernel
    · split at h
      · cases h; exact inUnit_square [] hx
      · cases h

/-- The imposed range holds (P5). -/
theorem powBounded_inUnit (f : F64 → F64 → F64) {x y : F64} (hx : inUnit x = true) (hy : flt posZero y = true) :
    inUnit (powBounded f x y) = true := by
  unfold powBounded
  split
  · next r h => exact powFixed_inUnit h hx
  · split
    · exact hx
    · next h => simpa [hx, hy] using h

end Sys2Proof.Machine
end

