-- ==== Sys2Proof/Laws/Memory.lean ====
section
/-! SUPPORT. The laws of the memory: read after write, what a write leaves alone, the canonical form, and the bytes of
little-endian numbers. -/

namespace Sys2Proof.Machine

/-! ## The size of PIXMEM -/

/-- PIXMEM_BYTES is a legal value (spec/00_scope.md R7): a multiple of 4 from 4 to 0xFFFF0000. -/
theorem pixmemBytes_legal : 4 ≤ pixmemBytes ∧ pixmemBytes ≤ 0xFFFF0000 ∧ pixmemBytes % 4 = 0 := by
  unfold pixmemBytes
  omega

/-! ## One byte -/

/-- A byte just written is read back. -/
@[simp] theorem read_write_same (m : Memory) (a : Nat) (b : Byte) :
    Memory.read (Memory.write m a b) a = some b := by
  induction m with
  | nil => simp [Memory.write, Memory.read]
  | cons c m ih =>
    obtain ⟨k, v⟩ := c
    simp only [Memory.write]
    split
    · simp [Memory.read]
    · split
      · simp [Memory.read]
      · next _ hne => simp [Memory.read, Ne.symm hne, ih]

/-- A write leaves every other address alone. -/
theorem read_write_other (m : Memory) {a x : Nat} (b : Byte) (h : x ≠ a) :
    Memory.read (Memory.write m a b) x = Memory.read m x := by
  induction m with
  | nil => simp [Memory.write, Memory.read, Ne.symm h]
  | cons c m ih =>
    obtain ⟨k, v⟩ := c
    simp only [Memory.write]
    split
    · simp [Memory.read, Ne.symm h]
    · split
      · next _ he => subst he; simp [Memory.read, Ne.symm h]
      · simp [Memory.read, ih]

/-- An address is listed in a memory below another. -/
theorem wf_cons {a : Nat} {b : Byte} {m : Memory} :
    Memory.wf ((a, b) :: m) = true ↔ (∀ c ∈ m.head?, a < c.1) ∧ Memory.wf m = true := by
  cases m with
  | nil => simp [Memory.wf]
  | cons c m => simp [Memory.wf]

/-- The first address after a write is the old first one or the one written. -/
theorem head_write (m : Memory) (a : Nat) (b : Byte) (c : Host.Cell) (h : c ∈ (Memory.write m a b).head?) :
    c.1 = a ∨ c ∈ m.head? := by
  cases m with
  | nil => simp [Memory.write] at h; simp [← h]
  | cons d m =>
    obtain ⟨k, v⟩ := d
    simp only [Memory.write] at h
    split at h
    · simp at h; simp [← h]
    · split at h
      · simp at h; simp [← h]
      · simp at h; simp [← h]

/-- A write keeps the canonical form. -/
theorem wf_write (m : Memory) (a : Nat) (b : Byte) (h : Memory.wf m = true) :
    Memory.wf (Memory.write m a b) = true := by
  induction m with
  | nil => simp [Memory.write, Memory.wf]
  | cons c m ih =>
    obtain ⟨k, v⟩ := c
    simp only [Memory.write]
    split
    · next hlt => exact wf_cons.mpr ⟨by simpa using hlt, h⟩
    · split
      · next _ he => subst he; exact wf_cons.mpr (wf_cons.mp h)
      · next h1 h2 =>
        obtain ⟨hk, hm⟩ := wf_cons.mp h
        refine wf_cons.mpr ⟨fun c hc => ?_, ih hm⟩
        rcases head_write m a b c hc with he | he
        · omega
        · exact hk c he

/-- The cells of a memory after a write are old ones and the one written. -/
theorem mem_write (m : Memory) (a : Nat) (b : Byte) (c : Host.Cell) (h : c ∈ Memory.write m a b) :
    c = (a, b) ∨ c ∈ m := by
  induction m with
  | nil => simpa [Memory.write] using h
  | cons d m ih =>
    obtain ⟨k, v⟩ := d
    simp only [Memory.write] at h
    split at h
    · simpa using h
    · split at h
      · next he => simp at h; rcases h with h | h <;> simp [h]
      · simp at h
        rcases h with h | h
        · simp [h]
        · rcases ih h with h | h <;> simp [h]

/-! ## Runs of bytes -/

/-- Writing bytes leaves every address outside them alone. -/
theorem read_writeBytes_outside (bs : List Byte) (m : Memory) (a x : Nat) (h : x < a ∨ a + bs.length ≤ x) :
    Memory.read (Memory.writeBytes m a bs) x = Memory.read m x := by
  induction bs generalizing m a with
  | nil => rfl
  | cons b bs ih =>
    simp only [List.length_cons] at h
    rw [Memory.writeBytes, ih _ _ (by omega), read_write_other _ _ (by omega)]

/-- Bytes just written are read back. -/
theorem read_writeBytes_inside (bs : List Byte) (m : Memory) (a i : Nat) (h : i < bs.length) :
    Memory.read (Memory.writeBytes m a bs) (a + i) = some bs[i] := by
  induction bs generalizing m a i with
  | nil => simp at h
  | cons b bs ih =>
    cases i with
    | zero =>
      rw [Memory.writeBytes, read_writeBytes_outside _ _ _ _ (by omega)]
      simp
    | succ i =>
      rw [Memory.writeBytes, show a + (i + 1) = (a + 1) + i by omega, ih _ _ _ (by simpa using h)]
      simp

/-- Writing bytes keeps the canonical form. -/
theorem wf_writeBytes (bs : List Byte) (m : Memory) (a : Nat) (h : Memory.wf m = true) :
    Memory.wf (Memory.writeBytes m a bs) = true := by
  induction bs generalizing m a with
  | nil => exact h
  | cons b bs ih => exact ih _ _ (wf_write m a b h)

/-- The cells of a memory after writing bytes are old ones, and new ones at the addresses written. -/
theorem mem_writeBytes (bs : List Byte) (m : Memory) (a : Nat) (c : Host.Cell) (h : c ∈ Memory.writeBytes m a bs) :
    (a ≤ c.1 ∧ c.1 < a + bs.length) ∨ c ∈ m := by
  induction bs generalizing m a with
  | nil => exact .inr h
  | cons b bs ih =>
    simp only [List.length_cons]
    rcases ih _ _ h with h | h
    · exact .inl ⟨by omega, by omega⟩
    · rcases mem_write m a b c h with h | h
      · exact .inl ⟨by simp [h], by simp [h]⟩
      · exact .inr h

/-- Reading a run of bytes gives them all or the first address among them that is poison. -/
theorem bytesFrom_cases (m : Memory) (a n : Nat) :
    (∃ bs, bytesFrom m a n = .ok bs ∧ bs.length = n ∧
        ∀ i, (h : i < bs.length) → Memory.read m (a + i) = some bs[i]) ∨
      (∃ i < n, bytesFrom m a n = .error (a + i) ∧ Memory.read m (a + i) = none) := by
  induction n generalizing a with
  | zero => exact .inl ⟨[], by simp [bytesFrom]⟩
  | succ n ih =>
    simp only [bytesFrom]
    cases hr : Memory.read m a with
    | none => exact .inr ⟨0, by omega, by simp, by simpa using hr⟩
    | some b =>
      rcases ih (a + 1) with ⟨bs, hb, hl, hs⟩ | ⟨i, hi, hb, hn⟩
      · refine .inl ⟨b :: bs, by simp [hb], by simp [hl], fun j hj => ?_⟩
        cases j with
        | zero => simpa using hr
        | succ j =>
          have := hs j (by simpa using hj)
          simpa [show a + (j + 1) = a + 1 + j by omega] using this
      · exact .inr ⟨i + 1, by omega, by simp [hb]; omega, by simpa [show a + (i + 1) = a + 1 + i by omega] using hn⟩

/-- The address that a failed run names is the first poison one in it. -/
theorem bytesFrom_error {m : Memory} {a n p : Nat} (h : bytesFrom m a n = .error p) :
    a ≤ p ∧ p < a + n ∧ Memory.read m p = none ∧ ∀ x, a ≤ x → x < p → (Memory.read m x).isSome = true := by
  induction n generalizing a with
  | zero => simp [bytesFrom] at h
  | succ n ih =>
    simp only [bytesFrom] at h
    cases hr : Memory.read m a with
    | none =>
      simp only [hr, Except.error.injEq] at h
      subst h
      exact ⟨Nat.le_refl _, by omega, hr, fun x h1 h2 => by omega⟩
    | some b =>
      cases hb : bytesFrom m (a + 1) n with
      | ok bs => simp [hr, hb] at h
      | error q =>
        simp only [hr, hb, Except.error.injEq] at h
        subst h
        obtain ⟨h1, h2, h3, h4⟩ := ih hb
        refine ⟨by omega, by omega, h3, fun x hx hx' => ?_⟩
        rcases Nat.eq_or_lt_of_le hx with rfl | hx
        · simp [hr]
        · exact h4 x hx hx'

/-! ## Little-endian numbers -/

@[simp] theorem leBytes_length (n v : Nat) : (leBytes n v).length = n := by
  induction n generalizing v with
  | zero => rfl
  | succ n ih => simp [leBytes, ih]

/-- The bytes of a number give its low bytes back. -/
theorem leNat_leBytes (n v : Nat) : leNat (leBytes n v) = v % 256 ^ n := by
  induction n generalizing v with
  | zero => simp [leBytes, leNat, Nat.mod_one]
  | succ n ih =>
    simp only [leBytes, leNat, ih, BitVec.toNat_ofNat]
    rw [show (256 : Nat) ^ (n + 1) = 256 * 256 ^ n by ring, Nat.mod_mul]

/-- The number of n bytes lies below 256^n. -/
theorem leNat_lt (bs : List Byte) : leNat bs < 256 ^ bs.length := by
  induction bs with
  | nil => simp [leNat]
  | cons b bs ih =>
    have := b.isLt
    simp only [leNat, List.length_cons, Nat.pow_succ]
    omega

/-- Bytes are those of the number they write. -/
theorem leBytes_leNat (bs : List Byte) : leBytes bs.length (leNat bs) = bs := by
  induction bs with
  | nil => rfl
  | cons b bs ih =>
    have hb := b.isLt
    have hd : (b.toNat + 256 * leNat bs) / 256 = leNat bs := by omega
    have hm : BitVec.ofNat 8 (b.toNat + 256 * leNat bs) = b := by
      apply BitVec.eq_of_toNat_eq
      simp only [BitVec.toNat_ofNat]
      omega
    simp [leNat, leBytes, hd, hm, ih]

end Sys2Proof.Machine
end

