-- ==== Sys2Proof/Laws/State.lean ====
section
/-! SUPPORT. One lemma per field per shared update of the state, true by unfolding the update, so that no later proof
unfolds a record update. -/

namespace Sys2Proof.Machine

/-! ## finish -/

@[simp] theorem finish_ie (code : BitVec 4) (kind pos : Byte) (s : State) : (finish code kind pos s).ie = s.ie := rfl
@[simp] theorem finish_busy (code : BitVec 4) (kind pos : Byte) (s : State) : (finish code kind pos s).busy = false := rfl
@[simp] theorem finish_done (code : BitVec 4) (kind pos : Byte) (s : State) : (finish code kind pos s).done = true := rfl
@[simp] theorem finish_werr (code : BitVec 4) (kind pos : Byte) (s : State) : (finish code kind pos s).werr = s.werr := rfl
@[simp] theorem finish_errcode (code : BitVec 4) (kind pos : Byte) (s : State) : (finish code kind pos s).errcode = code := rfl
@[simp] theorem finish_cmd (code : BitVec 4) (kind pos : Byte) (s : State) : (finish code kind pos s).cmd = s.cmd := rfl
@[simp] theorem finish_errPos (code : BitVec 4) (kind pos : Byte) (s : State) : (finish code kind pos s).errPos = pos := rfl
@[simp] theorem finish_errKind (code : BitVec 4) (kind pos : Byte) (s : State) : (finish code kind pos s).errKind = kind := rfl
@[simp] theorem finish_width (code : BitVec 4) (kind pos : Byte) (s : State) : (finish code kind pos s).width = s.width := rfl
@[simp] theorem finish_height (code : BitVec 4) (kind pos : Byte) (s : State) : (finish code kind pos s).height = s.height := rfl
@[simp] theorem finish_dimNx (code : BitVec 4) (kind pos : Byte) (s : State) : (finish code kind pos s).dimNx = s.dimNx := rfl
@[simp] theorem finish_dimNy (code : BitVec 4) (kind pos : Byte) (s : State) : (finish code kind pos s).dimNy = s.dimNy := rfl
@[simp] theorem finish_punch (code : BitVec 4) (kind pos : Byte) (s : State) : (finish code kind pos s).punch = s.punch := rfl
@[simp] theorem finish_pixlen (code : BitVec 4) (kind pos : Byte) (s : State) : (finish code kind pos s).pixlen = s.pixlen := rfl
@[simp] theorem finish_hashlen (code : BitVec 4) (kind pos : Byte) (s : State) : (finish code kind pos s).hashlen = s.hashlen := rfl
@[simp] theorem finish_src0 (code : BitVec 4) (kind pos : Byte) (s : State) : (finish code kind pos s).src0 = s.src0 := rfl
@[simp] theorem finish_src1 (code : BitVec 4) (kind pos : Byte) (s : State) : (finish code kind pos s).src1 = s.src1 := rfl
@[simp] theorem finish_result (code : BitVec 4) (kind pos : Byte) (s : State) : (finish code kind pos s).result = s.result := rfl
@[simp] theorem finish_maxreg (code : BitVec 4) (kind pos : Byte) (s : State) : (finish code kind pos s).maxreg = s.maxreg := rfl
@[simp] theorem finish_mem (code : BitVec 4) (kind pos : Byte) (s : State) : (finish code kind pos s).mem = s.mem := rfl
@[simp] theorem finish_pending (code : BitVec 4) (kind pos : Byte) (s : State) : (finish code kind pos s).pending = none := rfl
@[simp] theorem finish_draws (code : BitVec 4) (kind pos : Byte) (s : State) : (finish code kind pos s).draws = s.draws + 1 := rfl
@[simp] theorem finish_turns (code : BitVec 4) (kind pos : Byte) (s : State) : (finish code kind pos s).turns = s.turns := rfl
@[simp] theorem finish_reply (code : BitVec 4) (kind pos : Byte) (s : State) : (finish code kind pos s).reply = s.reply := rfl

/-! ## complete -/

@[simp] theorem complete_ie (s : State) : (complete s).ie = s.ie := rfl
@[simp] theorem complete_busy (s : State) : (complete s).busy = false := rfl
@[simp] theorem complete_done (s : State) : (complete s).done = true := rfl
@[simp] theorem complete_werr (s : State) : (complete s).werr = s.werr := rfl
@[simp] theorem complete_errcode (s : State) : (complete s).errcode = 0 := rfl
@[simp] theorem complete_cmd (s : State) : (complete s).cmd = s.cmd := rfl
@[simp] theorem complete_errPos (s : State) : (complete s).errPos = 0 := rfl
@[simp] theorem complete_errKind (s : State) : (complete s).errKind = 0 := rfl
@[simp] theorem complete_width (s : State) : (complete s).width = s.width := rfl
@[simp] theorem complete_height (s : State) : (complete s).height = s.height := rfl
@[simp] theorem complete_dimNx (s : State) : (complete s).dimNx = s.dimNx := rfl
@[simp] theorem complete_dimNy (s : State) : (complete s).dimNy = s.dimNy := rfl
@[simp] theorem complete_punch (s : State) : (complete s).punch = s.punch := rfl
@[simp] theorem complete_pixlen (s : State) : (complete s).pixlen = s.pixlen := rfl
@[simp] theorem complete_hashlen (s : State) : (complete s).hashlen = s.hashlen := rfl
@[simp] theorem complete_src0 (s : State) : (complete s).src0 = s.src0 := rfl
@[simp] theorem complete_src1 (s : State) : (complete s).src1 = s.src1 := rfl
@[simp] theorem complete_result (s : State) : (complete s).result = s.result := rfl
@[simp] theorem complete_maxreg (s : State) : (complete s).maxreg = s.maxreg := rfl
@[simp] theorem complete_mem (s : State) : (complete s).mem = s.mem := rfl
@[simp] theorem complete_pending (s : State) : (complete s).pending = none := rfl
@[simp] theorem complete_draws (s : State) : (complete s).draws = s.draws + 1 := rfl
@[simp] theorem complete_turns (s : State) : (complete s).turns = s.turns := rfl
@[simp] theorem complete_reply (s : State) : (complete s).reply = s.reply := rfl

/-! ## raiseError -/

@[simp] theorem raiseError_ie (e : CmdError) (s : State) : (raiseError e s).ie = s.ie := rfl
@[simp] theorem raiseError_busy (e : CmdError) (s : State) : (raiseError e s).busy = false := rfl
@[simp] theorem raiseError_done (e : CmdError) (s : State) : (raiseError e s).done = true := rfl
@[simp] theorem raiseError_werr (e : CmdError) (s : State) : (raiseError e s).werr = s.werr := rfl
@[simp] theorem raiseError_errcode (e : CmdError) (s : State) : (raiseError e s).errcode = errCodeBits e.code := rfl
@[simp] theorem raiseError_cmd (e : CmdError) (s : State) : (raiseError e s).cmd = s.cmd := rfl
@[simp] theorem raiseError_errPos (e : CmdError) (s : State) : (raiseError e s).errPos = e.pos := rfl
@[simp] theorem raiseError_errKind (e : CmdError) (s : State) : (raiseError e s).errKind = e.kind := rfl
@[simp] theorem raiseError_width (e : CmdError) (s : State) : (raiseError e s).width = s.width := rfl
@[simp] theorem raiseError_height (e : CmdError) (s : State) : (raiseError e s).height = s.height := rfl
@[simp] theorem raiseError_dimNx (e : CmdError) (s : State) : (raiseError e s).dimNx = s.dimNx := rfl
@[simp] theorem raiseError_dimNy (e : CmdError) (s : State) : (raiseError e s).dimNy = s.dimNy := rfl
@[simp] theorem raiseError_punch (e : CmdError) (s : State) : (raiseError e s).punch = s.punch := rfl
@[simp] theorem raiseError_pixlen (e : CmdError) (s : State) : (raiseError e s).pixlen = s.pixlen := rfl
@[simp] theorem raiseError_hashlen (e : CmdError) (s : State) : (raiseError e s).hashlen = s.hashlen := rfl
@[simp] theorem raiseError_src0 (e : CmdError) (s : State) : (raiseError e s).src0 = s.src0 := rfl
@[simp] theorem raiseError_src1 (e : CmdError) (s : State) : (raiseError e s).src1 = s.src1 := rfl
@[simp] theorem raiseError_result (e : CmdError) (s : State) : (raiseError e s).result = s.result := rfl
@[simp] theorem raiseError_maxreg (e : CmdError) (s : State) : (raiseError e s).maxreg = s.maxreg := rfl
@[simp] theorem raiseError_mem (e : CmdError) (s : State) : (raiseError e s).mem = s.mem := rfl
@[simp] theorem raiseError_pending (e : CmdError) (s : State) : (raiseError e s).pending = none := rfl
@[simp] theorem raiseError_draws (e : CmdError) (s : State) : (raiseError e s).draws = s.draws + 1 := rfl
@[simp] theorem raiseError_turns (e : CmdError) (s : State) : (raiseError e s).turns = s.turns := rfl
@[simp] theorem raiseError_reply (e : CmdError) (s : State) : (raiseError e s).reply = s.reply := rfl

/-! ## acceptCommand -/

@[simp] theorem acceptCommand_ie (w : Word) (s : State) : (acceptCommand w s).ie = s.ie := rfl
@[simp] theorem acceptCommand_busy (w : Word) (s : State) : (acceptCommand w s).busy = true := rfl
@[simp] theorem acceptCommand_done (w : Word) (s : State) : (acceptCommand w s).done = false := rfl
@[simp] theorem acceptCommand_werr (w : Word) (s : State) : (acceptCommand w s).werr = s.werr := rfl
@[simp] theorem acceptCommand_errcode (w : Word) (s : State) : (acceptCommand w s).errcode = 0 := rfl
@[simp] theorem acceptCommand_cmd (w : Word) (s : State) : (acceptCommand w s).cmd = w := rfl
@[simp] theorem acceptCommand_errPos (w : Word) (s : State) : (acceptCommand w s).errPos = 0 := rfl
@[simp] theorem acceptCommand_errKind (w : Word) (s : State) : (acceptCommand w s).errKind = 0 := rfl
@[simp] theorem acceptCommand_width (w : Word) (s : State) : (acceptCommand w s).width = s.width := rfl
@[simp] theorem acceptCommand_height (w : Word) (s : State) : (acceptCommand w s).height = s.height := rfl
@[simp] theorem acceptCommand_dimNx (w : Word) (s : State) : (acceptCommand w s).dimNx = s.dimNx := rfl
@[simp] theorem acceptCommand_dimNy (w : Word) (s : State) : (acceptCommand w s).dimNy = s.dimNy := rfl
@[simp] theorem acceptCommand_punch (w : Word) (s : State) : (acceptCommand w s).punch = s.punch := rfl
@[simp] theorem acceptCommand_pixlen (w : Word) (s : State) : (acceptCommand w s).pixlen = s.pixlen := rfl
@[simp] theorem acceptCommand_hashlen (w : Word) (s : State) : (acceptCommand w s).hashlen = s.hashlen := rfl
@[simp] theorem acceptCommand_src0 (w : Word) (s : State) : (acceptCommand w s).src0 = s.src0 := rfl
@[simp] theorem acceptCommand_src1 (w : Word) (s : State) : (acceptCommand w s).src1 = s.src1 := rfl
@[simp] theorem acceptCommand_result (w : Word) (s : State) : (acceptCommand w s).result = s.result := rfl
@[simp] theorem acceptCommand_maxreg (w : Word) (s : State) : (acceptCommand w s).maxreg = s.maxreg := rfl
@[simp] theorem acceptCommand_mem (w : Word) (s : State) : (acceptCommand w s).mem = s.mem := rfl
@[simp] theorem acceptCommand_pending (w : Word) (s : State) : (acceptCommand w s).pending = some w := rfl
@[simp] theorem acceptCommand_draws (w : Word) (s : State) : (acceptCommand w s).draws = s.draws := rfl
@[simp] theorem acceptCommand_turns (w : Word) (s : State) : (acceptCommand w s).turns = s.turns := rfl
@[simp] theorem acceptCommand_reply (w : Word) (s : State) : (acceptCommand w s).reply = s.reply := rfl

/-! ## dropWrite -/

@[simp] theorem dropWrite_ie (s : State) : (dropWrite s).ie = s.ie := rfl
@[simp] theorem dropWrite_busy (s : State) : (dropWrite s).busy = s.busy := rfl
@[simp] theorem dropWrite_done (s : State) : (dropWrite s).done = s.done := rfl
@[simp] theorem dropWrite_werr (s : State) : (dropWrite s).werr = true := rfl
@[simp] theorem dropWrite_errcode (s : State) : (dropWrite s).errcode = s.errcode := rfl
@[simp] theorem dropWrite_cmd (s : State) : (dropWrite s).cmd = s.cmd := rfl
@[simp] theorem dropWrite_errPos (s : State) : (dropWrite s).errPos = s.errPos := rfl
@[simp] theorem dropWrite_errKind (s : State) : (dropWrite s).errKind = s.errKind := rfl
@[simp] theorem dropWrite_width (s : State) : (dropWrite s).width = s.width := rfl
@[simp] theorem dropWrite_height (s : State) : (dropWrite s).height = s.height := rfl
@[simp] theorem dropWrite_dimNx (s : State) : (dropWrite s).dimNx = s.dimNx := rfl
@[simp] theorem dropWrite_dimNy (s : State) : (dropWrite s).dimNy = s.dimNy := rfl
@[simp] theorem dropWrite_punch (s : State) : (dropWrite s).punch = s.punch := rfl
@[simp] theorem dropWrite_pixlen (s : State) : (dropWrite s).pixlen = s.pixlen := rfl
@[simp] theorem dropWrite_hashlen (s : State) : (dropWrite s).hashlen = s.hashlen := rfl
@[simp] theorem dropWrite_src0 (s : State) : (dropWrite s).src0 = s.src0 := rfl
@[simp] theorem dropWrite_src1 (s : State) : (dropWrite s).src1 = s.src1 := rfl
@[simp] theorem dropWrite_result (s : State) : (dropWrite s).result = s.result := rfl
@[simp] theorem dropWrite_maxreg (s : State) : (dropWrite s).maxreg = s.maxreg := rfl
@[simp] theorem dropWrite_mem (s : State) : (dropWrite s).mem = s.mem := rfl
@[simp] theorem dropWrite_pending (s : State) : (dropWrite s).pending = s.pending := rfl
@[simp] theorem dropWrite_draws (s : State) : (dropWrite s).draws = s.draws := rfl
@[simp] theorem dropWrite_turns (s : State) : (dropWrite s).turns = s.turns := rfl
@[simp] theorem dropWrite_reply (s : State) : (dropWrite s).reply = s.reply := rfl

/-! ## clearStatus -/

@[simp] theorem clearStatus_ie (v : Word) (s : State) : (clearStatus v s).ie = s.ie := rfl
@[simp] theorem clearStatus_busy (v : Word) (s : State) : (clearStatus v s).busy = s.busy := rfl
@[simp] theorem clearStatus_done (v : Word) (s : State) : (clearStatus v s).done = (s.done && !v.getLsbD 1) := rfl
@[simp] theorem clearStatus_werr (v : Word) (s : State) : (clearStatus v s).werr = (s.werr && !v.getLsbD 3) := rfl
@[simp] theorem clearStatus_errcode (v : Word) (s : State) : (clearStatus v s).errcode = s.errcode := rfl
@[simp] theorem clearStatus_cmd (v : Word) (s : State) : (clearStatus v s).cmd = s.cmd := rfl
@[simp] theorem clearStatus_errPos (v : Word) (s : State) : (clearStatus v s).errPos = s.errPos := rfl
@[simp] theorem clearStatus_errKind (v : Word) (s : State) : (clearStatus v s).errKind = s.errKind := rfl
@[simp] theorem clearStatus_width (v : Word) (s : State) : (clearStatus v s).width = s.width := rfl
@[simp] theorem clearStatus_height (v : Word) (s : State) : (clearStatus v s).height = s.height := rfl
@[simp] theorem clearStatus_dimNx (v : Word) (s : State) : (clearStatus v s).dimNx = s.dimNx := rfl
@[simp] theorem clearStatus_dimNy (v : Word) (s : State) : (clearStatus v s).dimNy = s.dimNy := rfl
@[simp] theorem clearStatus_punch (v : Word) (s : State) : (clearStatus v s).punch = s.punch := rfl
@[simp] theorem clearStatus_pixlen (v : Word) (s : State) : (clearStatus v s).pixlen = s.pixlen := rfl
@[simp] theorem clearStatus_hashlen (v : Word) (s : State) : (clearStatus v s).hashlen = s.hashlen := rfl
@[simp] theorem clearStatus_src0 (v : Word) (s : State) : (clearStatus v s).src0 = s.src0 := rfl
@[simp] theorem clearStatus_src1 (v : Word) (s : State) : (clearStatus v s).src1 = s.src1 := rfl
@[simp] theorem clearStatus_result (v : Word) (s : State) : (clearStatus v s).result = s.result := rfl
@[simp] theorem clearStatus_maxreg (v : Word) (s : State) : (clearStatus v s).maxreg = s.maxreg := rfl
@[simp] theorem clearStatus_mem (v : Word) (s : State) : (clearStatus v s).mem = s.mem := rfl
@[simp] theorem clearStatus_pending (v : Word) (s : State) : (clearStatus v s).pending = s.pending := rfl
@[simp] theorem clearStatus_draws (v : Word) (s : State) : (clearStatus v s).draws = s.draws := rfl
@[simp] theorem clearStatus_turns (v : Word) (s : State) : (clearStatus v s).turns = s.turns := rfl
@[simp] theorem clearStatus_reply (v : Word) (s : State) : (clearStatus v s).reply = s.reply := rfl

/-! ## setCtrl -/

@[simp] theorem setCtrl_ie (v : Word) (s : State) : (setCtrl v s).ie = v.getLsbD 0 := rfl
@[simp] theorem setCtrl_busy (v : Word) (s : State) : (setCtrl v s).busy = s.busy := rfl
@[simp] theorem setCtrl_done (v : Word) (s : State) : (setCtrl v s).done = s.done := rfl
@[simp] theorem setCtrl_werr (v : Word) (s : State) : (setCtrl v s).werr = s.werr := rfl
@[simp] theorem setCtrl_errcode (v : Word) (s : State) : (setCtrl v s).errcode = s.errcode := rfl
@[simp] theorem setCtrl_cmd (v : Word) (s : State) : (setCtrl v s).cmd = s.cmd := rfl
@[simp] theorem setCtrl_errPos (v : Word) (s : State) : (setCtrl v s).errPos = s.errPos := rfl
@[simp] theorem setCtrl_errKind (v : Word) (s : State) : (setCtrl v s).errKind = s.errKind := rfl
@[simp] theorem setCtrl_width (v : Word) (s : State) : (setCtrl v s).width = s.width := rfl
@[simp] theorem setCtrl_height (v : Word) (s : State) : (setCtrl v s).height = s.height := rfl
@[simp] theorem setCtrl_dimNx (v : Word) (s : State) : (setCtrl v s).dimNx = s.dimNx := rfl
@[simp] theorem setCtrl_dimNy (v : Word) (s : State) : (setCtrl v s).dimNy = s.dimNy := rfl
@[simp] theorem setCtrl_punch (v : Word) (s : State) : (setCtrl v s).punch = s.punch := rfl
@[simp] theorem setCtrl_pixlen (v : Word) (s : State) : (setCtrl v s).pixlen = s.pixlen := rfl
@[simp] theorem setCtrl_hashlen (v : Word) (s : State) : (setCtrl v s).hashlen = s.hashlen := rfl
@[simp] theorem setCtrl_src0 (v : Word) (s : State) : (setCtrl v s).src0 = s.src0 := rfl
@[simp] theorem setCtrl_src1 (v : Word) (s : State) : (setCtrl v s).src1 = s.src1 := rfl
@[simp] theorem setCtrl_result (v : Word) (s : State) : (setCtrl v s).result = s.result := rfl
@[simp] theorem setCtrl_maxreg (v : Word) (s : State) : (setCtrl v s).maxreg = s.maxreg := rfl
@[simp] theorem setCtrl_mem (v : Word) (s : State) : (setCtrl v s).mem = s.mem := rfl
@[simp] theorem setCtrl_pending (v : Word) (s : State) : (setCtrl v s).pending = s.pending := rfl
@[simp] theorem setCtrl_draws (v : Word) (s : State) : (setCtrl v s).draws = s.draws := rfl
@[simp] theorem setCtrl_turns (v : Word) (s : State) : (setCtrl v s).turns = s.turns := rfl
@[simp] theorem setCtrl_reply (v : Word) (s : State) : (setCtrl v s).reply = s.reply := rfl

/-! ## answer -/

@[simp] theorem answer_ie (data : Word) (err : Bool) (s : State) : (answer data err s).ie = s.ie := rfl
@[simp] theorem answer_busy (data : Word) (err : Bool) (s : State) : (answer data err s).busy = s.busy := rfl
@[simp] theorem answer_done (data : Word) (err : Bool) (s : State) : (answer data err s).done = s.done := rfl
@[simp] theorem answer_werr (data : Word) (err : Bool) (s : State) : (answer data err s).werr = s.werr := rfl
@[simp] theorem answer_errcode (data : Word) (err : Bool) (s : State) : (answer data err s).errcode = s.errcode := rfl
@[simp] theorem answer_cmd (data : Word) (err : Bool) (s : State) : (answer data err s).cmd = s.cmd := rfl
@[simp] theorem answer_errPos (data : Word) (err : Bool) (s : State) : (answer data err s).errPos = s.errPos := rfl
@[simp] theorem answer_errKind (data : Word) (err : Bool) (s : State) : (answer data err s).errKind = s.errKind := rfl
@[simp] theorem answer_width (data : Word) (err : Bool) (s : State) : (answer data err s).width = s.width := rfl
@[simp] theorem answer_height (data : Word) (err : Bool) (s : State) : (answer data err s).height = s.height := rfl
@[simp] theorem answer_dimNx (data : Word) (err : Bool) (s : State) : (answer data err s).dimNx = s.dimNx := rfl
@[simp] theorem answer_dimNy (data : Word) (err : Bool) (s : State) : (answer data err s).dimNy = s.dimNy := rfl
@[simp] theorem answer_punch (data : Word) (err : Bool) (s : State) : (answer data err s).punch = s.punch := rfl
@[simp] theorem answer_pixlen (data : Word) (err : Bool) (s : State) : (answer data err s).pixlen = s.pixlen := rfl
@[simp] theorem answer_hashlen (data : Word) (err : Bool) (s : State) : (answer data err s).hashlen = s.hashlen := rfl
@[simp] theorem answer_src0 (data : Word) (err : Bool) (s : State) : (answer data err s).src0 = s.src0 := rfl
@[simp] theorem answer_src1 (data : Word) (err : Bool) (s : State) : (answer data err s).src1 = s.src1 := rfl
@[simp] theorem answer_result (data : Word) (err : Bool) (s : State) : (answer data err s).result = s.result := rfl
@[simp] theorem answer_maxreg (data : Word) (err : Bool) (s : State) : (answer data err s).maxreg = s.maxreg := rfl
@[simp] theorem answer_mem (data : Word) (err : Bool) (s : State) : (answer data err s).mem = s.mem := rfl
@[simp] theorem answer_pending (data : Word) (err : Bool) (s : State) : (answer data err s).pending = s.pending := rfl
@[simp] theorem answer_draws (data : Word) (err : Bool) (s : State) : (answer data err s).draws = s.draws := rfl
@[simp] theorem answer_turns (data : Word) (err : Bool) (s : State) : (answer data err s).turns = s.turns := rfl
@[simp] theorem answer_reply (data : Word) (err : Bool) (s : State) : (answer data err s).reply = some ⟨data, err⟩ := rfl

/-! ## writeHash -/

@[simp] theorem writeHash_ie (s : State) (p : Nat) (bs : List Byte) : (writeHash s p bs).ie = s.ie := rfl
@[simp] theorem writeHash_busy (s : State) (p : Nat) (bs : List Byte) : (writeHash s p bs).busy = s.busy := rfl
@[simp] theorem writeHash_done (s : State) (p : Nat) (bs : List Byte) : (writeHash s p bs).done = s.done := rfl
@[simp] theorem writeHash_werr (s : State) (p : Nat) (bs : List Byte) : (writeHash s p bs).werr = s.werr := rfl
@[simp] theorem writeHash_errcode (s : State) (p : Nat) (bs : List Byte) : (writeHash s p bs).errcode = s.errcode := rfl
@[simp] theorem writeHash_cmd (s : State) (p : Nat) (bs : List Byte) : (writeHash s p bs).cmd = s.cmd := rfl
@[simp] theorem writeHash_errPos (s : State) (p : Nat) (bs : List Byte) : (writeHash s p bs).errPos = s.errPos := rfl
@[simp] theorem writeHash_errKind (s : State) (p : Nat) (bs : List Byte) : (writeHash s p bs).errKind = s.errKind := rfl
@[simp] theorem writeHash_width (s : State) (p : Nat) (bs : List Byte) : (writeHash s p bs).width = s.width := rfl
@[simp] theorem writeHash_height (s : State) (p : Nat) (bs : List Byte) : (writeHash s p bs).height = s.height := rfl
@[simp] theorem writeHash_dimNx (s : State) (p : Nat) (bs : List Byte) : (writeHash s p bs).dimNx = s.dimNx := rfl
@[simp] theorem writeHash_dimNy (s : State) (p : Nat) (bs : List Byte) : (writeHash s p bs).dimNy = s.dimNy := rfl
@[simp] theorem writeHash_punch (s : State) (p : Nat) (bs : List Byte) : (writeHash s p bs).punch = s.punch := rfl
@[simp] theorem writeHash_pixlen (s : State) (p : Nat) (bs : List Byte) : (writeHash s p bs).pixlen = s.pixlen := rfl
@[simp] theorem writeHash_hashlen (s : State) (p : Nat) (bs : List Byte) : (writeHash s p bs).hashlen = s.hashlen := rfl
@[simp] theorem writeHash_src0 (s : State) (p : Nat) (bs : List Byte) : (writeHash s p bs).src0 = s.src0 := rfl
@[simp] theorem writeHash_src1 (s : State) (p : Nat) (bs : List Byte) : (writeHash s p bs).src1 = s.src1 := rfl
@[simp] theorem writeHash_result (s : State) (p : Nat) (bs : List Byte) : (writeHash s p bs).result = s.result := rfl
@[simp] theorem writeHash_maxreg (s : State) (p : Nat) (bs : List Byte) : (writeHash s p bs).maxreg = s.maxreg := rfl
@[simp] theorem writeHash_mem (s : State) (p : Nat) (bs : List Byte) : (writeHash s p bs).mem = Memory.writeBytes s.mem (hashBase + p) bs := rfl
@[simp] theorem writeHash_pending (s : State) (p : Nat) (bs : List Byte) : (writeHash s p bs).pending = s.pending := rfl
@[simp] theorem writeHash_draws (s : State) (p : Nat) (bs : List Byte) : (writeHash s p bs).draws = s.draws := rfl
@[simp] theorem writeHash_turns (s : State) (p : Nat) (bs : List Byte) : (writeHash s p bs).turns = s.turns := rfl
@[simp] theorem writeHash_reply (s : State) (p : Nat) (bs : List Byte) : (writeHash s p bs).reply = s.reply := rfl

/-! ## writeGrid -/

@[simp] theorem writeGrid_ie (s : State) (k : Nat) (ts : List Triple) : (writeGrid s k ts).ie = s.ie := rfl
@[simp] theorem writeGrid_busy (s : State) (k : Nat) (ts : List Triple) : (writeGrid s k ts).busy = s.busy := rfl
@[simp] theorem writeGrid_done (s : State) (k : Nat) (ts : List Triple) : (writeGrid s k ts).done = s.done := rfl
@[simp] theorem writeGrid_werr (s : State) (k : Nat) (ts : List Triple) : (writeGrid s k ts).werr = s.werr := rfl
@[simp] theorem writeGrid_errcode (s : State) (k : Nat) (ts : List Triple) : (writeGrid s k ts).errcode = s.errcode := rfl
@[simp] theorem writeGrid_cmd (s : State) (k : Nat) (ts : List Triple) : (writeGrid s k ts).cmd = s.cmd := rfl
@[simp] theorem writeGrid_errPos (s : State) (k : Nat) (ts : List Triple) : (writeGrid s k ts).errPos = s.errPos := rfl
@[simp] theorem writeGrid_errKind (s : State) (k : Nat) (ts : List Triple) : (writeGrid s k ts).errKind = s.errKind := rfl
@[simp] theorem writeGrid_width (s : State) (k : Nat) (ts : List Triple) : (writeGrid s k ts).width = s.width := rfl
@[simp] theorem writeGrid_height (s : State) (k : Nat) (ts : List Triple) : (writeGrid s k ts).height = s.height := rfl
@[simp] theorem writeGrid_dimNx (s : State) (k : Nat) (ts : List Triple) : (writeGrid s k ts).dimNx = s.dimNx := rfl
@[simp] theorem writeGrid_dimNy (s : State) (k : Nat) (ts : List Triple) : (writeGrid s k ts).dimNy = s.dimNy := rfl
@[simp] theorem writeGrid_punch (s : State) (k : Nat) (ts : List Triple) : (writeGrid s k ts).punch = s.punch := rfl
@[simp] theorem writeGrid_pixlen (s : State) (k : Nat) (ts : List Triple) : (writeGrid s k ts).pixlen = s.pixlen := rfl
@[simp] theorem writeGrid_hashlen (s : State) (k : Nat) (ts : List Triple) : (writeGrid s k ts).hashlen = s.hashlen := rfl
@[simp] theorem writeGrid_src0 (s : State) (k : Nat) (ts : List Triple) : (writeGrid s k ts).src0 = s.src0 := rfl
@[simp] theorem writeGrid_src1 (s : State) (k : Nat) (ts : List Triple) : (writeGrid s k ts).src1 = s.src1 := rfl
@[simp] theorem writeGrid_result (s : State) (k : Nat) (ts : List Triple) : (writeGrid s k ts).result = s.result := rfl
@[simp] theorem writeGrid_maxreg (s : State) (k : Nat) (ts : List Triple) : (writeGrid s k ts).maxreg = s.maxreg := rfl
@[simp] theorem writeGrid_mem (s : State) (k : Nat) (ts : List Triple) : (writeGrid s k ts).mem = Memory.writeBytes s.mem (gridAddr k) (ts.flatMap tripleBytes) := rfl
@[simp] theorem writeGrid_pending (s : State) (k : Nat) (ts : List Triple) : (writeGrid s k ts).pending = s.pending := rfl
@[simp] theorem writeGrid_draws (s : State) (k : Nat) (ts : List Triple) : (writeGrid s k ts).draws = s.draws := rfl
@[simp] theorem writeGrid_turns (s : State) (k : Nat) (ts : List Triple) : (writeGrid s k ts).turns = s.turns := rfl
@[simp] theorem writeGrid_reply (s : State) (k : Nat) (ts : List Triple) : (writeGrid s k ts).reply = s.reply := rfl

/-! ## writePix -/

@[simp] theorem writePix_ie (s : State) (bs : List Byte) : (writePix s bs).ie = s.ie := rfl
@[simp] theorem writePix_busy (s : State) (bs : List Byte) : (writePix s bs).busy = s.busy := rfl
@[simp] theorem writePix_done (s : State) (bs : List Byte) : (writePix s bs).done = s.done := rfl
@[simp] theorem writePix_werr (s : State) (bs : List Byte) : (writePix s bs).werr = s.werr := rfl
@[simp] theorem writePix_errcode (s : State) (bs : List Byte) : (writePix s bs).errcode = s.errcode := rfl
@[simp] theorem writePix_cmd (s : State) (bs : List Byte) : (writePix s bs).cmd = s.cmd := rfl
@[simp] theorem writePix_errPos (s : State) (bs : List Byte) : (writePix s bs).errPos = s.errPos := rfl
@[simp] theorem writePix_errKind (s : State) (bs : List Byte) : (writePix s bs).errKind = s.errKind := rfl
@[simp] theorem writePix_width (s : State) (bs : List Byte) : (writePix s bs).width = s.width := rfl
@[simp] theorem writePix_height (s : State) (bs : List Byte) : (writePix s bs).height = s.height := rfl
@[simp] theorem writePix_dimNx (s : State) (bs : List Byte) : (writePix s bs).dimNx = s.dimNx := rfl
@[simp] theorem writePix_dimNy (s : State) (bs : List Byte) : (writePix s bs).dimNy = s.dimNy := rfl
@[simp] theorem writePix_punch (s : State) (bs : List Byte) : (writePix s bs).punch = s.punch := rfl
@[simp] theorem writePix_pixlen (s : State) (bs : List Byte) : (writePix s bs).pixlen = s.pixlen := rfl
@[simp] theorem writePix_hashlen (s : State) (bs : List Byte) : (writePix s bs).hashlen = s.hashlen := rfl
@[simp] theorem writePix_src0 (s : State) (bs : List Byte) : (writePix s bs).src0 = s.src0 := rfl
@[simp] theorem writePix_src1 (s : State) (bs : List Byte) : (writePix s bs).src1 = s.src1 := rfl
@[simp] theorem writePix_result (s : State) (bs : List Byte) : (writePix s bs).result = s.result := rfl
@[simp] theorem writePix_maxreg (s : State) (bs : List Byte) : (writePix s bs).maxreg = s.maxreg := rfl
@[simp] theorem writePix_mem (s : State) (bs : List Byte) : (writePix s bs).mem = Memory.writeBytes s.mem pixBase bs := rfl
@[simp] theorem writePix_pending (s : State) (bs : List Byte) : (writePix s bs).pending = s.pending := rfl
@[simp] theorem writePix_draws (s : State) (bs : List Byte) : (writePix s bs).draws = s.draws := rfl
@[simp] theorem writePix_turns (s : State) (bs : List Byte) : (writePix s bs).turns = s.turns := rfl
@[simp] theorem writePix_reply (s : State) (bs : List Byte) : (writePix s bs).reply = s.reply := rfl

/-! ## withIssued -/

@[simp] theorem withIssued_ie (s : State) (w : Word) : (withIssued s w).ie = s.ie := rfl
@[simp] theorem withIssued_busy (s : State) (w : Word) : (withIssued s w).busy = true := rfl
@[simp] theorem withIssued_done (s : State) (w : Word) : (withIssued s w).done = false := rfl
@[simp] theorem withIssued_werr (s : State) (w : Word) : (withIssued s w).werr = s.werr := rfl
@[simp] theorem withIssued_errcode (s : State) (w : Word) : (withIssued s w).errcode = 0 := rfl
@[simp] theorem withIssued_cmd (s : State) (w : Word) : (withIssued s w).cmd = w := rfl
@[simp] theorem withIssued_errPos (s : State) (w : Word) : (withIssued s w).errPos = 0 := rfl
@[simp] theorem withIssued_errKind (s : State) (w : Word) : (withIssued s w).errKind = 0 := rfl
@[simp] theorem withIssued_width (s : State) (w : Word) : (withIssued s w).width = s.width := rfl
@[simp] theorem withIssued_height (s : State) (w : Word) : (withIssued s w).height = s.height := rfl
@[simp] theorem withIssued_dimNx (s : State) (w : Word) : (withIssued s w).dimNx = s.dimNx := rfl
@[simp] theorem withIssued_dimNy (s : State) (w : Word) : (withIssued s w).dimNy = s.dimNy := rfl
@[simp] theorem withIssued_punch (s : State) (w : Word) : (withIssued s w).punch = s.punch := rfl
@[simp] theorem withIssued_pixlen (s : State) (w : Word) : (withIssued s w).pixlen = s.pixlen := rfl
@[simp] theorem withIssued_hashlen (s : State) (w : Word) : (withIssued s w).hashlen = s.hashlen := rfl
@[simp] theorem withIssued_src0 (s : State) (w : Word) : (withIssued s w).src0 = s.src0 := rfl
@[simp] theorem withIssued_src1 (s : State) (w : Word) : (withIssued s w).src1 = s.src1 := rfl
@[simp] theorem withIssued_result (s : State) (w : Word) : (withIssued s w).result = s.result := rfl
@[simp] theorem withIssued_maxreg (s : State) (w : Word) : (withIssued s w).maxreg = s.maxreg := rfl
@[simp] theorem withIssued_mem (s : State) (w : Word) : (withIssued s w).mem = s.mem := rfl
@[simp] theorem withIssued_pending (s : State) (w : Word) : (withIssued s w).pending = some w := rfl
@[simp] theorem withIssued_draws (s : State) (w : Word) : (withIssued s w).draws = s.draws := rfl
@[simp] theorem withIssued_turns (s : State) (w : Word) : (withIssued s w).turns = .engine :: s.turns := rfl
@[simp] theorem withIssued_reply (s : State) (w : Word) : (withIssued s w).reply = s.reply := rfl

end Sys2Proof.Machine
end

