-- ==== Sys2Proof/Laws/Ops.lean ====
section
/-! SUPPORT. For each shared operation, what it can do, said once. -/

namespace Sys2Proof.Machine

/-! ## Completion -/

/-- A completion step gives a next state in two ways: the command's writes and success, or the error alone. -/
theorem commit_next_iff (s t : State) (r : Except Stop State) :
    commit s r = .next t ↔
      (∃ u, r = .ok u ∧ t = complete u) ∨ (∃ e, r = .error (.raise e) ∧ t = raiseError e s) := by
  rcases r with (e | a) | u <;> simp [commit, eq_comm]

/-- A completion step stops only for a poison byte. -/
theorem commit_fault_iff (s : State) (r : Except Stop State) (f : Fault) :
    commit s r = .fault f ↔ ∃ a, r = .error (.poison a) ∧ f = .commandReadsPoison a := by
  rcases r with (e | a) | u <;> simp [commit, eq_comm]

/-- A completion step never refuses. -/
theorem commit_not_refused (s : State) (r : Except Stop State) (x : Refusal) : commit s r ≠ .refused x := by
  rcases r with (e | a) | u <;> simp [commit]

@[simp] theorem commit_ok (s u : State) : commit s (.ok u) = .next (complete u) := rfl

@[simp] theorem commit_raise (s : State) (e : CmdError) : commit s (.error (.raise e)) = .next (raiseError e s) := rfl

@[simp] theorem commit_poison (s : State) (a : Nat) :
    commit s (.error (.poison a)) = .fault (.commandReadsPoison a) := rfl

/-- Success leaves the record of success. -/
theorem complete_succeeded (s : State) : Succeeded (complete s) := by simp [Succeeded, Completed]

/-- An error leaves its record and nothing else. -/
theorem raiseError_failedOnly (e : CmdError) (s : State) :
    FailedOnly s (raiseError e s) (errCodeBits e.code) e.kind e.pos := by
  simp [FailedOnly, Completed, SameInputs, SameOutputs]

/-! ## Word checks -/

/-- The field checks pass exactly on a field in range. -/
theorem checkField_cases (len : BitVec 3) (hoff : BitVec 8) :
    (checkField len hoff = .ok () ∧ fieldInRange len hoff = true) ∨
      (checkField len hoff = raiseErr .illegalCommand 4 0 ∧ (len.toNat < 1 ∨ 4 < len.toNat)) ∨
      (checkField len hoff = raiseErr .illegalCommand 5 0 ∧ 1 ≤ len.toNat ∧ len.toNat ≤ 4 ∧
        256 < hoff.toNat + len.toNat) := by
  unfold checkField fieldInRange
  split
  · next h => exact .inr (.inl ⟨rfl, h⟩)
  · split
    · exact .inr (.inr ⟨rfl, by omega, by omega, by omega⟩)
    · exact .inl ⟨rfl, by simp; omega⟩

theorem checkField_ok {len : BitVec 3} {hoff : BitVec 8} (h : fieldInRange len hoff = true) :
    checkField len hoff = .ok () := by
  rcases checkField_cases len hoff with ⟨h, _⟩ | ⟨_, h'⟩ | ⟨_, h'⟩
  · exact h
  all_goals simp [fieldInRange] at h; omega

/-- The index check passes exactly on an index in range. -/
theorem checkIndex_cases (idx : BitVec 7) :
    (checkIndex idx = .ok () ∧ indexInRange idx = true) ∨
      (checkIndex idx = raiseErr .illegalCommand 6 0 ∧ 80 < idx.toNat) := by
  unfold checkIndex indexInRange
  split
  · next h => exact .inr ⟨rfl, h⟩
  · exact .inl ⟨rfl, by simp; omega⟩

theorem checkIndex_ok {idx : BitVec 7} (h : indexInRange idx = true) : checkIndex idx = .ok () := by
  rcases checkIndex_cases idx with ⟨h, _⟩ | ⟨_, h'⟩
  · exact h
  · simp [indexInRange] at h; omega

/-! ## Reads of the memories by index -/

/-- A hash byte is read, or it is poison. -/
theorem readHash_cases (s : State) (p : Nat) :
    (∃ b, readHash s p = .ok b ∧ Memory.read s.mem (hashBase + p) = some b) ∨
      (readHash s p = .error (.poison (hashBase + p)) ∧ Memory.read s.mem (hashBase + p) = none) := by
  unfold readHash
  cases h : Memory.read s.mem (hashBase + p) <;> simp

/-- A pixel byte is read, or it is poison. -/
theorem readPix_cases (s : State) (a : Nat) :
    (∃ b, readPix s a = .ok b ∧ Memory.read s.mem (pixBase + a) = some b) ∨
      (readPix s a = .error (.poison (pixBase + a)) ∧ Memory.read s.mem (pixBase + a) = none) := by
  unfold readPix
  cases h : Memory.read s.mem (pixBase + a) <;> simp

/-- A binary64 value is read from its eight bytes, or one of them is poison. -/
theorem readFloat_cases (s : State) (a : Nat) :
    (∃ v, readFloat s a = .ok v ∧ HoldsFrom s.mem a (leBytes 8 v.toNat)) ∨
      (∃ i < 8, readFloat s a = .error (.poison (a + i)) ∧ Memory.read s.mem (a + i) = none) := by
  rcases bytesFrom_cases s.mem a 8 with ⟨bs, hb, hl, hs⟩ | ⟨i, hi, hb, hn⟩
  · refine .inl ⟨BitVec.ofNat 64 (leNat bs), by simp [readFloat, hb, orPoison], ?_⟩
    have hlt := leNat_lt bs
    rw [hl] at hlt
    have hv : (BitVec.ofNat 64 (leNat bs)).toNat = leNat bs := by
      simp only [BitVec.toNat_ofNat]
      exact Nat.mod_eq_of_lt (by simpa using hlt)
    have := leBytes_leNat bs
    rw [hl] at this
    rw [hv, this]
    exact hs
  · exact .inr ⟨i, hi, by simp [readFloat, hb, orPoison], hn⟩

/-- A value whose bytes memory holds is read. -/
theorem readFloat_holds (s : State) (a : Nat) (v : F64) (h : HoldsFrom s.mem a (leBytes 8 v.toNat)) :
    readFloat s a = .ok v := by
  rcases bytesFrom_cases s.mem a 8 with ⟨bs, hb, hl, hs⟩ | ⟨i, hi, hb, hn⟩
  · have he : bs = leBytes 8 v.toNat := by
      apply List.ext_getElem (by simp [hl])
      intro i h1 h2
      have := (hs i h1).symm.trans (h i h2)
      simpa using this
    subst he
    have hn : leNat (leBytes 8 v.toNat) = v.toNat := by
      rw [leNat_leBytes]
      exact Nat.mod_eq_of_lt (by simpa using v.isLt)
    simp [readFloat, hb, orPoison, hn]
  · have := h i (by simpa using hi)
    rw [hn] at this
    simp at this

/-- A grid entry is read, or one of its 24 bytes is poison. -/
theorem readGrid_cases (s : State) (k : Nat) :
    (∃ t, readGrid s k = .ok t) ∨
      (∃ i < 24, readGrid s k = .error (.poison (gridAddr k + i)) ∧ Memory.read s.mem (gridAddr k + i) = none) := by
  unfold readGrid
  rcases readFloat_cases s (gridAddr k) with ⟨r, hr, _⟩ | ⟨i, hi, hr, hn⟩
  · rcases readFloat_cases s (gridAddr k + 8) with ⟨g, hg, _⟩ | ⟨i, hi, hg, hn⟩
    · rcases readFloat_cases s (gridAddr k + 16) with ⟨b, hb, _⟩ | ⟨i, hi, hb, hn⟩
      · exact .inl ⟨⟨r, g, b⟩, by simp [hr, hg, hb]; rfl⟩
      · refine .inr ⟨16 + i, by omega, ?_, by rw [← Nat.add_assoc]; exact hn⟩
        rw [hr, hg, hb, ← Nat.add_assoc]
        rfl
    · refine .inr ⟨8 + i, by omega, ?_, by rw [← Nat.add_assoc]; exact hn⟩
      rw [hr, hg, ← Nat.add_assoc]
      rfl
  · refine .inr ⟨i, by omega, ?_, hn⟩
    rw [hr]
    rfl

/-- A grid entry whose bytes are defined is read. -/
theorem readGrid_defined (s : State) (k : Nat) (h : DefinedFrom s (gridAddr k) 24) : ∃ t, readGrid s k = .ok t := by
  rcases readGrid_cases s k with h' | ⟨i, hi, _, hn⟩
  · exact h'
  · have := h i hi
    simp [Defined, hn] at this

/-- Grid entries whose bytes are defined are read. -/
theorem readGridFrom_defined (s : State) (k count : Nat) (h : DefinedFrom s (gridAddr k) (24 * count)) :
    ∃ ts, readGridFrom s k count = .ok ts ∧ ts.length = count := by
  induction count generalizing k with
  | zero => exact ⟨[], rfl, rfl⟩
  | succ n ih =>
    obtain ⟨t, ht⟩ := readGrid_defined s k fun i hi => h i (by omega)
    obtain ⟨ts, hts, hl⟩ := ih (k + 1) fun i hi => by
      have := h (24 + i) (by omega)
      simpa [gridAddr, Nat.mul_add, Nat.add_assoc] using this
    exact ⟨t :: ts, by simp only [readGridFrom, ht, hts]; rfl, by simp [hl]⟩

/-- A pixel whose colour bytes are defined is read. -/
theorem readRgb_defined (s : State) (q : Nat) (h : DefinedFrom s (pixBase + 4 * q) 3) : ∃ p, readRgb s q = .ok p := by
  have one (j : Nat) (hj : j < 3) : ∃ b, readPix s (4 * q + j) = .ok b := by
    rcases readPix_cases s (4 * q + j) with ⟨b, hb, _⟩ | ⟨_, hn⟩
    · exact ⟨b, hb⟩
    · have := h j hj
      rw [Nat.add_assoc] at this
      simp [Defined, hn] at this
  obtain ⟨r, hr⟩ := one 0 (by omega)
  obtain ⟨g, hg⟩ := one 1 (by omega)
  obtain ⟨b, hb⟩ := one 2 (by omega)
  exact ⟨⟨r, g, b⟩, by rw [Nat.add_zero] at hr; simp only [readRgb, hr, hg, hb]; rfl⟩

/-- Pixels whose colour bytes are defined are read. -/
theorem readRgbFrom_defined (s : State) (q count : Nat)
    (h : ∀ i < count, DefinedFrom s (pixBase + 4 * (q + i)) 3) :
    ∃ ps, readRgbFrom s q count = .ok ps ∧ ps.length = count := by
  induction count generalizing q with
  | zero => exact ⟨[], rfl, rfl⟩
  | succ n ih =>
    obtain ⟨p, hp⟩ := readRgb_defined s q (by simpa using h 0 (by omega))
    obtain ⟨ps, hps, hl⟩ := ih (q + 1) fun i hi => by
      have := h (i + 1) (by omega)
      simpa [Nat.add_assoc, Nat.add_comm 1 i] using this
    exact ⟨p :: ps, by simp only [readRgbFrom, hp, hps]; rfl, by simp [hl]⟩

/-! ## The host port -/

/-- A host read has no effect on the engine: it is answered, or a poison byte stops the model. -/
theorem hostRead_cases (w : Width) (a : Word) (s : State) :
    (∃ v err, hostRead w a s = .next (answer v err s)) ∨
      (hostRead w a s = .next (freeAnswer w s) ∧ s.busy = true) ∨
      (∃ p, hostRead w a s = .fault (.hostReadsPoison p) ∧ Memory.read s.mem p = none ∧ s.busy = false) := by
  unfold hostRead
  dsimp only
  split
  · exact .inl ⟨0, true, rfl⟩
  · split
    · split
      · next h => exact .inr (.inl ⟨rfl, by simpa using (Bool.and_eq_true _ _ ▸ h).1⟩)
      · exact .inl ⟨_, _, rfl⟩
    · split
      · next h => exact .inr (.inl ⟨rfl, h⟩)
      · next hb =>
        rcases bytesFrom_cases s.mem a.toNat (widthBytes w) with ⟨bs, h, _⟩ | ⟨i, _, h, hn⟩
        · exact .inl ⟨_, _, by rw [h]⟩
        · exact .inr (.inr ⟨_, by rw [h], hn, by simpa using hb⟩)

/-- A host write is a bus error without effect, or takes its effect; it never stops the model. -/
theorem hostWrite_cases (w : Width) (a v : Word) (s : State) :
    (hostWrite w a v s = .next (busError s) ∧ accessOk w a.toNat = false) ∨
      (hostWrite w a v s = .next (answer 0 false (writeEffect w a.toNat v s)) ∧ accessOk w a.toNat = true) := by
  unfold hostWrite
  dsimp only
  split
  · next h => exact .inl ⟨rfl, h⟩
  · next h => exact .inr ⟨rfl, by simpa using h⟩

/-- A register write leaves the memories, the draws and the host's side alone. -/
theorem csrWrite_frame (c : Csr) (v : Word) (s : State) :
    (csrWrite c v s).mem = s.mem ∧ (csrWrite c v s).draws = s.draws ∧ (csrWrite c v s).turns = s.turns ∧
      (csrWrite c v s).reply = s.reply := by
  cases c <;> simp only [csrWrite, storeUnlessBusy] <;> (try split) <;>
    simp [acceptCommand, dropWrite, clearStatus, setCtrl]

/-! ## Steps -/

/-- With no turn left, or its own turn first, the engine moves. -/
theorem step_engine (s : State) (h : s.turns = []) : step s = completionStep s := by
  simp [step, agentStep, h]

theorem step_engine_turn (s : State) (ts : List Turn) (h : s.turns = .engine :: ts) :
    step s = completionStep { s with turns := ts } := by
  simp [step, agentStep, h, turnStep]

end Sys2Proof.Machine
end

