-- ==== Sys2Proof/Laws/PerInstr.lean ====
section
/-! SUPPORT. Facts about every command as syntax, one lemma per constructor: the encoder keeps to the one format of
spec/30_encoding.md R90, its reserved bits 0 and its OP a value of R93. -/

namespace Sys2Proof.Laws.Format

/-- The word of a command has its reserved bits 0 and an OP of the opcode map. -/
def Statement (i : Instr) : Prop :=
  reservedField (encode i) = 0 ∧ topField (encode i) = 0 ∧ (opcodeMap (opField (encode i))).isSome = true

/-- A packed word of an OP of the map keeps to the format. -/
theorem pack_format (op : BitVec 8) (len : BitVec 3) (hoff : BitVec 8) (idx : BitVec 7)
    (h : (opcodeMap op).isSome = true) :
    reservedField (packFields op len hoff idx) = 0 ∧ topField (packFields op len hoff idx) = 0 ∧
      (opcodeMap (opField (packFields op len hoff idx))).isSome = true :=
  ⟨by simp, by simp, by simpa using h⟩

theorem nop : Statement .nop := pack_format _ _ _ _ (by decide)

theorem b83enc (len : BitVec 3) (hoff : BitVec 8) : Statement (.b83enc len hoff) := pack_format _ _ _ _ (by decide)

theorem b83dec (len : BitVec 3) (hoff : BitVec 8) : Statement (.b83dec len hoff) := pack_format _ _ _ _ (by decide)

theorem s2l : Statement .s2l := pack_format _ _ _ _ (by decide)

theorem l2s : Statement .l2s := pack_format _ _ _ _ (by decide)

theorem spow : Statement .spow := pack_format _ _ _ _ (by decide)

theorem qmax : Statement .qmax := pack_format _ _ _ _ (by decide)

theorem qdc : Statement .qdc := pack_format _ _ _ _ (by decide)

theorem qac (idx : BitVec 7) : Statement (.qac idx) := pack_format _ _ _ _ (by decide)

theorem dqmax : Statement .dqmax := pack_format _ _ _ _ (by decide)

theorem dqdc : Statement .dqdc := pack_format _ _ _ _ (by decide)

theorem dqac (idx : BitVec 7) : Statement (.dqac idx) := pack_format _ _ _ _ (by decide)

theorem dctf : Statement .dctf := pack_format _ _ _ _ (by decide)

theorem dcti : Statement .dcti := pack_format _ _ _ _ (by decide)

theorem validate : Statement .validate := pack_format _ _ _ _ (by decide)

theorem encode : Statement .encode := pack_format _ _ _ _ (by decide)

theorem decode : Statement .decode := pack_format _ _ _ _ (by decide)

end Sys2Proof.Laws.Format
end

