-- ==== Sys2Proof/Laws/Port.lean ====
section
/-! SUPPORT. What the port answers in each region of the address map, so that no later proof unfolds the map. -/

namespace Sys2Proof.Machine

/-! ## The map -/

/-- The CSR window lies below 0x100. -/
theorem regionOf_csr {a : Nat} (h : a < 0x100) : regionOf a = .csr := by
  simp [regionOf, hashBase, h]

/-- Nothing from 0x100 on is in the CSR window. -/
theorem regionOf_ne_csr {a : Nat} (h : 0x100 ≤ a) : regionOf a ≠ .csr := by
  simp only [regionOf, hashBase, Nat.not_lt.mpr h, if_false]
  repeat' split
  all_goals simp

/-- HASHMEM. -/
theorem regionOf_hash {a : Nat} (h : 0x100 ≤ a) (h' : a < 0x200) : regionOf a = .hash := by
  simp [regionOf, hashBase, Nat.not_lt.mpr h, h']

/-- GRIDMEM. -/
theorem regionOf_grid {a : Nat} (h : 0x800 ≤ a) (h' : a < 0xF98) : regionOf a = .grid := by
  have h1 : ¬ a < 0x100 := by omega
  have h2 : ¬ a < 0x200 := by omega
  have h3 : ¬ a < 0x800 := by omega
  simp [regionOf, hashBase, gridBase, h1, h2, h3, h']

/-- PIXMEM. -/
theorem regionOf_pix {a : Nat} (h : 0x10000 ≤ a) (h' : a < 0x10000 + pixmemBytes) : regionOf a = .pix := by
  unfold regionOf hashBase gridBase pixBase
  repeat' split
  all_goals first
    | rfl
    | omega

/-- The three reserved parts of the map. -/
theorem regionOf_reserved {a : Nat}
    (h : (0x200 ≤ a ∧ a < 0x800) ∨ (0xF98 ≤ a ∧ a < 0x10000) ∨ 0x10000 + pixmemBytes ≤ a) :
    regionOf a = .reserved := by
  unfold regionOf hashBase gridBase pixBase
  repeat' split
  all_goals first
    | rfl
    | omega

/-- A word access in the CSR window is served exactly where it is aligned. -/
theorem accessOk_csr {a : Nat} (h : a < 0x100) (h4 : a % 4 = 0) : accessOk .word a = true := by
  have h' : regionOf (a + 3) = .csr := regionOf_csr (by omega)
  simp [accessOk, regionTakes, widthBytes, regionOf_csr h, h', h4]

/-! ## Reads and writes that are served -/

/-- A register write. -/
theorem hostWrite_csr (a v : Word) (s : State) (h : a.toNat < 0x100) (h4 : a.toNat % 4 = 0) :
    hostWrite .word a v s = .next (answer 0 false (csrWrite (csrAt a.toNat) v s)) := by
  simp [hostWrite, accessOk_csr h h4, writeEffect, regionOf_csr h]

/-- A register read outside the busy window, or of a register that no command writes. -/
theorem hostRead_csr (a : Word) (s : State) (h : a.toNat < 0x100) (h4 : a.toNat % 4 = 0)
    (hb : s.busy = false ∨ csrVolatile (csrAt a.toNat) = false) :
    hostRead .word a s = .next (answer (csrRead s (csrAt a.toNat)) false s) := by
  rcases hb with hb | hb <;> simp [hostRead, accessOk_csr h h4, regionOf_csr h, hb]

/-- A memory write outside the busy window. -/
theorem hostWrite_memory (w : Width) (a v : Word) (s : State) (h : 0x100 ≤ a.toNat) (ok : accessOk w a.toNat = true)
    (hb : s.busy = false) :
    hostWrite w a v s = .next (answer 0 false
      { s with mem := Memory.writeBytes s.mem a.toNat (leBytes (widthBytes w) v.toNat) }) := by
  simp only [hostWrite, writeEffect, storeUnlessBusy, ok, regionOf_ne_csr h, hb]
  rfl

/-- A memory write in the busy window is dropped. -/
theorem hostWrite_memory_busy (w : Width) (a v : Word) (s : State) (h : 0x100 ≤ a.toNat)
    (ok : accessOk w a.toNat = true) (hb : s.busy = true) :
    hostWrite w a v s = .next (answer 0 false (dropWrite s)) := by
  simp only [hostWrite, writeEffect, storeUnlessBusy, ok, regionOf_ne_csr h, hb]
  rfl

/-- A memory read outside the busy window of bytes that memory holds. -/
theorem hostRead_memory (w : Width) (a : Word) (s : State) (bs : List Byte) (h : 0x100 ≤ a.toNat)
    (ok : accessOk w a.toNat = true) (hb : s.busy = false)
    (hbs : bytesFrom s.mem a.toNat (widthBytes w) = .ok bs) :
    hostRead w a s = .next (answer (BitVec.ofNat 32 (leNat bs)) false s) := by
  simp only [hostRead, ok, regionOf_ne_csr h, hb, hbs]
  rfl

/-- An access that is no served one is a bus error. -/
theorem hostAccess_busError (w : Width) (a v : Word) (s : State) (h : accessOk w a.toNat = false) :
    hostRead w a s = .next (busError s) ∧ hostWrite w a v s = .next (busError s) := by
  simp [hostRead, hostWrite, h]

/-- Answering an access, whatever the answer, has no effect on the engine. -/
theorem sameEngine_answer (v : Word) (err : Bool) (s : State) : SameEngine s (answer v err s) := by
  simp [SameEngine, SameOutputs, answer]

/-- Bytes that memory holds are read. -/
theorem bytesFrom_holds (m : Memory) (a : Nat) (bs : List Byte) (h : HoldsFrom m a bs) :
    bytesFrom m a bs.length = .ok bs := by
  rcases bytesFrom_cases m a bs.length with ⟨cs, hc, hl, hs⟩ | ⟨i, hi, _, hn⟩
  · have : cs = bs := by
      apply List.ext_getElem hl
      intro i h1 h2
      simpa using (hs i h1).symm.trans (h i h2)
    rw [hc, this]
  · have := h i hi
    rw [hn] at this
    simp at this

end Sys2Proof.Machine
end

