-- ==== Sys2Proof/Tests/Slice0.lean ====
section
/-! SUPPORT. Small tests of one step each. Every expected value is written from spec/95_test_vectors.md or from the
rule named, not from the model. -/

set_option Elab.async false

namespace Sys2Proof.Tests

open Machine

/-- The command ran to a next state that passes the check. -/
def ran (o : Host.Outcome State Fault Refusal) (check : State → Bool) : Bool :=
  match o with
  | .next t => check t
  | _ => false

/-- The machine stopped for this fault. -/
def stopped (o : Host.Outcome State Fault Refusal) (f : Fault) : Bool :=
  match o with
  | .fault g => f == g
  | _ => false

/-- One command word run as the first after this state. -/
def runWord (s : State) (w : Nat) : Host.Outcome State Fault Refusal := step (s.withFetchWord 32 w)

/-- Reset with bytes of memory written. -/
def withBytes (a : Nat) (bs : List Byte) : State :=
  { State.reset with mem := Memory.writeBytes [] a bs }

/-- Reset with grid entries from k on written. -/
def withGrid (k : Nat) (ts : List Triple) : State := writeGrid State.reset k ts

/-- The words of STATUS and ERRINFO. -/
def outcomeIs (status errinfo : Word) (t : State) : Bool := statusWord t == status && errinfoWord t == errinfo

/-- A grid entry reads as this triple. -/
def gridIs (t : State) (k : Nat) (v : Triple) : Bool := (readGrid t k).toOption == some v

/-- The bytes from an address. -/
def bytesAre (t : State) (a : Nat) (bs : List Byte) : Bool := (bytesFrom t.mem a bs.length).toOption == some bs

/-! ## WellFormed: one ill-formed term for each check -/

theorem test_wf_len_zero : WellFormed (.b83dec 0 0) = false := by decide
theorem test_wf_len_five : WellFormed (.b83enc 5 0) = false := by decide
theorem test_wf_field_end : WellFormed (.b83dec 2 255) = false := by decide
theorem test_wf_last_byte : WellFormed (.b83dec 1 255) = true := by decide
theorem test_wf_index : WellFormed (.qac 81) = false := by decide
theorem test_wf_index_last : WellFormed (.dqac 80) = true := by decide

/-! ## Decode: words written out from R90, R97 and the table of 95 section 2.1 -/

theorem test_word_nop : decode 0x00000000 = .ok .nop := by rfl
theorem test_word_b83enc : decode 0b00000000000000100000010000010000 = .ok (.b83enc 4 2) := by rfl
theorem test_word_b83dec : decode 0b00000000000001100000001000010001 = .ok (.b83dec 2 6) := by rfl
theorem test_word_s2l : decode 0x00000020 = .ok .s2l := by rfl
theorem test_word_l2s : decode 0x00000021 = .ok .l2s := by rfl
theorem test_word_spow : decode 0x00000022 = .ok .spow := by rfl
theorem test_word_qmax : decode 0x00000030 = .ok .qmax := by rfl
theorem test_word_qdc : decode 0x00000031 = .ok .qdc := by rfl
theorem test_word_qac : decode 0b01010001000000000000000000110010 = .ok (.qac 81) := by rfl
theorem test_word_dqmax : decode 0x00000038 = .ok .dqmax := by rfl
theorem test_word_dqdc : decode 0x00000039 = .ok .dqdc := by rfl
theorem test_word_dqac : decode 0b01010000000000000000000000111010 = .ok (.dqac 80) := by rfl
theorem test_word_dctf : decode 0x00000040 = .ok .dctf := by rfl
theorem test_word_dcti : decode 0x00000041 = .ok .dcti := by rfl
theorem test_word_validate : decode 0x00000050 = .ok .validate := by rfl
theorem test_word_encode : decode 0x00000051 = .ok .encode := by rfl
theorem test_word_decode : decode 0x00000052 = .ok .decode := by rfl
theorem test_word_reserved_op : decode 0x000000FF = .error .unknownOp := by rfl
theorem test_word_bit11 : decode 0x00000820 = .error .reservedBits := by rfl
theorem test_word_bit31 : decode 0x80000000 = .error .reservedBits := by rfl
theorem test_word_nop_len : decode 0x00000100 = .error .unusedField := by rfl
theorem test_word_encode_idx : decode 0x01000051 = .error .unusedField := by rfl
theorem test_table_word : decodeTableWord 32 0x00FF0111 = some (.b83dec 1 255) := by decide

/-- `b83enc 4, 2` assembles to 0x0002_0410 (R97). -/
theorem test_assemble :
    assemble ['b', '8', '3', 'e', 'n', 'c', ' ', '4', ',', ' ', '2'] = some 0x00020410 := by decide

/-- A field outside its width is refused (R97). -/
theorem test_assemble_width : assemble ['Q', 'A', 'C', ' ', '0', 'x', '8', '0'] = none := by decide

/-! ## Arithmetic: values of 95 sections 2.3 and 2.5, and of IEEE 754 -/

theorem test_add_rounds : fadd [] 0x3FB999999999999A 0x3FC999999999999A = 0x3FD3333333333334 := by decide +kernel
theorem test_div_scale : fdiv [] (fofNat 15) c166 = 0x3FB721ED7E75346F := by decide +kernel
theorem test_inv_gamma : fdiv [] c1 c2_4 = cInv2_4 := by decide +kernel
theorem test_mul_overflow : fmul [] 0x7FEFFFFFFFFFFFFF c2 = 0x7FF0000000000000 := by decide +kernel
theorem test_zero_by_zero : isNaN (fdiv [] posZero posZero) = true := isNaN_producedNaN []

/-! ## Commands -/

theorem test_nop : ran (runWord State.reset 0x00) (outcomeIs 0x2 0) = true := by decide +kernel
theorem test_unknown_op : ran (runWord State.reset 0x01) (outcomeIs 0x706 0x0100) = true := by decide +kernel

theorem test_b83enc :
    ran (runWord { State.reset with src0 := 16777215 } 0x00020410) (bytesAre · 0x102 [0x54, 0x53, 0x55, 0x41])
      = true := by decide +kernel
theorem test_b83enc_truncates :
    ran (runWord { State.reset with src0 := 6889 } 0x00000210) (bytesAre · 0x100 [0x30, 0x30]) = true := by
  decide +kernel

theorem test_b83dec : ran (runWord (withBytes 0x106 [0x32, 0x79]) 0x00060211) (·.result == 226) = true := by
  decide +kernel
theorem test_b83dec_alphabet :
    ran (runWord (withBytes 0x10A [0x41, 0x21]) 0x000A0211) (outcomeIs 0x406 0x020B) = true := by decide +kernel

theorem test_s2l : ran (runWord { State.reset with src0 := 0x0A } 0x20) (·.result == 0x3F68DD6C15B1D4B4) = true := by
  decide +kernel
theorem test_s2l_white : ran (runWord { State.reset with src0 := 0xFF } 0x20) (·.result == 0x3FF0000000000000) = true := by
  decide +kernel

theorem test_l2s : ran (runWord { State.reset with src0 := 0x3F2A36E2EB1C432D } 0x21) (·.result == 1) = true := by
  decide +kernel
theorem test_l2s_nan : ran (runWord { State.reset with src0 := 0x7FF8000000000000 } 0x21) (·.result == 0) = true := by
  decide +kernel

theorem test_spow :
    ran (runWord { State.reset with src0 := 0xC008000000000000, src1 := 0x4000000000000000 } 0x22)
      (·.result == 0xC022000000000000) = true := by decide +kernel
theorem test_spow_neg_zero :
    ran (runWord { State.reset with src0 := 0x8000000000000000, src1 := 0x3FE0000000000000 } 0x22)
      (·.result == 0) = true := by decide +kernel

theorem test_qmax :
    ran (runWord { withGrid 1 [⟨0, 0xBFB999999999999A, 0⟩] with dimNx := 2, dimNy := 1 } 0x30)
      (fun t => t.result == 16 && t.maxreg == 0x3FBA3784A062B2E4) = true := by decide +kernel
theorem test_qmax_nan :
    ran (runWord { withGrid 1 [⟨0x7FF8000000000000, 0x3FA999999999999A, 0⟩] with dimNx := 2, dimNy := 1 } 0x30)
      (fun t => t.result == 7 && t.maxreg == 0x3FA8ACB90F6BF3AA) = true := by decide +kernel

theorem test_qdc :
    ran (runWord (withGrid 0 [⟨0xC014000000000000, 0x4000000000000000, 0x7FF8000000000000⟩]) 0x31)
      (·.result == 0x00FF00) = true := by decide +kernel
theorem test_qdc_poison : stopped (runWord State.reset 0x31) (.commandReadsPoison 0x800) = true := by decide +kernel

theorem test_qac :
    ran (runWord { withGrid 1 [⟨0, 0x3FB721ED7E75346F, 0xBFB721ED7E75346F⟩] with maxreg := 0x3FB721ED7E75346F } 0x01000032)
      (·.result == 3591) = true := by decide +kernel
theorem test_qac_zero_scale :
    ran (runWord { withGrid 1 [⟨c1, fneg c1, c1⟩] with maxreg := 0 } 0x01000032) (·.result == 6516) = true := by
  decide +kernel
theorem test_qch_nan : qch [] posZero posZero = 0 := qch_nan (isNaN_producedNaN _)
theorem test_qac_index : ran (runWord State.reset 0x51000032) (outcomeIs 0x706 0x0600) = true := by decide +kernel

theorem test_dqmax : ran (runWord { State.reset with src0 := 14 } 0x38) (·.maxreg == 0x3FB721ED7E75346F) = true := by
  decide +kernel
theorem test_dqmax_range : ran (runWord { State.reset with src0 := 83 } 0x38) (outcomeIs 0x706 0x0800) = true := by
  decide +kernel

theorem test_dqdc :
    ran (runWord { State.reset with src0 := 0xFF0000 } 0x39) (gridIs · 0 ⟨0x3FF0000000000000, 0, 0⟩) = true := by
  decide +kernel
theorem test_dqdc_high_bits :
    ran (runWord { State.reset with src0 := 0x1000000 } 0x39) (gridIs · 0 ⟨0, 0, 0⟩) = true := by decide +kernel

theorem test_dqac :
    ran (runWord { State.reset with src0 := 6888, maxreg := 0x3FB721ED7E75346F } 0x5000003A)
      (gridIs · 80 ⟨0x3FBC8F0598F5D548, 0xBFB2470DD288DA6A, 0x3F52470DD288DA6A⟩) = true := by decide +kernel
theorem test_dqac_punch :
    ran (runWord { State.reset with src0 := 3591, maxreg := 0x3FB721ED7E75346F, punch := 2 } 0x0100003A)
      (gridIs · 1 ⟨0, 0x3FD159721ED7E753, 0xBFD159721ED7E753⟩) = true := by decide +kernel

/-- Reset set up for a 1×1 image and a 1×1 grid. -/
def onePixel : State :=
  { withBytes 0x10000 [0xFF, 0xFF, 0xFF, 0xFF] with width := 1, height := 1, dimNx := 1, dimNy := 1, pixlen := 4 }

theorem test_dctf :
    ran (runWord onePixel 0x40) (gridIs · 0 ⟨0x3FF0000000000000, 0x3FF0000000000000, 0x3FF0000000000000⟩) = true := by
  decide +kernel
theorem test_dctf_size :
    ran (runWord { onePixel with width := 65536, height := 65536, pixlen := 0 } 0x40) (outcomeIs 0x206 0) = true := by
  decide +kernel

theorem test_dcti :
    ran (runWord { withGrid 0 [⟨0x3FF0000000000000, 0, 0xC014000000000000⟩] with
        width := 1, height := 1, dimNx := 1, dimNy := 1 } 0x41)
      (bytesAre · 0x10000 [0xFF, 0x00, 0x00, 0xFF]) = true := by decide +kernel
theorem test_dcti_empty :
    ran (runWord { State.reset with height := 7, dimNx := 1, dimNy := 1 } 0x41) (outcomeIs 0x2 0) = true := by
  decide +kernel

/-- The hash of the source's §8. -/
def sampleHash : List Byte :=
  [0x4C, 0x45, 0x48, 0x56, 0x36, 0x6E, 0x57, 0x42, 0x32, 0x79, 0x6B, 0x38, 0x70, 0x79, 0x6F, 0x30, 0x61, 0x64, 0x52,
   0x2A, 0x2E, 0x37, 0x6B, 0x43, 0x4D, 0x64, 0x6E, 0x6A]

theorem test_validate :
    ran (runWord { withBytes 0x100 sampleHash with hashlen := 28 } 0x50) (outcomeIs 0x2 0) = true := by decide +kernel
theorem test_validate_unread : ran (runWord State.reset 0x50) (outcomeIs 0x306 0) = true := by decide +kernel

theorem test_encode :
    ran (runWord onePixel 0x51) (fun t => bytesAre t 0x100 [0x30, 0x30, 0x54, 0x53, 0x55, 0x41] && t.hashlen == 6
      && t.maxreg == 0x3FF0000000000000) = true := by decide +kernel
theorem test_encode_range :
    ran (runWord { onePixel with dimNx := 0 } 0x51) (outcomeIs 0x106 0) = true := by decide +kernel

theorem test_decode :
    ran (runWord { withBytes 0x100 [0x30, 0x30, 0x54, 0x53, 0x55, 0x41] with hashlen := 6, width := 1, height := 1 } 0x52)
      (fun t => bytesAre t 0x10000 [0xFF, 0xFF, 0xFF, 0xFF] && t.maxreg == 0x3F78ACB90F6BF3AA) = true := by
  decide +kernel
theorem test_decode_grid :
    ran (runWord { withBytes 0x100 sampleHash with hashlen := 28 } 0x52)
      (fun t => t.dimNx == 4 && t.dimNy == 3
        && gridIs t 4 ⟨0x3F72470DD288DA6A, 0x3FABFCCD2A618E74, 0x3FB721ED7E75346F⟩) = true := by decide +kernel

/-! ## The port (95 section 2.7) -/

theorem test_read_id :
    ran (hostRead .word 0 State.reset) (·.reply == some ⟨0x42480107, false⟩) = true := by decide +kernel
theorem test_read_little_endian :
    ran (hostRead .word 0x100 (withBytes 0x100 [0x30, 0x30, 0x54, 0x53])) (·.reply == some ⟨0x53543030, false⟩) = true := by
  decide +kernel
theorem test_read_narrow_csr : ran (hostRead .half 0x0C State.reset) (·.reply == some ⟨0, true⟩) = true := by decide +kernel
theorem test_read_poison : stopped (hostRead .byte 0x100 State.reset) (.hostReadsPoison 0x100) = true := by decide +kernel
theorem test_write_clears_done :
    ran (hostWrite .word 0x0C 0x2 { State.reset with done := true, errcode := 7 }) (statusWord · == 0x704) = true := by
  decide +kernel
theorem test_busy_write_dropped :
    ran (hostWrite .word 0x18 5 (withIssued State.reset 0)) (fun t => t.width == 0 && t.werr) = true := by decide +kernel
theorem test_issue_by_write :
    ran (hostWrite .word 0x10 0x20410 State.reset) (fun t => t.busy && t.pending == some 0x20410) = true := by
  decide +kernel

/-! ## Witnesses: for each obligation with hypotheses, a state and operands that meet them together -/

/-- A run that passes a check is a next state that does. -/
theorem ran_next {o : Host.Outcome State Fault Refusal} {check : State → Bool} (h : ran o check = true) :
    ∃ t, o = .next t ∧ check t = true := by
  cases o with
  | next t => exact ⟨t, rfl, h⟩
  | fault f => simp [ran] at h
  | refused r => simp [ran] at h

/-- Reset with a command of this word just issued and no turn left. -/
def pendingOf (w : Word) : State := acceptCommand w State.reset

/-- The step completes with this error and touches nothing else but DONE and BUSY. -/
def failsWith (code : BitVec 4) (kind pos : Byte) (t : State) : Bool :=
  t.errcode == code && t.errKind == kind && t.errPos == pos && t.done && !t.busy && t.pending == none

theorem witness_encodeOfDecode : decode 0x00FF0111 = .ok (.b83dec 1 255) := by rfl

theorem witness_illegal_hypotheses : (pendingOf 0x01).turns = [] ∧ (pendingOf 0x01).pending = some 0x01 := by decide
theorem witness_illegal_kind1 :
    ¬ (0x53 : Nat) ∈ [0x00, 0x10, 0x11, 0x20, 0x21, 0x22, 0x30, 0x31, 0x32, 0x38, 0x39, 0x3A, 0x40, 0x41, 0x50, 0x51, 0x52] ∧
      ran (step (pendingOf 0x80000853)) (failsWith 7 1 0) = true := by decide +kernel
theorem witness_illegal_kind2 :
    (0x00000800 : Nat) / 2 ^ 11 % 2 ^ 5 ≠ 0 ∧ ran (step (pendingOf 0x00000910)) (failsWith 7 2 0) = true ∧
      ran (step (pendingOf 0x80000100)) (failsWith 7 2 0) = true := by decide +kernel
theorem witness_illegal_kind3 :
    ran (step (pendingOf 0x01000000)) (failsWith 7 3 0) = true ∧ ran (step (pendingOf 0x51000100 )) (failsWith 7 3 0) = true ∧
      ran (step (pendingOf 0x01000010)) (failsWith 7 3 0) = true ∧ ran (step (pendingOf 0x51010032)) (failsWith 7 3 0) = true := by
  decide +kernel
theorem witness_illegal_kind4 :
    ran (step (pendingOf 0x00FF0010)) (failsWith 7 4 0) = true ∧ ran (step (pendingOf 0x00FF0511)) (failsWith 7 4 0) = true := by
  decide +kernel
theorem witness_illegal_kind5 :
    ran (step (pendingOf 0x00FF0210)) (failsWith 7 5 0) = true ∧ ran (step (pendingOf 0x00FD0411)) (failsWith 7 5 0) = true := by
  decide +kernel
theorem witness_illegal_kind6 :
    ran (step (pendingOf 0x51000032)) (failsWith 7 6 0) = true ∧ ran (step (pendingOf 0x7F00003A)) (failsWith 7 6 0) = true := by
  decide +kernel

theorem witness_stepRuns :
    (pendingOf 0x20).pending = some 0x20 ∧ decode 0x20 = .ok .s2l ∧ (pendingOf 0x20).turns = [] ∧
      (State.reset.withFetchWord 32 0x20).pending = some 0x20 ∧
      (State.reset.withFetchWord 32 0x20).turns = .engine :: [] := by decide

/-- A state whose first turn is this one, idle and busy. -/
theorem witness_stepTurns :
    State.reset.pending = none ∧ State.reset.turns = [] ∧ { State.reset with turns := [.engine] }.turns = .engine :: [] ∧
      { State.reset with turns := [.read .byte 0x100] }.turns = .read .byte 0x100 :: [] ∧
      { State.reset with turns := [.write .word 0x18 5, .poll] }.turns = .write .word 0x18 5 :: [.poll] ∧
      ({ State.reset with turns := [.poll] }.turns = .poll :: [] ∧ State.reset.busy = false) ∧
      ({ pendingOf 0 with turns := [.poll] }.turns = .poll :: [] ∧ (pendingOf 0).busy = true) := by decide

/-- The poll reads STATUS again after the engine's step while BUSY is 1 (R98). -/
theorem test_poll_waits :
    ran (step { pendingOf 0 with turns := [.poll] })
      (fun t => t.turns == [.engine, .poll] && t.reply == some ⟨1, false⟩) = true := by decide +kernel

/-! ### The port -/

theorem witness_idle : State.reset.busy = false := by decide
theorem witness_busy : (pendingOf 0).busy = true := by decide
theorem witness_narrow : Width.half ≠ .word ∧ Width.byte ≠ .word := by decide

/-- Both ends of each range of busy-window writes, and the accesses served there. -/
theorem witness_busyWrites :
    accessOk .word 0x18 = true ∧ accessOk .word 0x3C = true ∧ accessOk .word 0x48 = true ∧ accessOk .word 0x4C = true ∧
      accessOk .byte 0x100 = true ∧ accessOk .half 0xF96 = true ∧ (pendingOf 0).busy = true := by decide

/-- Ignored writes in the window and outside it: a read-only register, both ends of the reserved offsets. -/
theorem witness_ignoredWrites :
    (0x44 : Word).toNat ∈ [0x00, 0x04, 0x14, 0x40, 0x44] ∧
      (0x50 ≤ (0x50 : Word).toNat ∧ (0x50 : Word).toNat ≤ 0xFC ∧ (0x50 : Word).toNat % 4 = 0) ∧
      (0x50 ≤ (0xFC : Word).toNat ∧ (0xFC : Word).toNat ≤ 0xFC ∧ (0xFC : Word).toNat % 4 = 0) ∧
      ran (hostWrite .word 0x40 7 State.reset) (fun t => t.result == 0 && !t.werr) = true ∧
      ran (hostWrite .word 0x14 7 (pendingOf 0)) (fun t => errinfoWord t == 0 && !t.werr) = true := by decide

/-- The last byte of PIXMEM is served, and the byte after it is a bus error unless it ends the address space. -/
theorem witness_lastPixel :
    accessOk .byte (0x10000 + pixmemBytes - 1) = true ∧ 0x10000 + pixmemBytes - 1 < 2 ^ 32 ∧
      accessOk .byte (0x10000 + pixmemBytes) = false := by
  obtain ⟨h4, hm, _⟩ := pixmemBytes_legal
  simp only [accessOk, regionOf, regionTakes, widthBytes, hashBase, gridBase, pixBase]
  have h1 : ¬ 65536 + pixmemBytes - 1 < 256 := by omega
  have h2 : ¬ 65536 + pixmemBytes - 1 < 512 := by omega
  have h3 : ¬ 65536 + pixmemBytes - 1 < 2048 := by omega
  have h5 : ¬ 65536 + pixmemBytes - 1 < 3992 := by omega
  have h6 : ¬ 65536 + pixmemBytes - 1 < 65536 := by omega
  have h7 : 65536 + pixmemBytes - 1 < 65536 + pixmemBytes := by omega
  have k1 : ¬ 65536 + pixmemBytes < 256 := by omega
  have k2 : ¬ 65536 + pixmemBytes < 512 := by omega
  have k3 : ¬ 65536 + pixmemBytes < 2048 := by omega
  have k5 : ¬ 65536 + pixmemBytes < 3992 := by omega
  have k6 : ¬ 65536 + pixmemBytes < 65536 := by omega
  have h8 : ¬ 65536 + pixmemBytes < 65536 + pixmemBytes := by omega
  simp only [h1, h2, h3, h5, h6, h7, k1, k2, k3, k5, k6, h8, if_false, if_true, Nat.add_sub_cancel]
  refine ⟨by simp [Nat.mod_one], by omega, by simp⟩

/-- Reads served in the busy window, in the exact registers and outside them. -/
theorem witness_busyReads :
    accessOk .word 0x1C = true ∧ accessOk .word 0x24 = true ∧ accessOk .word 0x28 = true ∧ accessOk .word 0x30 = true ∧
      accessOk .word 0x3C = true ∧ accessOk .word 0x20 = true ∧ accessOk .byte 0xF97 = true := by decide

/-- One bus error of each kind: misaligned, narrow in the CSR window, both ends of both fixed reserved regions. -/
theorem witness_busErrors :
    (0x102 : Nat) % widthBytes .word ≠ 0 ∧ ((0xFF : Nat) < 0x100 ∧ Width.byte ≠ .word) ∧
      accessOk .byte 0x200 = false ∧ accessOk .word 0x7FC = false ∧ accessOk .byte 0xF98 = false ∧
      accessOk .half 0xFFFE = false ∧ accessOk .word 0x50 = true ∧ accessOk .word 0xFC = true := by decide

theorem witness_wideRead :
    (withBytes 0x1FC [0x30, 0x31, 0x32, 0x33]).busy = false ∧ accessOk .word 0x1FC = true ∧
      HoldsFrom (withBytes 0x1FC [0x30, 0x31, 0x32, 0x33]).mem 0x1FC [0x30, 0x31, 0x32, 0x33] := by decide

/-- A 16-bit read at an address that is 2 mod 4, and an 8-bit read at an odd one. -/
theorem witness_narrowRead :
    (accessOk .half 0x1FE = true ∧ HoldsFrom (withBytes 0x1FE [0x32, 0x33]).mem 0x1FE [0x32, 0x33]) ∧
      (accessOk .byte 0x1FF = true ∧ HoldsFrom (withBytes 0x1FE [0x32, 0x33]).mem 0x1FF [0x33]) := by decide

theorem witness_memoryWrite :
    State.reset.busy = false ∧ accessOk .half 0x1FE = true ∧
      ran (hostWrite .half 0x1FE 0xABCD1234 State.reset) (bytesAre · 0x1FE [0x34, 0x12]) = true := by decide +kernel

theorem witness_gridEntry :
    (80 : Nat) ≤ 80 ∧ (readGrid (withGrid 80 [⟨1, 2, 3⟩]) 80).toOption = some ⟨1, 2, 3⟩ := by decide +kernel

theorem witness_readWithoutEffect :
    (∃ t, hostRead .word 0x0C State.reset = .next t ∧ t.reply = some ⟨0, false⟩) := ⟨_, rfl, rfl⟩

theorem witness_poisonRead :
    State.reset.busy = false ∧ accessOk .byte 0x1FF = true ∧ Memory.read State.reset.mem 0x1FF = none := by decide

/-- A 32-bit read of which only the last byte is poison. -/
theorem witness_poisonWideRead :
    accessOk .word 0x1FC = true ∧ 3 < widthBytes .word ∧
      Memory.read (withBytes 0x1FC [0x30, 0x31, 0x32]).mem (0x1FC + 3) = none ∧
      stopped (hostRead .word 0x1FC (withBytes 0x1FC [0x30, 0x31, 0x32])) (.hostReadsPoison 0x1FF) = true := by decide

/-- The reserved bits of DIM and CTRL are discarded, in the window too for CTRL (R28, R34, R266). -/
theorem test_register_fields :
    ran (hostWrite .word 0x20 0xFFFFFF34 State.reset) (fun t => csrRead t .dim == 0x34 && t.dimNx == 4) = true ∧
      ran (hostWrite .word 0x08 0xFFFFFFFF (pendingOf 0)) (fun t => csrRead t .ctrl == 1 && !t.werr) = true := by decide

/-- KIND stands above POS in ERRINFO (R31). -/
theorem test_errinfo : errinfoWord { State.reset with errKind := 2, errPos := 11 } = 0x020B := by decide

theorem witness_resetTurn : { pendingOf 0 with turns := [.reset] }.turns = .reset :: [] := by decide

theorem witness_interrupt :
    ran (exec .nop { State.reset with ie := true }) irq = true ∧
      ran (hostWrite .word 0x0C 0x2 { State.reset with ie := true, done := true }) (!irq ·) = true ∧
      (0x2 : Word).getLsbD 1 = true ∧
      ran (hostWrite .word 0x08 0x1 { State.reset with done := true }) irq = true ∧
      ran (hostWrite .word 0x10 0 { State.reset with ie := true, done := true }) (!irq ·) = true ∧
      ran (step { State.reset with ie := true, done := true, turns := [.reset] }) (!irq ·) = true := by decide +kernel

/-! ### Commands -/

theorem witness_nop : State.reset.werr = false := by decide

/-- The field's bounds: LEN 1 at the last byte, LEN 4 at the last place, then one too long, too short, too far. -/
theorem witness_field :
    (1 ≤ (1 : BitVec 3).toNat ∧ (1 : BitVec 3).toNat ≤ 4 ∧ (255 : BitVec 8).toNat + (1 : BitVec 3).toNat ≤ 256) ∧
      (1 ≤ (4 : BitVec 3).toNat ∧ (4 : BitVec 3).toNat ≤ 4 ∧ (252 : BitVec 8).toNat + (4 : BitVec 3).toNat ≤ 256) ∧
      4 < (5 : BitVec 3).toNat ∧ (0 : BitVec 3).toNat < 1 ∧
      (1 ≤ (4 : BitVec 3).toNat ∧ (4 : BitVec 3).toNat ≤ 4 ∧ 256 < (253 : BitVec 8).toNat + (4 : BitVec 3).toNat) := by decide

theorem witness_b83dec :
    (∀ p < (4 : BitVec 3).toNat, (hashDigit? (withBytes 0x1FC [0x7E, 0x7E, 0x7E, 0x7E]) ((252 : BitVec 8).toNat + p)).isSome = true) := by
  decide

theorem witness_b83decBad :
    (3 : Nat) < (4 : BitVec 3).toNat ∧
      (∀ q < 3, (hashDigit? (withBytes 0x1FC [0x7E, 0x7E, 0x7E, 0x21]) ((252 : BitVec 8).toNat + q)).isSome = true) ∧
      Memory.read (withBytes 0x1FC [0x7E, 0x7E, 0x7E, 0x21]).mem (0x100 + (252 : BitVec 8).toNat + 3) = some 0x21 ∧
      indexOf 0x21 = none := by decide

theorem witness_roundTrip :
    (4 : BitVec 3).toNat ≤ 4 ∧ (252 : BitVec 8).toNat + (4 : BitVec 3).toNat ≤ 256 ∧
      (47458320 : DWord).toNat < 83 ^ (4 : BitVec 3).toNat ∧ ¬ (47458321 : DWord).toNat < 83 ^ (4 : BitVec 3).toNat := by
  decide +kernel

theorem witness_s2l :
    (10 : DWord).toNat % 256 ≤ 10 ∧ 11 ≤ (11 : DWord).toNat % 256 ∧ (0xFF00 : DWord).toNat % 256 = 0 ∧
      (0x1FF : DWord).toNat % 256 = 255 := by decide

theorem witness_l2s :
    isNaN 0x7FF0000000000001 = true ∧ fle 0x8000000000000000 posZero = true ∧ fle c1 0x7FF0000000000000 = true ∧
      fle c1 c1 = true ∧ (inUnit cL2sKnee = true ∧ fle cL2sKnee cL2sKnee = true) ∧
      (inUnit (cL2sKnee + 1) = true ∧ fle (cL2sKnee + 1) cL2sKnee = false) := by decide +kernel

theorem witness_spow :
    flt 0x8000000000000001 posZero = true ∧ flt 0x8000000000000000 posZero = false ∧
      (isFinite 0xC008000000000000 = true ∧ flt 0xC008000000000000 posZero = true) ∧
      (isFinite 0x4008000000000000 = true ∧ flt 0x4008000000000000 posZero = false) := by decide +kernel

theorem witness_actualMax :
    (⟨0xC000000000000000, 0x7FF8000000000000, 0⟩ : Triple) ∈ [(⟨0xC000000000000000, 0x7FF8000000000000, 0⟩ : Triple)] ∧
      isNaN 0xC000000000000000 = false := by decide +kernel

/-- A grid of two entries, the second defined and the first poison. -/
def twoTerms : State := { withGrid 1 [⟨0, 0xBFB999999999999A, 0⟩] with dimNx := 1, dimNy := 2 }

theorem witness_qmax :
    gridDims (1 : BitVec 4).toNat (11 : BitVec 4).toNat = false ∧ gridDims (9 : BitVec 4).toNat (10 : BitVec 4).toNat = false ∧
      (onePixel.dimNx = 1 ∧ onePixel.dimNy = 1) ∧
      (gridDims twoTerms.dimNx.toNat twoTerms.dimNy.toNat = true ∧ 1 < twoTerms.dimNx.toNat * twoTerms.dimNy.toNat ∧
        DefinedFrom twoTerms (0x800 + 24) (24 * (twoTerms.dimNx.toNat * twoTerms.dimNy.toNat - 1))) := by decide +kernel

theorem witness_qdc : DefinedFrom (withGrid 0 [⟨1, 2, 3⟩]) 0x800 24 := by decide +kernel

theorem witness_qac :
    ((80 : BitVec 7).toNat ≤ 80 ∧ DefinedFrom (withGrid 80 [⟨1, 2, 3⟩]) (0x800 + 24 * (80 : BitVec 7).toNat) 24) ∧
      80 < (81 : BitVec 7).toNat := by decide +kernel

theorem witness_dqmax : (82 : DWord).toNat ≤ 82 ∧ 82 < (83 : DWord).toNat := by decide

theorem witness_dqac :
    ((80 : BitVec 7).toNat ≤ 80 ∧ (6888 : DWord).toNat ≤ 6888) ∧ 80 < (81 : BitVec 7).toNat ∧
      ((80 : BitVec 7).toNat ≤ 80 ∧ 6888 < (6889 : DWord).toNat) := by decide

theorem witness_encoderDims :
    ¬ (1 ≤ (9 : BitVec 4).toNat ∧ (9 : BitVec 4).toNat ≤ 9 ∧ 1 ≤ (10 : BitVec 4).toNat ∧ (10 : BitVec 4).toNat ≤ 9) ∧
      (1 ≤ (9 : BitVec 4).toNat ∧ (9 : BitVec 4).toNat ≤ 9 ∧ 1 ≤ (9 : BitVec 4).toNat ∧ (9 : BitVec 4).toNat ≤ 9) := by
  decide

theorem witness_encoderSizes :
    (0xFFFFFFFF : Word).toNat ≠ (0x3FFFFFFF : Word).toNat * (1 : Word).toNat * 4 ∧
      ((0xFFFFFFFC : Word).toNat = (0x3FFFFFFF : Word).toNat * (1 : Word).toNat * 4 ∧
        pixmemBytes < (0xFFFFFFFC : Word).toNat) ∧
      ((0 : Word).toNat = (0 : Word).toNat * (7 : Word).toNat * 4 ∧ (0 : Word).toNat ≤ pixmemBytes ∧
        (0 : Word).toNat * (7 : Word).toNat = 0) := by
  obtain ⟨_, h, _⟩ := pixmemBytes_legal
  refine ⟨by decide, ⟨by decide, ?_⟩, by decide, Nat.zero_le _, by decide⟩
  exact Nat.lt_of_le_of_lt h (by decide)

/-- The hypotheses of a whole encode: the checks of R164 pass and the colour bytes are defined. -/
theorem witness_encode :
    encDims onePixel.dimNx.toNat onePixel.dimNy.toNat = true ∧
      onePixel.pixlen.toNat = onePixel.width.toNat * onePixel.height.toNat * 4 ∧ onePixel.pixlen.toNat ≤ pixmemBytes ∧
      onePixel.width.toNat * onePixel.height.toNat ≠ 0 ∧
      ColoursDefined onePixel (onePixel.width.toNat * onePixel.height.toNat) :=
  ⟨by decide, by decide, pixmemBytes_legal.1, by decide, by decide⟩

/-- A 1×1 grid and a 1×1 image for DCTI. -/
def oneTerm : State :=
  { withGrid 0 [⟨0x3FF0000000000000, 0, 0⟩] with width := 1, height := 1, dimNx := 1, dimNy := 1 }

theorem witness_dcti :
    gridDims (10 : BitVec 4).toNat (1 : BitVec 4).toNat = false ∧
      (gridDims (9 : BitVec 4).toNat (9 : BitVec 4).toNat = true ∧
        pixmemBytes < (0xFFFFFFFF : Word).toNat * (0xFFFFFFFF : Word).toNat * 4) ∧
      (gridDims (1 : BitVec 4).toNat (10 : BitVec 4).toNat = true ∧ (0 : Word).toNat * (7 : Word).toNat = 0) ∧
      (gridDims oneTerm.dimNx.toNat oneTerm.dimNy.toNat = true ∧
        oneTerm.width.toNat * oneTerm.height.toNat * 4 ≤ pixmemBytes ∧
        oneTerm.width.toNat * oneTerm.height.toNat ≠ 0 ∧
        DefinedFrom oneTerm 0x800 (24 * (oneTerm.dimNx.toNat * oneTerm.dimNy.toNat))) := by
  refine ⟨by decide, ⟨by decide, Nat.lt_of_le_of_lt pixmemBytes_legal.2.1 (by decide)⟩, ⟨by decide, by decide⟩, by decide,
    pixmemBytes_legal.1, by decide, by decide +kernel⟩

/-- HASH with a length, for the validator and the decoder. -/
def hashState (bs : List Byte) (len : BitVec 16) : State := { withBytes 0x100 bs with hashlen := len, width := 1, height := 1 }

theorem witness_validate :
    (5 : BitVec 16).toNat < 6 ∧
      (6 ≤ (6 : BitVec 16).toNat ∧ Memory.read (hashState [0x21] 6).mem 0x100 = some 0x21 ∧ indexOf 0x21 = none) ∧
      (Memory.read (hashState [0x7E] 6).mem 0x100 = some 0x7E ∧ indexOf 0x7E = some 82 ∧
        (6 : BitVec 16).toNat ≠ 4 + 2 * ((82 % 9 + 1) * (82 / 9 + 1))) ∧
      (Memory.read (hashState [0x7C] 166).mem 0x100 = some 0x7C ∧ indexOf 0x7C = some 80 ∧
        (166 : BitVec 16).toNat = 4 + 2 * ((80 % 9 + 1) * (80 / 9 + 1))) := by decide

theorem witness_validateRuns :
    ∃ t, exec .validate (hashState [0x30] 6) = .next t ∧ (t.errcode == 0) = true :=
  ran_next (by decide +kernel)

/-- The shortest hash, and one with a bad character at its end. -/
def shortHash : State := hashState [0x30, 0x30, 0x54, 0x53, 0x55, 0x41] 6
def badHash : State := hashState [0x30, 0x30, 0x54, 0x53, 0x55, 0x20] 6

theorem witness_decodeErrors :
    ((hashDigit? (hashState [0x30] 8) 0).isSome = true ∧
        (hashState [0x30] 8).hashlen.toNat ≠ 4 + 2 * (hashNx (hashState [0x30] 8) * hashNy (hashState [0x30] 8))) ∧
      (HashValid badHash ∧ 1 ≤ 5 ∧ 5 < badHash.hashlen.toNat ∧ (∀ q < 5, (hashDigit? badHash q).isSome = true) ∧
        Memory.read badHash.mem (0x100 + 5) = some 0x20 ∧ indexOf 0x20 = none) := by decide +kernel

theorem witness_decodeCapacity :
    HashDecodable { shortHash with width := 0xFFFFFFFF, height := 0xFFFFFFFF } ∧
      pixmemBytes < (0xFFFFFFFF : Word).toNat * (0xFFFFFFFF : Word).toNat * 4 :=
  ⟨by decide +kernel, Nat.lt_of_le_of_lt pixmemBytes_legal.2.1 (by decide)⟩

theorem witness_decode :
    HashDecodable shortHash ∧ shortHash.width.toNat * shortHash.height.toNat * 4 ≤ pixmemBytes :=
  ⟨by decide +kernel, pixmemBytes_legal.1⟩

/-! ### Laws -/

theorem witness_encodeRuns : ∃ t, exec .encode onePixel = .next t ∧ (t.errcode == 0) = true :=
  ran_next (by decide +kernel)

theorem witness_decodeRuns : ∃ t, exec .decode shortHash = .next t ∧ (t.errcode == 0) = true :=
  ran_next (by decide +kernel)

theorem witness_decodeRunsPunched : ∃ t, exec .decode { shortHash with punch := 4 } = .next t ∧ (t.errcode == 0) = true :=
  ran_next (by decide +kernel)

theorem witness_dctiRuns : ∃ t, exec .dcti oneTerm = .next t ∧ (t.errcode == 0) = true :=
  ran_next (by decide +kernel)

/-- Two states with the same image but another alpha byte. -/
theorem witness_sameImage :
    ∀ a < onePixel.width.toNat * onePixel.height.toNat * 4, a % 4 ≠ 3 →
      Memory.read (Memory.write onePixel.mem 0x10003 0) (0x10000 + a) = Memory.read onePixel.mem (0x10000 + a) := by decide

theorem witness_dcTerm : [(⟨255, 0, 10⟩ : Rgb)].length = 1 * 1 ∧ 0 < 1 ∧ 1 < 2 ^ 32 := by decide

theorem witness_oneTerm : (0 : Nat) < 1 * 1 := by decide

theorem witness_errorRuns : ∃ t, exec (.qac 81) State.reset = .next t ∧ (t.errcode != 0) = true :=
  ran_next (by decide +kernel)

theorem witness_invariant :
    Memory.wf (pendingOf 0).mem = true ∧ cellsInMap (pendingOf 0).mem = true ∧ issueCoherent (pendingOf 0) = true ∧
      legalOutcome (pendingOf 0).errcode (pendingOf 0).errKind (pendingOf 0).errPos = true ∧
      ran (step (pendingOf 0)) (fun _ => true) = true := by decide +kernel

/-- A tie, and the overflow threshold. -/
theorem witness_rounding :
    roundMag (2 ^ 53 + 1) 1 = 2 ^ 53 ∧ (magOfBits (2 ^ 53) = 2 ^ 53 ∧ magOfBits (2 ^ 53 + 1) = 2 ^ 53 + 2) ∧
      roundMag ((2 ^ 54 - 1) * 2 ^ 2044) 1 = infBits ∧ roundMag ((2 ^ 54 - 1) * 2 ^ 2044 - 1) 1 = infBits - 1 := by
  decide +kernel

/-- Finite operands: a sum that is not zero, one that is, a divisor that is not zero, and one that is. -/
theorem witness_finite :
    (isFinite c1 = true ∧ isFinite c2 = true ∧ fval c1 + fval c2 ≠ 0 ∧ fval c1 - fval c2 ≠ 0 ∧ fmag c2 ≠ 0) ∧
      (isFinite (fneg c1) = true ∧ fval c1 + fval (fneg c1) = 0 ∧ fval c1 - fval c1 = 0) ∧
      (fmag 0x8000000000000000 = 0 ∧ fmag c1 ≠ 0) ∧ (fexp 0x000FFFFFFFFFFFFF = 0 ∧ fexp 0x0010000000000000 ≠ 0) := by
  decide +kernel

/-- Infinite operands whose results are no NaN. -/
theorem witness_infinite :
    isInf 0x7FF0000000000000 = true ∧ isNaN (fadd [] 0x7FF0000000000000 c1) = false ∧
      isNaN (fsub [] c1 0xFFF0000000000000) = false ∧ isNaN (fmul [] 0x7FF0000000000000 (fneg c1)) = false ∧
      isNaN (fdiv [] 0xFFF0000000000000 posZero) = false ∧ isNaN (fdiv [] c1 0xFFF0000000000000) = false := by
  decide +kernel

/-- Operands of the comparisons and of sat_floor at the ends of its range. -/
theorem witness_order :
    (isFinite 0x8000000000000000 = true ∧ isFinite posZero = true) ∧ isNaN quietNaN = true ∧
      (isInf 0xFFF0000000000000 = true ∧ isNaN c1 = false) ∧ (0 : Nat) ≤ 255 ∧
      (satFloor c9_5 0 18 < 18 ∧ 0 < satFloor c9_5 0 18) := by decide +kernel

theorem witness_integers : (2 ^ 53 - 1 : Nat) < 2 ^ 53 ∧ fofNat (2 ^ 53 - 1) = 0x433FFFFFFFFFFFFF := by decide +kernel

theorem witness_power :
    isNaN 0x7FF0000000000000 = false ∧ flt posZero 0x0000000000000001 = true ∧ isFinite 0xFFEFFFFFFFFFFFFF = true ∧
      (inUnit c1 = true ∧ inUnit 0x8000000000000000 = true ∧ flt posZero cInv2_4 = true) := by decide +kernel

/-- A power that has P2 to P5 (the stand-in of log entry 7), and a cosine that has P1. -/
theorem witness_conforming :
    ∃ (g : F64 → F64) (f : F64 → F64 → F64), g posZero = c1 ∧ (∀ y, isNaN y = false → f c1 y = c1) ∧
      (∀ y, flt posZero y = true → f posZero y = posZero) ∧ (∀ x, isFinite x = true → f x c2 = fmul [] x x) ∧
      (∀ x y, inUnit x = true → flt posZero y = true → inUnit (f x y) = true) ∧
      (∀ b : Byte, (l2sWith f [] (s2lWith f [] b)).toNat ≤ b.toNat + 1 ∧
        b.toNat ≤ (l2sWith f [] (s2lWith f [] b)).toNat + 1) := by
  refine ⟨fun _ => c1, powBounded fun x _ => x, rfl, fun y h => ?_, fun y h => ?_, fun x h => ?_,
    fun x y => powBounded_inUnit _, fun b => ?_⟩
  · simp [powBounded, powFixed, h]
  · simp [powBounded, powFixed, h, show posZero ≠ c1 by decide]
  · unfold powBounded powFixed
    split
    · next r hr =>
      split at hr
      · next hc => cases hr; rw [hc.1]; decide +kernel
      · split at hr
        · next hc => cases hr; rw [hc.1]; decide +kernel
        · simpa [h] using hr.symm
    · next hr =>
      split at hr
      · cases hr
      · split at hr
        · cases hr
        · simp [h] at hr
  · have := List.all_eq_true.mp standIn_roundTrips b.toNat (List.mem_range.mpr b.isLt)
    simpa [roundTripByte] using this

/-- Two NaN patterns are one value, as channels, in triples and in lists of them. -/
theorem witness_nan :
    SameValue 0x7FF0000000000001 0xFFFFFFFFFFFFFFFF ∧
      List.Forall₂ SameTriple [⟨0x7FF0000000000001, c1, c2⟩] [⟨0xFFFFFFFFFFFFFFFF, c1, c2⟩] :=
  have h : SameValue 0x7FF0000000000001 0xFFFFFFFFFFFFFFFF := .inr (by decide +kernel)
  ⟨h, .cons ⟨h, .rfl _, .rfl _⟩ .nil⟩

/-! ## The alphabet (R120) -/

/-- Digits 0, 9, 10, 35, 36, 61, 62 and 82, and that no character stands twice. -/
theorem test_alphabet :
    alphabet.length = 83 ∧ alphabet.Nodup ∧ digitChar 0 = 0x30 ∧ digitChar 9 = 0x39 ∧ digitChar 10 = 0x41 ∧
      digitChar 35 = 0x5A ∧ digitChar 36 = 0x61 ∧ digitChar 61 = 0x7A ∧ digitChar 62 = 0x23 ∧ digitChar 82 = 0x7E := by
  decide

end Sys2Proof.Tests
end

section
/-! SUPPORT. A binary64 pattern is its sign and its magnitude pattern (spec/00_scope.md R9, R10): the rules by which
later proofs read, build and compare patterns. -/

namespace Sys2Proof.Machine

/-! ## Sign and magnitude pattern -/

theorem fbits_eq_mod (x : F64) : fbits x = x.toNat % 2 ^ 63 := by
  simp [fbits, BitVec.extractLsb'_toNat]

theorem fbits_lt (x : F64) : fbits x < 2 ^ 63 := by
  rw [fbits_eq_mod]
  exact Nat.mod_lt _ (by decide)

@[simp] theorem fbits_fneg (x : F64) : fbits (fneg x) = fbits x := by
  unfold fbits fneg
  rw [BitVec.extractLsb'_xor]
  simp

@[simp] theorem fsign_fneg (x : F64) : fsign (fneg x) = !fsign x := by
  simp [fsign, fneg]

@[simp] theorem fbits_fabs (x : F64) : fbits (fabs x) = fbits x := by
  rw [fbits_eq_mod, fbits_eq_mod, fabs, BitVec.toNat_and, show (0x7FFFFFFFFFFFFFFF#64).toNat = 2 ^ 63 - 1 from rfl,
    Nat.and_two_pow_sub_one_eq_mod, Nat.mod_mod]

@[simp] theorem fsign_fabs (x : F64) : fsign (fabs x) = false := by
  simp [fsign, fabs]

theorem fsign_eq_decide (x : F64) : fsign x = decide (2 ^ 63 ≤ x.toNat) :=
  (BitVec.msb_eq_getLsbD_last x).symm.trans (BitVec.msb_eq_decide x)

theorem eq_of_fsign_fbits {x y : F64} (hs : fsign x = fsign y) (hb : fbits x = fbits y) : x = y := by
  rw [fsign_eq_decide, fsign_eq_decide, decide_eq_decide] at hs
  rw [fbits_eq_mod, fbits_eq_mod] at hb
  have := x.isLt
  have := y.isLt
  exact BitVec.eq_of_toNat_eq (by omega)

@[simp] theorem isNaN_fneg (x : F64) : isNaN (fneg x) = isNaN x := by simp [isNaN]
@[simp] theorem isInf_fneg (x : F64) : isInf (fneg x) = isInf x := by simp [isInf]
@[simp] theorem isFinite_fneg (x : F64) : isFinite (fneg x) = isFinite x := by simp [isFinite]
@[simp] theorem isNaN_fabs (x : F64) : isNaN (fabs x) = isNaN x := by simp [isNaN]

/-! ## NaN, infinite, finite: each pattern is one of the three -/

theorem isNaN_iff (x : F64) : isNaN x = true ↔ infBits < fbits x := decide_eq_true_iff
theorem isFinite_iff (x : F64) : isFinite x = true ↔ fbits x < infBits := decide_eq_true_iff
theorem isInf_iff (x : F64) : isInf x = true ↔ fbits x = infBits := beq_iff_eq
theorem isZero_iff (x : F64) : isZero x = true ↔ fbits x = 0 := beq_iff_eq

theorem isNaN_of_isFinite {x : F64} (h : isFinite x = true) : isNaN x = false := by
  rw [isFinite_iff] at h
  exact decide_eq_false (by omega)

theorem isInf_of_isFinite {x : F64} (h : isFinite x = true) : isInf x = false := by
  rw [isFinite_iff] at h
  exact beq_eq_false_iff_ne.mpr (by omega)

theorem isNaN_of_isInf {x : F64} (h : isInf x = true) : isNaN x = false := by
  rw [isInf_iff] at h
  exact decide_eq_false (by omega)

theorem isZero_of_isInf {x : F64} (h : isInf x = true) : isZero x = false := by
  rw [isInf_iff] at h
  exact beq_eq_false_iff_ne.mpr (h ▸ by decide)

theorem isNaN_packFloat (negative : Bool) {bits : Nat} (h : bits ≤ infBits) :
    isNaN (packFloat negative bits) = false := by
  rw [isNaN, fbits_packFloat _ (Nat.lt_of_le_of_lt h (by decide)), decide_eq_false_iff_not]
  omega

/-! ## Comparisons are false on a NaN (R10) -/

@[simp] theorem flt_nan_left {x : F64} (y : F64) (h : isNaN x = true) : flt x y = false := by simp [flt, h]
@[simp] theorem flt_nan_right (x : F64) {y : F64} (h : isNaN y = true) : flt x y = false := by simp [flt, h]
@[simp] theorem fle_nan_left {x : F64} (y : F64) (h : isNaN x = true) : fle x y = false := by simp [fle, h]
@[simp] theorem fle_nan_right (x : F64) {y : F64} (h : isNaN y = true) : fle x y = false := by simp [fle, h]

end Sys2Proof.Machine
end

section
/-! SUPPORT. O60: what makes a byte, a digit or the scale takes values, not NaN patterns
(spec/93_implementation_defined.md U7). -/

namespace Sys2Proof.Machine

/-- The clamp takes every NaN to +0.0, so that it answers one pattern for one value (R142). -/
theorem clamp01_same {x y : F64} (h : SameValue x y) : clamp01 x = clamp01 y := by
  rcases h with rfl | ⟨hx, hy⟩
  · rfl
  · rw [clamp01_nan hx, clamp01_nan hy]

/-- What `l2s` floors is one value at every site (R142). -/
theorem l2sScaled_same (pow : F64 → F64 → F64) (d e : Site) (v : F64) :
    SameValue (l2sScaled pow d v) (l2sScaled pow e v) := by
  unfold l2sScaled
  split
  · exact fadd_same _ _ (fmul_same _ _ (fmul_same _ _ (.rfl _) (.rfl _)) (.rfl _)) (.rfl _)
  · exact fadd_same _ _ (fmul_same _ _ (fsub_same _ _ (fmul_same _ _ (.rfl _) (.rfl _)) (.rfl _)) (.rfl _)) (.rfl _)

theorem l2s_same (d e : Site) {x y : F64} (h : SameValue x y) : l2s d x = l2s e y := by
  unfold l2s l2sWith
  rw [clamp01_same h, satFloor_same 0 255 (l2sScaled_same pow64 d e (clamp01 y))]

theorem qdc_same (d e : Site) {t u : Triple} (h : SameTriple t u) : qdc d t = qdc e u := by
  obtain ⟨hr, hg, hb⟩ := h
  simp only [qdc, l2s_same (0 :: d) (0 :: e) hr, l2s_same (1 :: d) (1 :: e) hg, l2s_same (2 :: d) (2 :: e) hb]

/-- A NaN channel never passes the test of the fold, whatever its pattern (R161). -/
theorem foldAbs_same (am : F64) {x y : F64} (h : SameValue x y) : foldAbs am x = foldAbs am y := by
  rcases h with rfl | ⟨hx, hy⟩
  · rfl
  · simp [foldAbs, hx, hy]

theorem actualMax_same {ts us : List Triple} (h : List.Forall₂ SameTriple ts us) : actualMax ts = actualMax us := by
  unfold actualMax
  generalize posZero = am
  induction h generalizing am with
  | nil => rfl
  | cons h _ ih =>
    obtain ⟨hr, hg, hb⟩ := h
    simp only [List.foldl_cons, foldAbs_same _ hr, foldAbs_same _ hg, foldAbs_same _ hb]
    exact ih _

/-- The scale of a questioned maximum is a quotient of finite values by 166, no NaN, and so one pattern (R191). -/
theorem dqmax_same (d e : Site) (v : Nat) : dqmax d v = dqmax e v := by
  refine (fdiv_same d e (.rfl _) (.rfl _)).eq ?_
  have hnan : isNaN (fofNat (v + 1)) = false := isNaN_packFloat _ (roundMag_le _ _)
  have h166 : isNaN c166 = false ∧ isInf c166 = false ∧ isZero c166 = false := by decide
  obtain ⟨hn, hi, hz⟩ := h166
  simp only [fdiv, hnan, hn, hi, hz, Bool.or_self, Bool.false_eq_true, if_false]
  split
  · exact isNaN_packFloat _ (Nat.le_refl _)
  · exact isNaN_packFloat _ (roundMag_le _ _)

theorem qmax_same (d e : Site) {ts us : List Triple} (h : List.Forall₂ SameTriple ts us) : qmax d ts = qmax e us := by
  have hmax := actualMax_same h
  cases h with
  | nil => rfl
  | cons _ _ =>
    simp only [qmax, hmax]
    rw [satFloor_same 0 82 (fsub_same _ (0 :: e) (fmul_same _ (1 :: e) (.rfl _) (.rfl _)) (.rfl _)),
      dqmax_same _ (2 :: e)]

/-- The digit of a channel is that of the quotient's value: 0 for every NaN, and one pattern otherwise (R163). -/
theorem qch_same (d e : Site) {c c' m m' : F64} (hc : SameValue c c') (hm : SameValue m m') :
    qch d c m = qch e c' m' := by
  have hu := fdiv_same (0 :: d) (0 :: e) hc hm
  cases hn : isNaN (fdiv (0 :: d) c m)
  · simp only [qch, ← hu.eq hn]
    rw [satFloor_same 0 18 (fadd_same _ (2 :: e) (fmul_same _ (1 :: e) (.rfl _) (.rfl _)) (.rfl _))]
  · rw [qch_nan hn, qch_nan (hu.isNaN_eq ▸ hn)]

theorem qac_same (d e : Site) {t u : Triple} {m m' : F64} (ht : SameTriple t u) (hm : SameValue m m') :
    qac d t m = qac e u m' := by
  obtain ⟨hr, hg, hb⟩ := ht
  simp only [qac, qch_same _ (0 :: e) hr hm, qch_same _ (1 :: e) hg hm, qch_same _ (2 :: e) hb hm]

end Sys2Proof.Machine

namespace Sys2Proof

open Machine

/-- Settles O60, function by function: each ends in the clamp, in sat_floor or in a comparison, which take values. -/
theorem bytesIgnoreNanPatterns : Obligations.BytesIgnoreNanPatterns :=
  ⟨fun d e _ _ => l2s_same d e, fun d e _ _ => qdc_same d e, fun d e _ _ => qmax_same d e,
    fun d e _ _ _ _ => qch_same d e, fun d e _ _ _ _ => qac_same d e⟩

end Sys2Proof
end

section
/-! SUPPORT. O59: the configuration functions have P1 to P5, and a function that has them is left as it is
(spec/93_implementation_defined.md part 1). -/

namespace Sys2Proof.Machine

/-! ## The values that P2, P3 and P4 fix -/

theorem powFixed_one {y : F64} (h : isNaN y = false) : powFixed c1 y = some c1 := by simp [powFixed, h]

theorem powFixed_zero {y : F64} (h : flt posZero y = true) : powFixed posZero y = some posZero := by
  simp [powFixed, h, show posZero ≠ c1 by decide]

/-- P4 agrees with P2 and P3 where they meet: the squares of 1.0 and of +0.0 are themselves. -/
theorem powFixed_square {x : F64} (h : isFinite x = true) : powFixed x c2 = some (fmul [] x x) := by
  by_cases h1 : x = c1
  · rw [h1, powFixed_one (by decide)]
    decide +kernel
  · by_cases h0 : x = posZero
    · rw [h0, powFixed_zero (by decide)]
      decide +kernel
    · simp [powFixed, h1, h0, h]

theorem powBounded_of_powFixed (f : F64 → F64 → F64) {x y r : F64} (h : powFixed x y = some r) :
    powBounded f x y = r := by
  simp [powBounded, h]

theorem pow64_of_powFixed {x y r : F64} (h : powFixed x y = some r) : pow64 x y = r := powBounded_of_powFixed _ h

/-- A power with P2, P3 and P4 has every value that the model fixes. -/
theorem eq_of_powFixed {f : F64 → F64 → F64} (p2 : ∀ y, isNaN y = false → f c1 y = c1)
    (p3 : ∀ y, flt posZero y = true → f posZero y = posZero) (p4 : ∀ x, isFinite x = true → f x c2 = fmul [] x x)
    {x y r : F64} (h : powFixed x y = some r) : f x y = r := by
  unfold powFixed at h
  split at h
  · next hc => obtain ⟨rfl, hy⟩ := hc; cases h; exact p2 y hy
  · split at h
    · next hc => obtain ⟨rfl, hy⟩ := hc; cases h; exact p3 y hy
    · split at h
      · next hc => obtain ⟨rfl, hx⟩ := hc; cases h; exact p4 x hx
      · cases h

/-! ## The round-trip law of P5 -/

/-- The law in the words of P5, byte by byte. -/
theorem roundTrips_iff (f : F64 → F64 → F64) : roundTrips f = true ↔
    ∀ b : Byte, (l2sWith f [] (s2lWith f [] b)).toNat ≤ b.toNat + 1 ∧
      b.toNat ≤ (l2sWith f [] (s2lWith f [] b)).toNat + 1 := by
  simp only [roundTrips, List.all_eq_true, List.mem_range, roundTripByte, Bool.and_eq_true, decide_eq_true_eq]
  constructor
  · intro h b
    simpa using h b.toNat b.isLt
  · intro h n _
    exact h (BitVec.ofNat 8 n)

theorem cosOf_of_conforming {f : F64 → F64} (h : f posZero = c1) : cosOf f = f := by
  funext x
  unfold cosOf
  split
  · next hx => rw [hx, h]
  · rfl

/-- A power with P2 to P5 is left as it is: the bounds leave it, so that it meets the round-trip law and is chosen. -/
theorem powOf_of_conforming {f : F64 → F64 → F64} (hb : powBounded f = f) (hr : roundTrips f = true) :
    powOf f = f := by
  funext x y
  rw [powOf, powChosen_of_roundTrips (by rw [hb, hr]), hb]

end Sys2Proof.Machine

namespace Sys2Proof

open Machine

/-- Settles O59: P1 to P5 from the values the model fixes and imposes, and that it changes no function that has them. -/
theorem configurationFunctionsConform : Obligations.ConfigurationFunctionsConform := by
  refine ⟨rfl, fun y h => pow64_of_powFixed (powFixed_one h), fun y h => pow64_of_powFixed (powFixed_zero h),
    fun x h => pow64_of_powFixed (powFixed_square h), fun x y => powBounded_inUnit _,
    (roundTrips_iff pow64).mp (powChosen_roundTrips _), fun _ => rfl, fun _ _ => rfl, fun f => cosOf_of_conforming, ?_⟩
  intro f p2 p3 p4 p5 roundTrip
  exact powOf_of_conforming (powBounded_of_conforming (fun _ _ _ => eq_of_powFixed p2 p3 p4) p5)
    ((roundTrips_iff f).mpr roundTrip)

end Sys2Proof
end

section
/-! SUPPORT. Magnitudes of binary64 and the rounding to nearest, ties to even (spec/00_scope.md R9; log entry 14). -/

namespace Sys2Proof.Machine

/-! ## The fields of a pattern -/

theorem fexp_eq (x : F64) : fexp x = fbits x / 2 ^ 52 := by
  rw [fbits_eq_mod, fexp, BitVec.extractLsb'_toNat, Nat.shiftRight_eq_div_pow]
  omega

theorem ffrac_eq (x : F64) : ffrac x = fbits x % 2 ^ 52 := by
  rw [fbits_eq_mod, ffrac, BitVec.extractLsb'_toNat, Nat.shiftRight_zero]
  omega

theorem infBits_eq : infBits = 2047 * 2 ^ 52 := rfl

theorem isFinite_eq (x : F64) : isFinite x = decide (fexp x ≠ 2047) := by
  have := fbits_lt x
  rw [Bool.eq_iff_iff, isFinite_iff, decide_eq_true_iff, fexp_eq, infBits_eq]
  omega

theorem isInf_eq (x : F64) : isInf x = (decide (fexp x = 2047) && decide (ffrac x = 0)) := by
  rw [Bool.eq_iff_iff, Bool.and_eq_true, decide_eq_true_iff, decide_eq_true_iff, isInf_iff, fexp_eq,
    ffrac_eq, infBits_eq]
  omega

theorem isNaN_eq (x : F64) : isNaN x = (decide (fexp x = 2047) && decide (ffrac x ≠ 0)) := by
  have := fbits_lt x
  rw [Bool.eq_iff_iff, Bool.and_eq_true, decide_eq_true_iff, decide_eq_true_iff, isNaN_iff, fexp_eq,
    ffrac_eq, infBits_eq]
  omega

theorem fmag_subnormal {x : F64} (h : fexp x = 0) : fmag x = ffrac x := by
  rw [fexp_eq] at h
  rw [ffrac_eq, fmag, magOfBits, if_pos (by omega)]
  omega

theorem fmag_normal {x : F64} (h : fexp x ≠ 0) : fmag x = (2 ^ 52 + ffrac x) * 2 ^ (fexp x - 1) := by
  rw [fexp_eq] at h
  rw [ffrac_eq, fexp_eq, fmag, magOfBits, if_neg (by omega)]

theorem fval_eq_sign_mul (x : F64) : fval x = (if fsign x then -1 else 1) * (fmag x : Int) := by
  unfold fval
  split <;> omega

/-! ## Magnitudes grow with the pattern -/

/-- An integer of at most 53 bits in the last place 2^q makes the pattern that the rounding builds. A carry out of
the 53 bits lands in the exponent field. -/
theorem magOfBits_scaled {q m : Nat} (hm : m ≤ 2 ^ 53) (hq : q = 0 ∨ 2 ^ 52 ≤ m) :
    magOfBits (q * 2 ^ 52 + m) = m * 2 ^ q := by
  unfold magOfBits
  split
  · have : q = 0 := by omega
    subst this
    omega
  · rcases Nat.lt_or_eq_of_le hm with hlt | rfl
    · rw [show (q * 2 ^ 52 + m) / 2 ^ 52 - 1 = q by omega, show 2 ^ 52 + (q * 2 ^ 52 + m) % 2 ^ 52 = m by omega]
    · rw [show (q * 2 ^ 52 + 2 ^ 53) / 2 ^ 52 - 1 = q + 1 by omega,
        show 2 ^ 52 + (q * 2 ^ 52 + 2 ^ 53) % 2 ^ 52 = 2 ^ 52 by omega, Nat.pow_succ 2 q]
      omega

/-- Every pattern is an integer of at most 53 bits in some last place. -/
theorem exists_scaled (n : Nat) : ∃ q m, n = q * 2 ^ 52 + m ∧ m < 2 ^ 53 ∧ (q = 0 ∨ 2 ^ 52 ≤ m) := by
  rcases Nat.lt_or_ge n (2 ^ 52) with h | h
  · exact ⟨0, n, by omega, by omega, .inl rfl⟩
  · exact ⟨n / 2 ^ 52 - 1, 2 ^ 52 + n % 2 ^ 52, by omega, by omega, .inr (by omega)⟩

theorem magOfBits_strictMono : StrictMono magOfBits := by
  refine strictMono_nat_of_lt_succ fun n => ?_
  obtain ⟨q, m, rfl, hm, hq⟩ := exists_scaled n
  rw [magOfBits_scaled (by omega) hq, Nat.add_assoc, magOfBits_scaled (by omega) (by omega)]
  exact Nat.mul_lt_mul_of_pos_right (Nat.lt_succ_self m) (by positivity)

@[simp] theorem magOfBits_zero : magOfBits 0 = 0 := rfl

theorem fmag_eq_zero_iff (x : F64) : fmag x = 0 ↔ isZero x = true := by
  rw [fmag, ← magOfBits_zero, magOfBits_strictMono.injective.eq_iff, isZero, beq_iff_eq]

/-! ## The nearest pattern -/

/-- How far the magnitude of a pattern lies from num / den, in units of 1 / den. -/
def roundDist (num den n : Nat) : Nat := ((magOfBits n * den : Nat) - (num : Int)).natAbs

theorem roundDist_eq (num den n : Nat) :
    roundDist num den n = (magOfBits n * den - num) + (num - magOfBits n * den) := by
  unfold roundDist
  omega

/-- No pattern lies nearer to num / den than p, and p is even where another lies as near. The exponent is unbounded:
patterns above that of infinity stand for the magnitudes that continue the scale. -/
def IsNearestEven (num den p : Nat) : Prop :=
  ∀ n, roundDist num den p ≤ roundDist num den n ∧ (roundDist num den n = roundDist num den p → n ≠ p → p % 2 = 0)

/-- The rounded pattern before overflow is cut off at infinity. -/
def roundUnbounded (num den : Nat) : Nat :=
  lastPlace num den * 2 ^ 52 + roundEven num (den * 2 ^ lastPlace num den)

theorem roundMag_eq_min (num den : Nat) : roundMag num den = min infBits (roundUnbounded num den) := rfl

/-- In its last place num / den has at most 53 bits, and exactly 53 unless that place is the least subnormal. -/
theorem lastPlace_bounds (num : Nat) (den : Nat) :
    num / (den * 2 ^ lastPlace num den) < 2 ^ 53 ∧
      (lastPlace num den = 0 ∨ 2 ^ 52 ≤ num / (den * 2 ^ lastPlace num den)) := by
  unfold lastPlace
  rw [bitLog_eq, ← Nat.div_div_eq_div_mul]
  generalize num / den = k
  have hlt : k < 2 ^ 53 * 2 ^ (Nat.log2 k - 52) := by
    rw [← Nat.pow_add]
    exact Nat.lt_of_lt_of_le Nat.lt_log2_self (Nat.pow_le_pow_right (by omega) (by omega))
  refine ⟨(Nat.div_lt_iff_lt_mul (by positivity)).mpr hlt, ?_⟩
  rcases Nat.lt_or_ge (Nat.log2 k) 52 with h | h
  · exact .inl (by omega)
  · refine .inr ((Nat.le_div_iff_mul_le (by positivity)).mpr ?_)
    rw [← Nat.pow_add, show 52 + (Nat.log2 k - 52) = Nat.log2 k by omega]
    exact Nat.log2_self_le (by rintro rfl; simp at h)

/-- Between two neighbouring patterns n and n + 1 the nearer one, or the even one of two as near, is the nearest of all,
since magnitudes grow. -/
theorem isNearestEven_of_neighbour {num den n p : Nat} (hd : 0 < den) (hlo : magOfBits n * den ≤ num)
    (hhi : num < magOfBits (n + 1) * den)
    (hp : (p = n ∧ (2 * num < magOfBits n * den + magOfBits (n + 1) * den ∨
        2 * num = magOfBits n * den + magOfBits (n + 1) * den ∧ n % 2 = 0)) ∨
      (p = n + 1 ∧ (magOfBits n * den + magOfBits (n + 1) * den < 2 * num ∨
        2 * num = magOfBits n * den + magOfBits (n + 1) * den ∧ n % 2 = 1))) : IsNearestEven num den p := by
  intro k
  have below (h : k < n) : magOfBits k * den < magOfBits n * den :=
    Nat.mul_lt_mul_of_pos_right (magOfBits_strictMono h) hd
  have above (h : n + 1 < k) : magOfBits (n + 1) * den < magOfBits k * den :=
    Nat.mul_lt_mul_of_pos_right (magOfBits_strictMono h) hd
  have hk : k < n ∨ k = n ∨ k = n + 1 ∨ n + 1 < k := by omega
  simp only [roundDist_eq]
  rcases hp with ⟨rfl, hp⟩ | ⟨rfl, hp⟩
  · rcases hk with h | rfl | rfl | h
    · have := below h; omega
    · omega
    · omega
    · have := above h; omega
  · rcases hk with h | rfl | rfl | h
    · have := below h; omega
    · omega
    · omega
    · have := above h; omega

theorem roundEven_cases (num den : Nat) :
    (roundEven num den = num / den ∧
      (2 * (num % den) < den ∨ 2 * (num % den) = den ∧ num / den % 2 = 0)) ∨
    (roundEven num den = num / den + 1 ∧
      (den < 2 * (num % den) ∨ 2 * (num % den) = den ∧ num / den % 2 = 1)) := by
  simp only [roundEven]
  split <;> omega

/-- The remainder of the division decides which of the two neighbouring patterns is taken. -/
theorem roundUnbounded_isNearestEven (num : Nat) {den : Nat} (hd : 0 < den) :
    IsNearestEven num den (roundUnbounded num den) := by
  obtain ⟨hm, hq⟩ := lastPlace_bounds num den
  have hr := roundEven_cases num (den * 2 ^ lastPlace num den)
  unfold roundUnbounded
  generalize lastPlace num den = q at *
  have hpos : 0 < den * 2 ^ q := by positivity
  have hdiv := Nat.div_add_mod' num (den * 2 ^ q)
  have hmod := Nat.mod_lt num hpos
  generalize num / (den * 2 ^ q) = m at *
  generalize num % (den * 2 ^ q) = rem at *
  have hlo : magOfBits (q * 2 ^ 52 + m) * den = m * (den * 2 ^ q) := by
    rw [magOfBits_scaled (by omega) hq]
    ring
  have hhi : magOfBits (q * 2 ^ 52 + m + 1) * den = m * (den * 2 ^ q) + den * 2 ^ q := by
    rw [Nat.add_assoc, magOfBits_scaled (by omega) (by omega)]
    ring
  generalize den * 2 ^ q = d at *
  refine isNearestEven_of_neighbour (n := q * 2 ^ 52 + m) hd (by omega) (by omega) ?_
  rw [hlo, hhi]
  omega

/-! ## Overflow -/

/-- The midpoint between the greatest finite magnitude and the next on the scale. -/
def overflowThreshold : Nat := (2 ^ 54 - 1) * 2 ^ 2044

theorem magOfBits_around_overflow :
    magOfBits (infBits - 1) + 2 ^ 2044 = overflowThreshold ∧ overflowThreshold + 2 ^ 2044 = magOfBits infBits := by
  decide +kernel

/-- The nearest pattern is finite exactly below the midpoint: at the midpoint the greatest finite pattern is odd. -/
theorem nearest_lt_infBits_iff {num den p : Nat} (hd : 0 < den) (hp : IsNearestEven num den p) :
    p < infBits ↔ num < den * overflowThreshold := by
  have hgap : 0 < 2 ^ 2044 * den := by positivity
  have hmax : magOfBits (infBits - 1) * den + 2 ^ 2044 * den = den * overflowThreshold := by
    rw [← Nat.add_mul, magOfBits_around_overflow.1, Nat.mul_comm]
  have hinf : den * overflowThreshold + 2 ^ 2044 * den = magOfBits infBits * den := by
    rw [← magOfBits_around_overflow.2, Nat.add_mul, Nat.mul_comm den]
  obtain ⟨hle, htie⟩ := hp infBits
  obtain ⟨hle', -⟩ := hp (infBits - 1)
  have hodd : (infBits - 1) % 2 = 1 := rfl
  simp only [roundDist_eq] at hle htie hle'
  constructor
  · intro hfin
    by_contra hge
    have hlt : p < infBits - 1 := by
      have : magOfBits p * den ≤ magOfBits (infBits - 1) * den :=
        Nat.mul_le_mul_right den (magOfBits_strictMono.monotone (by omega))
      have := htie (by omega) (by omega)
      omega
    have : magOfBits p * den < magOfBits (infBits - 1) * den :=
      Nat.mul_lt_mul_of_pos_right (magOfBits_strictMono hlt) hd
    omega
  · intro hlt
    by_contra hge
    have : magOfBits infBits * den ≤ magOfBits p * den :=
      Nat.mul_le_mul_right den (magOfBits_strictMono.monotone (by omega))
    omega

theorem roundMag_lt_infBits_iff (num : Nat) {den : Nat} (hd : 0 < den) :
    roundMag num den < infBits ↔ num < den * overflowThreshold := by
  rw [← nearest_lt_infBits_iff hd (roundUnbounded_isNearestEven num hd), roundMag_eq_min]
  omega

/-- A finite rounded pattern is the nearest of all, and the even one of two as near. -/
theorem roundMag_isNearestEven {num den : Nat} (hd : 0 < den) (h : roundMag num den < infBits) :
    IsNearestEven num den (roundMag num den) := by
  have : roundMag num den = roundUnbounded num den := by
    rw [roundMag_eq_min] at h ⊢
    omega
  rw [this]
  exact roundUnbounded_isNearestEven num hd

/-- A magnitude that a pattern has, below overflow, is its own rounding. -/
theorem magOfBits_roundMag {n : Nat} (h : magOfBits n < overflowThreshold) :
    magOfBits (roundMag (magOfBits n) 1) = magOfBits n := by
  have hfin : roundMag (magOfBits n) 1 < infBits := (roundMag_lt_infBits_iff _ (by decide)).mpr (by omega)
  have hdist := (roundMag_isNearestEven (by decide) hfin n).1
  simp only [roundDist_eq] at hdist
  omega

end Sys2Proof.Machine
end

section
/-! SUPPORT. O58: the primitives of spec/00_scope.md R10 are those of the values. -/

namespace Sys2Proof.Machine

/-! ## Integers -/

/-- A positive integer below 2^53, shifted until it has 53 bits, is the integer that a pattern keeps. -/
theorem exists_magOfBits_eq {n : Nat} (h : n < 2 ^ 53) : ∃ k, magOfBits k = n * 2 ^ 1074 := by
  rcases Nat.eq_zero_or_pos n with rfl | hpos
  · exact ⟨0, (Nat.zero_mul _).symm⟩
  · have hl : Nat.log2 n < 53 := (Nat.log2_lt (by omega)).mpr h
    have hshift : n * 2 ^ (52 - Nat.log2 n) < 2 ^ 53 := by
      calc n * 2 ^ (52 - Nat.log2 n) < 2 ^ (Nat.log2 n + 1) * 2 ^ (52 - Nat.log2 n) :=
            Nat.mul_lt_mul_of_pos_right Nat.lt_log2_self (by positivity)
        _ = 2 ^ 53 := by rw [← Nat.pow_add]; congr 1; omega
    have hnorm : 2 ^ 52 ≤ n * 2 ^ (52 - Nat.log2 n) := by
      calc 2 ^ 52 = 2 ^ Nat.log2 n * 2 ^ (52 - Nat.log2 n) := by rw [← Nat.pow_add]; congr 1; omega
        _ ≤ n * 2 ^ (52 - Nat.log2 n) := Nat.mul_le_mul_right _ (Nat.log2_self_le (by omega))
    refine ⟨(1022 + Nat.log2 n) * 2 ^ 52 + n * 2 ^ (52 - Nat.log2 n), ?_⟩
    rw [magOfBits_scaled (Nat.le_of_lt hshift) (.inr hnorm), Nat.mul_assoc, ← Nat.pow_add]
    congr 2
    omega

theorem fofNat_exact {n : Nat} (h : n < 2 ^ 53) :
    isFinite (fofNat n) = true ∧ fval (fofNat n) = (n : Int) * 2 ^ 1074 := by
  obtain ⟨k, hk⟩ := exists_magOfBits_eq h
  have hlt : magOfBits k < overflowThreshold := by
    rw [hk]
    calc n * 2 ^ 1074 < 2 ^ 53 * 2 ^ 1074 := Nat.mul_lt_mul_of_pos_right h (by positivity)
      _ ≤ overflowThreshold := by decide +kernel
  have hb : fbits (fofNat n) = roundMag (n * 2 ^ 1074) 1 := fbits_packFloat _ (roundMag_lt _ _)
  have hs : fsign (fofNat n) = false := fsign_packFloat _ (roundMag_lt _ _)
  rw [← hk] at hb
  refine ⟨(isFinite_iff _).mpr (hb ▸ (roundMag_lt_infBits_iff _ (by decide)).mpr (by omega)), ?_⟩
  rw [fval, hs, fmag, hb, magOfBits_roundMag hlt, hk, if_neg Bool.false_ne_true, Nat.cast_mul,
    Nat.cast_pow, Nat.cast_ofNat]

/-! ## Comparisons -/

/-- Patterns in order of sign and magnitude pattern are in order of value, since magnitudes grow with the pattern. -/
theorem orderKey_lt_iff (x y : F64) : orderKey x < orderKey y ↔ fval x < fval y := by
  have hpos (u : F64) : 0 < fmag u ↔ 0 < fbits u := by
    rw [Nat.pos_iff_ne_zero, Nat.pos_iff_ne_zero, not_iff_not, fmag_eq_zero_iff, isZero_iff]
  have hx := hpos x
  have hy := hpos y
  have hxy : fmag x < fmag y ↔ fbits x < fbits y := magOfBits_strictMono.lt_iff_lt
  have hyx : fmag y < fmag x ↔ fbits y < fbits x := magOfBits_strictMono.lt_iff_lt
  unfold orderKey fval
  cases fsign x <;> cases fsign y <;> simp only [if_true, if_false, Bool.false_eq_true] <;> omega

theorem flt_of_not_isNaN {x y : F64} (hx : isNaN x = false) (hy : isNaN y = false) :
    flt x y = decide (orderKey x < orderKey y) := by
  simp [flt, hx, hy]

theorem flt_finite {x y : F64} (hx : isFinite x = true) (hy : isFinite y = true) :
    flt x y = decide (fval x < fval y) := by
  rw [flt_of_not_isNaN (isNaN_of_isFinite hx) (isNaN_of_isFinite hy), decide_eq_decide, orderKey_lt_iff]

theorem fle_eq_not_flt {x y : F64} (hx : isNaN x = false) (hy : isNaN y = false) : fle x y = !flt y x := by
  rw [flt_of_not_isNaN hy hx, fle, hx, hy, ← decide_not]
  simp

/-- An infinity lies at its sign's end of the order: beyond every value but itself. -/
theorem flt_inf {x y : F64} (hx : isInf x = true) (hy : isNaN y = false) :
    flt x y = (fsign x && !(isInf y && fsign y)) ∧ flt y x = (!fsign x && !(isInf y && !fsign y)) := by
  have hle : fbits y ≤ infBits := by
    rw [← Bool.not_eq_true, isNaN_iff] at hy
    omega
  rw [flt_of_not_isNaN (isNaN_of_isInf hx) hy, flt_of_not_isNaN hy (isNaN_of_isInf hx)]
  have hinf : isInf y = !decide (fbits y < infBits) := by
    rw [Bool.eq_iff_iff, isInf_iff, ← decide_not, decide_eq_true_iff]
    omega
  have hpos : 0 < infBits := by decide
  rw [isInf_iff] at hx
  simp only [orderKey, hx, hinf]
  cases fsign x <;> cases fsign y <;> simp [hle] <;> omega

/-! ## sat_floor -/

theorem satFloor_inf {t : F64} (lo hi : Nat) (h : isInf t = true) :
    satFloor t lo hi = if fsign t then lo else hi := by
  simp [satFloor, isNaN_of_isInf h, h]

theorem satFloor_finite {t : F64} (lo hi : Nat) (h : isFinite t = true) :
    satFloor t lo hi = (min (hi : Int) (max (lo : Int) (ffloor t))).toNat := by
  simp [satFloor, isNaN_of_isFinite h, isInf_of_isFinite h]

/-- Below its upper bound sat_floor is at least the floor, above its lower bound at most the floor. -/
theorem satFloor_floor {t : F64} {lo hi : Nat} (h : isFinite t = true) :
    (satFloor t lo hi < hi → fval t < ((satFloor t lo hi : Int) + 1) * 2 ^ 1074) ∧
      (lo < satFloor t lo hi → (satFloor t lo hi : Int) * 2 ^ 1074 ≤ fval t) := by
  rw [← Int.ediv_lt_iff_lt_mul (by positivity), ← Int.le_ediv_iff_mul_le (by positivity), ← ffloor,
    satFloor_finite lo hi h]
  omega

end Sys2Proof.Machine

namespace Sys2Proof

open Machine

/-- Settles O58 from the exact conversion, the order of the patterns and the floor brought into its range. -/
theorem conversionsAndComparisonsAreExact : Obligations.ConversionsAndComparisonsAreExact := by
  refine ⟨fun n => fofNat_exact, fun x => ⟨fbits_fabs x, fsign_fabs x, fbits_fneg x, fsign_fneg x⟩,
    fun x y => ⟨flt_finite, ?_, fle_eq_not_flt, flt_inf⟩,
    fun t lo hi hle => ⟨satFloor_nan lo hi, satFloor_inf lo hi, fun h => ?_⟩⟩
  · rintro (h | h)
    · exact ⟨flt_nan_left y h, fle_nan_left y h⟩
    · exact ⟨flt_nan_right x h, fle_nan_right x h⟩
  · obtain ⟨hlo, hhi⟩ := satFloor_range t lo hi hle
    exact ⟨hlo, hhi, satFloor_floor h⟩

end Sys2Proof
end

section
/-! SUPPORT. O57: the four operations (spec/00_scope.md R9; log entry 14), one law per case of the operands. -/

namespace Sys2Proof.Machine

/-! ## Packed results -/

@[simp] theorem fsign_packFloat_roundMag (negative : Bool) (num den : Nat) :
    fsign (packFloat negative (roundMag num den)) = negative := fsign_packFloat _ (roundMag_lt _ _)

@[simp] theorem fbits_packFloat_roundMag (negative : Bool) (num den : Nat) :
    fbits (packFloat negative (roundMag num den)) = roundMag num den := fbits_packFloat _ (roundMag_lt _ _)

@[simp] theorem isNaN_packFloat_roundMag (negative : Bool) (num den : Nat) :
    isNaN (packFloat negative (roundMag num den)) = false := isNaN_packFloat _ (roundMag_le _ _)

@[simp] theorem fsign_packFloat_inf (negative : Bool) : fsign (packFloat negative infBits) = negative :=
  fsign_packFloat _ (by decide)

@[simp] theorem fbits_packFloat_inf (negative : Bool) : fbits (packFloat negative infBits) = infBits :=
  fbits_packFloat _ (by decide)

@[simp] theorem isNaN_packFloat_inf (negative : Bool) : isNaN (packFloat negative infBits) = false :=
  isNaN_packFloat _ (Nat.le_refl _)

@[simp] theorem isInf_packFloat_inf (negative : Bool) : isInf (packFloat negative infBits) = true :=
  (isInf_iff _).mpr (fbits_packFloat_inf _)

@[simp] theorem fsign_packFloat_zero (negative : Bool) : fsign (packFloat negative 0) = negative :=
  fsign_packFloat _ (by decide)

@[simp] theorem fbits_packFloat_zero (negative : Bool) : fbits (packFloat negative 0) = 0 :=
  fbits_packFloat _ (by decide)

@[simp] theorem isNaN_packFloat_zero (negative : Bool) : isNaN (packFloat negative 0) = false :=
  isNaN_packFloat _ (Nat.zero_le _)

@[simp] theorem isZero_packFloat_zero (negative : Bool) : isZero (packFloat negative 0) = true :=
  (isZero_iff _).mpr (fbits_packFloat_zero _)

@[simp] theorem fval_fneg (x : F64) : fval (fneg x) = - fval x := by
  simp only [fval, fmag, fsign_fneg, fbits_fneg]
  cases fsign x <;> simp

/-! ## Finite operands -/

section
variable (d : Site) {x y : F64}

theorem fadd_finite (hx : isFinite x = true) (hy : isFinite y = true) :
    fadd d x y = if fval x + fval y = 0 then zeroSum x y
      else packFloat (decide (fval x + fval y < 0)) (roundMag (fval x + fval y).natAbs 1) := by
  simp [fadd, isNaN_of_isFinite hx, isNaN_of_isFinite hy, isInf_of_isFinite hx, isInf_of_isFinite hy]

/-- The exact sum, zero included, rounded once. -/
theorem fbits_fadd (hx : isFinite x = true) (hy : isFinite y = true) :
    fbits (fadd d x y) = roundMag (fval x + fval y).natAbs 1 := by
  rw [fadd_finite d hx hy]
  split
  · next h =>
    rw [h, zeroSum, fbits_packFloat_zero]
    decide +kernel
  · exact fbits_packFloat_roundMag _ _ _

theorem fsign_fadd (hx : isFinite x = true) (hy : isFinite y = true) (h : fval x + fval y ≠ 0) :
    fsign (fadd d x y) = decide (fval x + fval y < 0) := by
  rw [fadd_finite d hx hy, if_neg h, fsign_packFloat_roundMag]

theorem fsign_fadd_zero (hx : isFinite x = true) (hy : isFinite y = true) (h : fval x + fval y = 0) :
    fsign (fadd d x y) = (fsign x && fsign y) := by
  rw [fadd_finite d hx hy, if_pos h, zeroSum, fsign_packFloat_zero]

theorem fmul_finite (hx : isFinite x = true) (hy : isFinite y = true) :
    fmul d x y = packFloat (signXor x y) (roundMag (fmag x * fmag y) (2 ^ 1074)) := by
  simp [-Nat.reducePow, fmul, isNaN_of_isFinite hx, isNaN_of_isFinite hy, isInf_of_isFinite hx, isInf_of_isFinite hy]

theorem fdiv_finite (hx : isFinite x = true) (hy : isFinite y = true) (h : isZero y = false) :
    fdiv d x y = packFloat (signXor x y) (roundMag (fmag x * 2 ^ 1074) (fmag y)) := by
  simp [-Nat.reducePow, fdiv, isNaN_of_isFinite hx, isNaN_of_isFinite hy, isInf_of_isFinite hx, isInf_of_isFinite hy, h]

theorem fdiv_by_zero (hx : isFinite x = true) (hx0 : isZero x = false) (hy : isFinite y = true)
    (hy0 : isZero y = true) : fdiv d x y = packFloat (signXor x y) infBits := by
  simp [fdiv, isNaN_of_isFinite hx, isNaN_of_isFinite hy, isInf_of_isFinite hx, isInf_of_isFinite hy, hx0, hy0]

end

/-! ## NaN, infinite and zero operands -/

section
variable (d : Site) (x y : F64)

@[simp] theorem isNaN_zeroSum : isNaN (zeroSum x y) = false := isNaN_packFloat_zero _

theorem isNaN_fadd :
    isNaN (fadd d x y) = (isNaN x || isNaN y || (isInf x && isInf y && fsign x != fsign y)) := by
  unfold fadd
  split
  · next h => rw [isNaN_producedNaN, h, Bool.true_or]
  · next h =>
    simp only [Bool.or_eq_true, not_or, Bool.not_eq_true] at h
    obtain ⟨hx, hy⟩ := h
    split
    · next hi =>
      split
      · next ho => simp [isNaN_producedNaN, hi, ho]
      · next ho => simp [hx, hy, hi, ho]
    · next hi =>
      split
      · simp [hx, hy, hi]
      · split <;> simp [hx, hy, hi]

theorem isNaN_fsub :
    isNaN (fsub d x y) = (isNaN x || isNaN y || (isInf x && isInf y && fsign x == fsign y)) := by
  rw [fsub, isNaN_fadd, isNaN_fneg, isInf_fneg, fsign_fneg]
  cases fsign x <;> cases fsign y <;> rfl

theorem isNaN_fmul :
    isNaN (fmul d x y) = (isNaN x || isNaN y || (isInf x && isZero y) || (isZero x && isInf y)) := by
  unfold fmul
  split
  · next h => rw [isNaN_producedNaN, h, Bool.true_or, Bool.true_or]
  · next h =>
    simp only [Bool.or_eq_true, not_or, Bool.not_eq_true] at h
    obtain ⟨hx, hy⟩ := h
    split
    · next hi =>
      split
      · next hz => simp [isNaN_producedNaN, hi, hz]
      · next hz => simp [hx, hy, hi, hz, isZero_of_isInf hi]
    · next hi =>
      split
      · next hj =>
        split
        · next hz => simp [isNaN_producedNaN, hj, hz]
        · next hz => simp [hx, hy, hi, hz]
      · next hj => simp [-Nat.reducePow, hx, hy, hi, hj]

theorem isNaN_fdiv :
    isNaN (fdiv d x y) = (isNaN x || isNaN y || (isInf x && isInf y) || (isZero x && isZero y)) := by
  unfold fdiv
  split
  · next h => rw [isNaN_producedNaN, h, Bool.true_or, Bool.true_or]
  · next h =>
    simp only [Bool.or_eq_true, not_or, Bool.not_eq_true] at h
    obtain ⟨hx, hy⟩ := h
    split
    · next hi =>
      split
      · next hj => simp [isNaN_producedNaN, hi, hj]
      · next hj => simp [hx, hy, hi, hj, isZero_of_isInf hi]
    · next hi =>
      split
      · next hj => simp [hx, hy, hi, isZero_of_isInf hj]
      · next hj =>
        split
        · next hz =>
          split
          · next hw => simp [isNaN_producedNaN, hz, hw]
          · next hw => simp [hx, hy, hi, hw]
        · next hz => simp [-Nat.reducePow, hx, hy, hi, hz]

variable {x y}

theorem fadd_inf_left (hx : isInf x = true) (h : isNaN (fadd d x y) = false) : fadd d x y = x := by
  rw [isNaN_fadd, hx, Bool.true_and, Bool.or_eq_false_iff] at h
  simp [fadd, h, hx]

/-- Of two infinities the sum is no NaN only where they are one pattern. -/
theorem fadd_inf_right (hy : isInf y = true) (h : isNaN (fadd d x y) = false) : fadd d x y = y := by
  cases hx : isInf x with
  | true =>
    rw [fadd_inf_left d hx h]
    rw [isNaN_fadd, hx, hy, Bool.or_eq_false_iff] at h
    exact eq_of_fsign_fbits (by simpa using h.2) (((isInf_iff x).mp hx).trans ((isInf_iff y).mp hy).symm)
  | false =>
    rw [isNaN_fadd, Bool.or_eq_false_iff] at h
    simp [fadd, h, hx, hy]

theorem fmul_inf (hi : isInf x = true ∨ isInf y = true) (h : isNaN (fmul d x y) = false) :
    fmul d x y = packFloat (signXor x y) infBits := by
  simp only [isNaN_fmul, Bool.or_eq_false_iff, Bool.and_eq_false_iff] at h
  obtain ⟨⟨hn, hxy⟩, hyx⟩ := h
  cases hx : isInf x with
  | true =>
    have hz : isZero y = false := by simpa [hx] using hxy
    simp [fmul, hn, hx, hz]
  | false =>
    have hy : isInf y = true := by simpa [hx] using hi
    have hz : isZero x = false := by simpa [hy] using hyx
    simp [fmul, hn, hx, hy, hz]

theorem fdiv_inf_left (hx : isInf x = true) (h : isNaN (fdiv d x y) = false) :
    fdiv d x y = packFloat (signXor x y) infBits := by
  rw [isNaN_fdiv, hx] at h
  simp only [Bool.or_eq_false_iff, Bool.true_and] at h
  simp [fdiv, h, hx]

theorem fdiv_inf_right (hy : isInf y = true) (h : isNaN (fdiv d x y) = false) :
    fdiv d x y = packFloat (signXor x y) 0 := by
  rw [isNaN_fdiv, hy] at h
  simp only [Bool.or_eq_false_iff, Bool.and_true] at h
  simp [fdiv, h, hy]

end

end Sys2Proof.Machine

namespace Sys2Proof

open Machine

/-- Settles O57: the format by its fields, the rounding as the nearest pattern of a scale without bound that is cut off
at infinity, and the operations case by case. -/
theorem arithmeticIsCorrectlyRounded : Obligations.ArithmeticIsCorrectlyRounded := by
  refine ⟨fun x =>
      ⟨isFinite_eq x, isInf_eq x, isNaN_eq x, fmag_subnormal, fun h _ => fmag_normal h, fval_eq_sign_mul x⟩,
    fun num den hd => ⟨roundMag_lt_infBits_iff num hd, fun h q _ => roundMag_isNearestEven hd h q⟩,
    fun d x y hx hy => ?_, fun d x y => ?_⟩
  · have hy' : isFinite (fneg y) = true := (isFinite_fneg y).trans hy
    refine ⟨fbits_fadd d hx hy, fsign_fadd d hx hy, fsign_fadd_zero d hx hy, ?_, ?_, ?_, ?_, ?_, ?_, ?_⟩
    · rw [fsub, fbits_fadd d hx hy', fval_fneg, Int.sub_eq_add_neg]
    · rw [fsub, Int.sub_eq_add_neg, ← fval_fneg]
      exact fsign_fadd d hx hy'
    · rw [fsub, Int.sub_eq_add_neg, ← fval_fneg, ← fsign_fneg]
      exact fsign_fadd_zero d hx hy'
    · rw [fmul_finite d hx hy, fbits_packFloat_roundMag]
    · rw [fmul_finite d hx hy, fsign_packFloat_roundMag, signXor]
    · rw [ne_eq, fmag_eq_zero_iff, Bool.not_eq_true]
      intro hz
      rw [fdiv_finite d hx hy hz]
      exact ⟨fbits_packFloat_roundMag _ _ _, fsign_packFloat_roundMag _ _ _⟩
    · rw [ne_eq, fmag_eq_zero_iff, fmag_eq_zero_iff, Bool.not_eq_true]
      intro hy0 hx0
      rw [fdiv_by_zero d hx hx0 hy hy0]
      exact ⟨fbits_packFloat_inf _, fsign_packFloat_inf _⟩
  · refine ⟨isNaN_fadd d x y, isNaN_fsub d x y, isNaN_fmul d x y, isNaN_fdiv d x y, fadd_inf_left d, fadd_inf_right d,
      fadd_inf_left d, fun hy => fadd_inf_right d ((isInf_fneg y).trans hy), fun hi h => ?_, fun hx h => ?_,
      fun hy h => ?_⟩
    · rw [fmul_inf d hi h]
      exact ⟨isInf_packFloat_inf _, fsign_packFloat_inf _⟩
    · rw [fdiv_inf_left d hx h]
      exact ⟨isInf_packFloat_inf _, fsign_packFloat_inf _⟩
    · rw [fdiv_inf_right d hy h]
      exact ⟨isZero_packFloat_zero _, fsign_packFloat_zero _⟩

end Sys2Proof
end

section
/-! SUPPORT. What the evaluation of a command may give (spec/10_state.md R46): a value, one of its errors, or the first
poison byte it reads (spec/70_reset_and_hazards.md R262). Each rule below is one step of an evaluation. -/

namespace Sys2Proof.Machine

/-- An evaluation against `s` gives a value with `post`, raises an error with `raises`, or names a poison byte. -/
def Gives {α : Type} (s : State) (raises : CmdError → Prop) (post : α → Prop) : Except Stop α → Prop
  | .ok v => post v
  | .error (.raise e) => raises e
  | .error (.poison a) => Memory.read s.mem a = none

section
variable {α β : Type} {s : State} {raises : CmdError → Prop} {post : α → Prop}

theorem gives_ok {v : α} (h : post v) : Gives s raises post (.ok v) := h

theorem gives_raiseErr {code : ErrCode} {kind pos : Byte} (h : raises ⟨code, kind, pos⟩) :
    Gives s raises post (raiseErr code kind pos) := h

theorem gives_poison {a : Nat} (h : Memory.read s.mem a = none) : Gives s raises post (.error (.poison a)) := h

/-- Evaluations in sequence: the first hands its value's property to the second. -/
theorem Gives.bind {r : Except Stop α} {f : α → Except Stop β} {next : β → Prop} (hr : Gives s raises post r)
    (hf : ∀ v, post v → Gives s raises next (f v)) : Gives s raises next (r >>= f) := by
  match r, hr with
  | .ok v, hv => exact hf v hv
  | .error (.raise _), he => exact he
  | .error (.poison _), ha => exact ha

/-- A check that raises its error, or lets the evaluation go on. -/
theorem gives_check {c : Prop} [Decidable c] {code : ErrCode} {kind pos : Byte} {r : Except Stop α}
    (he : raises ⟨code, kind, pos⟩) (hr : ¬c → Gives s raises post r) :
    Gives s raises post (if c then raiseErr code kind pos else r) := by
  split
  · exact gives_raiseErr he
  · next h => exact hr h

/-! ## Checks of the command word -/

theorem gives_checkField {len : BitVec 3} {hoff : BitVec 8} (h4 : raises ⟨.illegalCommand, 4, 0⟩)
    (h5 : raises ⟨.illegalCommand, 5, 0⟩) :
    Gives s raises (fun _ => hoff.toNat + len.toNat ≤ 256) (checkField len hoff) :=
  gives_check h4 fun _ => gives_check h5 fun h => gives_ok (Nat.not_lt.mp h)

theorem gives_checkIndex {idx : BitVec 7} (h6 : raises ⟨.illegalCommand, 6, 0⟩) :
    Gives s raises (fun _ => idx.toNat ≤ 80) (checkIndex idx) :=
  gives_check h6 fun h => gives_ok (Nat.not_lt.mp h)

/-! ## Reads -/

theorem gives_readHash (s : State) (raises : CmdError → Prop) (p : Nat) :
    Gives s raises (fun _ => True) (readHash s p) := by
  rcases readHash_cases s p with ⟨b, h, _⟩ | ⟨h, hn⟩
  · rw [h]; exact gives_ok trivial
  · rw [h]; exact gives_poison hn

theorem gives_readPix (s : State) (raises : CmdError → Prop) (a : Nat) :
    Gives s raises (fun _ => True) (readPix s a) := by
  rcases readPix_cases s a with ⟨b, h, _⟩ | ⟨h, hn⟩
  · rw [h]; exact gives_ok trivial
  · rw [h]; exact gives_poison hn

theorem gives_readGrid (s : State) (raises : CmdError → Prop) (k : Nat) :
    Gives s raises (fun _ => True) (readGrid s k) := by
  rcases readGrid_cases s k with ⟨t, h⟩ | ⟨i, _, h, hn⟩
  · rw [h]; exact gives_ok trivial
  · rw [h]; exact gives_poison hn

theorem gives_readGridFrom (s : State) (raises : CmdError → Prop) (k count : Nat) :
    Gives s raises (fun ts => ts.length = count) (readGridFrom s k count) := by
  induction count generalizing k with
  | zero => exact gives_ok rfl
  | succ n ih =>
    exact (gives_readGrid s raises k).bind fun t _ => (ih (k + 1)).bind fun ts h => gives_ok (by simp [h])

theorem gives_readRgb (s : State) (raises : CmdError → Prop) (q : Nat) :
    Gives s raises (fun _ => True) (readRgb s q) :=
  (gives_readPix s raises _).bind fun _ _ => (gives_readPix s raises _).bind fun _ _ =>
    (gives_readPix s raises _).bind fun _ _ => gives_ok trivial

theorem gives_readRgbFrom (s : State) (raises : CmdError → Prop) (q count : Nat) :
    Gives s raises (fun ps => ps.length = count) (readRgbFrom s q count) := by
  induction count generalizing q with
  | zero => exact gives_ok rfl
  | succ n ih =>
    exact (gives_readRgb s raises q).bind fun p _ => (ih (q + 1)).bind fun ps h => gives_ok (by simp [h])

/-! ## The hash -/

/-- A character's digit is one of the 83 (R120). -/
theorem indexOf_lt {c : Byte} {d : Nat} (h : indexOf c = some d) : d < 83 := by
  have hd : d < alphabet.length := (List.idxOf?_eq_some_iff.mp h).1
  rwa [show alphabet.length = 83 by decide] at hd

/-- A character read as a digit: FORMAT_ERROR where it has none. -/
theorem gives_digit {c : Byte} {pos : Byte} {f : Nat → Except Stop α} (h : raises ⟨.formatError, 2, pos⟩)
    (hf : ∀ d < 83, Gives s raises post (f d)) :
    Gives s raises post
      (match indexOf c with
      | none => raiseErr .formatError 2 pos
      | some d => f d) := by
  cases hc : indexOf c with
  | none => exact gives_raiseErr h
  | some d => exact hf d (indexOf_lt hc)

theorem gives_b83DecodeFrom (s : State) (h : ∀ pos, raises ⟨.formatError, 2, pos⟩) (p count v : Nat) :
    Gives s raises (fun _ => True) (b83DecodeFrom s p count v) := by
  induction count generalizing p v with
  | zero => exact gives_ok trivial
  | succ n ih =>
    exact (gives_readHash s raises p).bind fun c _ => gives_digit (h _) fun d _ => ih (p + 1) (v * 83 + d)

theorem gives_b83Decode (s : State) (h : ∀ pos, raises ⟨.formatError, 2, pos⟩) (p count : Nat) :
    Gives s raises (fun _ => True) (b83Decode s p count) :=
  gives_b83DecodeFrom s h p count 0

theorem gives_scanHash (s : State) (h : ∀ pos, raises ⟨.formatError, 2, pos⟩) (p count : Nat) :
    Gives s raises (fun _ => True) (scanHash s p count) := by
  induction count generalizing p with
  | zero => exact gives_ok trivial
  | succ n ih =>
    exact (gives_readHash s raises p).bind fun c _ => gives_digit (h _) fun _ _ => ih (p + 1)

theorem gives_decodeAcs (s : State) (h : ∀ pos, raises ⟨.formatError, 2, pos⟩) (d : Site) (m : F64) (k count : Nat) :
    Gives s raises (fun ts => ts.length = count) (decodeAcs d s m k count) := by
  induction count generalizing k with
  | zero => exact gives_ok rfl
  | succ n ih =>
    exact (gives_b83Decode s h _ _).bind fun v _ => (ih (k + 1)).bind fun ts ht => gives_ok (by simp [ht])

/-- A declared grid has at most 81 entries (spec/44_decoder.md R190). -/
theorem sizeFlag_le {d : Nat} (h : d < 83) : (sizeFlag d).1 * (sizeFlag d).2 ≤ 81 := by
  revert h d
  decide

theorem gives_validate (s : State) (hl : raises ⟨.lengthError, 0, 0⟩) (hf : ∀ pos, raises ⟨.formatError, 2, pos⟩)
    (hd : raises ⟨.formatError, 1, 0⟩) : Gives s raises (fun dims => dims.1 * dims.2 ≤ 81) (validate s) :=
  gives_check hl fun _ => (gives_readHash s raises 0).bind fun _ _ => gives_digit (hf _) fun _ h83 =>
    gives_check hd fun _ => gives_ok (sizeFlag_le h83)

/-! ## The encoder's checks -/

theorem gridCount_le {s : State} (h : encDims (gridNx s) (gridNy s) = true) : gridCount s ≤ 81 := by
  simp only [encDims, Bool.and_eq_true, decide_eq_true_eq] at h
  obtain ⟨⟨⟨_, hx⟩, _⟩, hy⟩ := h
  exact Nat.mul_le_mul hx hy

theorem gives_encCheck (s : State) (hr : raises ⟨.rangeError, 0, 0⟩) (hs : raises ⟨.sizeMismatch, 0, 0⟩)
    (hc : raises ⟨.capacityError, 0, 0⟩) (he : raises ⟨.emptyImage, 0, 0⟩) :
    Gives s raises (fun _ => gridCount s ≤ 81) (encCheck s) :=
  gives_check hr fun h => gives_check hs fun _ => gives_check hc fun _ => gives_check he fun _ =>
    gives_ok (gridCount_le (by simpa using h))

end

end Sys2Proof.Machine
end

section
/-! SUPPORT. Which bytes a run of writes may change, and the lengths of the runs that commands write. -/

namespace Sys2Proof.Machine

/-! ## Changes within a set of addresses -/

/-- `m'` comes of `m` by writes at addresses with `p`: the canonical form is kept, every new cell stands at such an
address, and every other address reads as before. -/
structure ChangesWithin (p : Nat → Prop) (m m' : Memory) : Prop where
  wf : Memory.wf m = true → Memory.wf m' = true
  cells : ∀ c ∈ m', c ∈ m ∨ p c.1
  frame : ∀ x, ¬p x → Memory.read m' x = Memory.read m x

theorem ChangesWithin.refl (p : Nat → Prop) (m : Memory) : ChangesWithin p m m :=
  ⟨id, fun _ => .inl, fun _ _ => rfl⟩

theorem ChangesWithin.writeBytes {p : Nat → Prop} {m m' : Memory} {a : Nat} {bs : List Byte}
    (h : ChangesWithin p m m') (hp : ∀ x, a ≤ x → x < a + bs.length → p x) :
    ChangesWithin p m (Memory.writeBytes m' a bs) where
  wf hm := wf_writeBytes bs m' a (h.wf hm)
  cells c hc := by
    rcases mem_writeBytes bs m' a c hc with ⟨h1, h2⟩ | hc
    · exact .inr (hp c.1 h1 h2)
    · exact h.cells c hc
  frame x hx := by
    have hout : x < a ∨ a + bs.length ≤ x := by
      by_contra hin
      exact hx (hp x (by omega) (by omega))
    rw [read_writeBytes_outside bs m' a x hout, h.frame x hx]

/-! ## The regions of the memories (R61) -/

/-- The address lies in HASHMEM, GRIDMEM or PIXMEM. -/
def InMemories (a : Nat) : Prop := regionOf a = .hash ∨ regionOf a = .grid ∨ regionOf a = .pix

theorem cellsInMap_iff (m : Memory) : cellsInMap m = true ↔ ∀ c ∈ m, InMemories c.1 := by
  simp [cellsInMap, InMemories, or_assoc]

/-- Writes within the memories keep the memory within the address map. -/
theorem ChangesWithin.cellsInMap {p : Nat → Prop} {m m' : Memory} (h : ChangesWithin p m m')
    (hp : ∀ a, p a → InMemories a) (hm : cellsInMap m = true) : cellsInMap m' = true := by
  rw [cellsInMap_iff] at hm ⊢
  intro c hc
  rcases h.cells c hc with hc | hc
  · exact hm c hc
  · exact hp _ hc

/-- The region of an address, by its bounds. -/
theorem regionOf_eq_iff (a : Nat) :
    (regionOf a = .csr ↔ a < 0x100) ∧ (regionOf a = .hash ↔ 0x100 ≤ a ∧ a < 0x200) ∧
      (regionOf a = .grid ↔ 0x800 ≤ a ∧ a < 0xF98) ∧
      (regionOf a = .pix ↔ 0x10000 ≤ a ∧ a < 0x10000 + pixmemBytes) := by
  unfold regionOf hashBase gridBase pixBase
  repeat' split
  all_goals simp only [reduceCtorEq, true_iff, false_iff]; omega

/-- A region of the map is an interval: between two of its addresses lies no other. -/
theorem regionOf_between {a x b : Nat} (hab : regionOf a = regionOf b) (hr : regionOf a ≠ .reserved) (h1 : a ≤ x)
    (h2 : x ≤ b) : regionOf x = regionOf a := by
  obtain ⟨ca, ha, ga, pa⟩ := regionOf_eq_iff a
  obtain ⟨cb, hb, gb, pb⟩ := regionOf_eq_iff b
  obtain ⟨cx, hx, gx, px⟩ := regionOf_eq_iff x
  cases hra : regionOf a with
  | reserved => exact absurd hra hr
  | csr => have := ca.mp hra; have := cb.mp (hab ▸ hra); exact cx.mpr (by omega)
  | hash => have := ha.mp hra; have := hb.mp (hab ▸ hra); exact hx.mpr (by omega)
  | grid => have := ga.mp hra; have := gb.mp (hab ▸ hra); exact gx.mpr (by omega)
  | pix => have := pa.mp hra; have := pb.mp (hab ▸ hra); exact px.mpr (by omega)

/-- A served access outside the CSR window moves bytes of the memories only. -/
theorem inMemories_of_accessOk {w : Width} {a : Nat} (ok : accessOk w a = true) (h : regionOf a ≠ .csr) {x : Nat}
    (h1 : a ≤ x) (h2 : x < a + widthBytes w) : InMemories x := by
  simp only [accessOk, Bool.and_eq_true, beq_iff_eq] at ok
  obtain ⟨⟨_, takes⟩, last⟩ := ok
  have hr : regionOf a ≠ .reserved := by
    intro hr
    simp [hr, regionTakes] at takes
  have hx : regionOf x = regionOf a := regionOf_between last.symm hr h1 (by omega)
  rw [InMemories, hx]
  cases hra : regionOf a with
  | csr => exact absurd hra h
  | reserved => exact absurd hra hr
  | hash | grid | pix => simp

/-! ## Lengths of written runs -/

@[simp] theorem b83Encode_length (value len : Nat) : (b83Encode value len).length = len := by
  simp [b83Encode]

@[simp] theorem tripleBytes_length (t : Triple) : (tripleBytes t).length = 24 := by
  simp [tripleBytes]

theorem flatMap_tripleBytes_length (ts : List Triple) : (ts.flatMap tripleBytes).length = 24 * ts.length := by
  simp [List.length_flatMap, Nat.mul_comm]

@[simp] theorem dctiBytes_length (d : Site) (w h nx : Nat) (grid : List Triple) :
    (dctiBytes d w h nx grid).length = w * h * 4 := by
  simp [dctiBytes, dctiPixel, List.length_flatMap]

@[simp] theorem dctfEntries_length (d : Site) (w h nx : Nat) (ps : List Rgb) (first count : Nat) :
    (dctfEntries d w h nx ps first count).length = count := by
  simp [dctfEntries]

@[simp] theorem acChars_length (d : Site) (m : F64) (k : Nat) (ts : List Triple) :
    (acChars d m k ts).length = 2 * ts.length := by
  induction ts generalizing k with
  | nil => rfl
  | cons t ts ih => simp [acChars, ih]; omega

/-- A hash has 6 characters and 2 more for each AC term (R169). -/
@[simp] theorem hashChars_length (d : Site) (nx ny : Nat) (dc : Triple) (acs : List Triple) :
    (hashChars d nx ny dc acs).length = 6 + 2 * acs.length := by
  simp [hashChars]
  omega

end Sys2Proof.Machine
end

section
/-! SUPPORT. What each command may do, said once per command: the errors of its row of the matrix
(spec/60_exceptions.md R233), and writes of its own outputs alone (spec/10_state.md R22, R43 to R45). -/

namespace Sys2Proof.Machine

/-! ## Errors and writes of a command -/

/-- The error is in the command's row of the matrix (R233), and its record is one that R232 lists. -/
def MayRaise (i : Instr) (e : CmdError) : Prop :=
  mayRaise i (errCodeBits e.code) e.kind = true ∧ legalOutcome (errCodeBits e.code) e.kind e.pos = true

/-- A character outside the alphabet is recorded at any position. -/
theorem MayRaise.badChar {i : Instr} (h : mayRaise i 4 2 = true) (pos : Byte) : MayRaise i ⟨.formatError, 2, pos⟩ :=
  ⟨h, rfl⟩

/-- The command writes the memory that the address lies in. -/
def writesAt (i : Instr) (a : Nat) : Bool :=
  match regionOf a with
  | .hash => writesHash i
  | .grid => writesGrid i
  | .pix => writesPix i
  | .csr => false
  | .reserved => false

theorem inMemories_of_writesAt {i : Instr} {a : Nat} (h : writesAt i a = true) : InMemories a := by
  unfold writesAt at h
  unfold InMemories
  cases hr : regionOf a <;> simp [hr] at h ⊢

/-- What the evaluation of a command leaves alone in the state `u` that it gives. -/
structure WritesOnly (i : Instr) (s u : State) : Prop where
  inputs : SameInputs s u
  result : writesResult i = false → u.result = s.result
  maxreg : writesMaxreg i = false → u.maxreg = s.maxreg
  hashlen : i ≠ .encode → u.hashlen = s.hashlen
  dims : i ≠ .decode → u.dimNx = s.dimNx ∧ u.dimNy = s.dimNy
  mem : ChangesWithin (writesAt i · = true) s.mem u.mem

section
variable {i : Instr} {s u : State}

theorem WritesOnly.refl (i : Instr) (s : State) : WritesOnly i s s where
  inputs := by simp [SameInputs]
  result _ := rfl
  maxreg _ := rfl
  hashlen _ := rfl
  dims _ := ⟨rfl, rfl⟩
  mem := .refl _ _

theorem WritesOnly.setResult (h : WritesOnly i s u) (hi : writesResult i = true) (v : DWord) :
    WritesOnly i s { u with result := v } where
  inputs := h.inputs
  result hn := by simp [hi] at hn
  maxreg := h.maxreg
  hashlen := h.hashlen
  dims := h.dims
  mem := h.mem

theorem WritesOnly.setMaxreg (h : WritesOnly i s u) (hi : writesMaxreg i = true) (v : DWord) :
    WritesOnly i s { u with maxreg := v } where
  inputs := h.inputs
  result := h.result
  maxreg hn := by simp [hi] at hn
  hashlen := h.hashlen
  dims := h.dims
  mem := h.mem

/-- A run of bytes written to the memory, all at addresses that the command writes. -/
theorem WritesOnly.writeBytes (h : WritesOnly i s u) {a : Nat} {bs : List Byte}
    (hw : ∀ x, a ≤ x → x < a + bs.length → writesAt i x = true) :
    WritesOnly i s { u with mem := Memory.writeBytes u.mem a bs } where
  inputs := h.inputs
  result := h.result
  maxreg := h.maxreg
  hashlen := h.hashlen
  dims := h.dims
  mem := h.mem.writeBytes hw

theorem WritesOnly.writeHash (h : WritesOnly i s u) (hi : writesHash i = true) {p : Nat} {bs : List Byte}
    (hp : p + bs.length ≤ 256) : WritesOnly i s (writeHash u p bs) :=
  h.writeBytes fun x h1 h2 => by
    unfold hashBase at h1 h2
    rw [writesAt, regionOf_hash (by omega) (by omega)]
    exact hi

theorem WritesOnly.writeGrid (h : WritesOnly i s u) (hi : writesGrid i = true) {k : Nat} {ts : List Triple}
    (hk : k + ts.length ≤ 81) : WritesOnly i s (writeGrid u k ts) :=
  h.writeBytes fun x h1 h2 => by
    rw [flatMap_tripleBytes_length] at h2
    unfold gridAddr gridBase at h1 h2
    rw [writesAt, regionOf_grid (by omega) (by omega)]
    exact hi

theorem WritesOnly.writePix (h : WritesOnly i s u) (hi : writesPix i = true) {bs : List Byte}
    (hl : exceedsPixmem bs.length = false) : WritesOnly i s (writePix u bs) :=
  h.writeBytes fun x h1 h2 => by
    unfold pixBase at h1 h2
    have hle : bs.length ≤ pixmemBytes := by simpa [exceedsPixmem] using hl
    rw [writesAt, regionOf_pix (by omega) (by omega)]
    exact hi

end

/-! ## Command by command -/

/-- The command's meaning is a completion (R46) of an evaluation that raises its errors, writes its outputs, or stops at
a poison byte. -/
def Evaluates (i : Instr) (s : State) : Prop :=
  ∃ r, exec i s = commit s r ∧ Gives s (MayRaise i) (WritesOnly i s) r

theorem evaluates_nop (s : State) : Evaluates .nop s :=
  ⟨_, rfl, gives_ok (.refl _ s)⟩

theorem evaluates_b83enc (len : BitVec 3) (hoff : BitVec 8) (s : State) : Evaluates (.b83enc len hoff) s :=
  ⟨_, rfl, (gives_checkField ⟨rfl, rfl⟩ ⟨rfl, rfl⟩).bind fun _ h =>
    gives_ok ((WritesOnly.refl _ s).writeHash rfl (by simpa using h))⟩

theorem evaluates_b83dec (len : BitVec 3) (hoff : BitVec 8) (s : State) : Evaluates (.b83dec len hoff) s :=
  ⟨_, rfl, (gives_checkField ⟨rfl, rfl⟩ ⟨rfl, rfl⟩).bind fun _ _ =>
    (gives_b83Decode s (.badChar rfl) _ _).bind fun _ _ => gives_ok ((WritesOnly.refl _ s).setResult rfl _)⟩

theorem evaluates_s2l (s : State) : Evaluates .s2l s :=
  ⟨_, rfl, gives_ok ((WritesOnly.refl _ s).setResult rfl _)⟩

theorem evaluates_l2s (s : State) : Evaluates .l2s s :=
  ⟨_, rfl, gives_ok ((WritesOnly.refl _ s).setResult rfl _)⟩

theorem evaluates_spow (s : State) : Evaluates .spow s :=
  ⟨_, rfl, gives_ok ((WritesOnly.refl _ s).setResult rfl _)⟩

/-- QMAX writes RESULT and MAXREG (R166). -/
theorem writesOnly_qmax (s : State) (v m : DWord) : WritesOnly .qmax s { s with result := v, maxreg := m } where
  inputs := by simp [SameInputs]
  result h := absurd h (by decide)
  maxreg h := absurd h (by decide)
  hashlen _ := rfl
  dims _ := ⟨rfl, rfl⟩
  mem := .refl _ _

theorem evaluates_qmax (s : State) : Evaluates .qmax s :=
  ⟨_, rfl, gives_check ⟨rfl, rfl⟩ fun _ => (gives_readGridFrom s _ _ _).bind fun _ _ =>
    gives_ok (writesOnly_qmax s _ _)⟩

theorem evaluates_qdc (s : State) : Evaluates .qdc s :=
  ⟨_, rfl, (gives_readGrid s _ _).bind fun _ _ => gives_ok ((WritesOnly.refl _ s).setResult rfl _)⟩

theorem evaluates_qac (idx : BitVec 7) (s : State) : Evaluates (.qac idx) s :=
  ⟨_, rfl, (gives_checkIndex ⟨rfl, rfl⟩).bind fun _ _ => (gives_readGrid s _ _).bind fun _ _ =>
    gives_ok ((WritesOnly.refl _ s).setResult rfl _)⟩

theorem evaluates_dqmax (s : State) : Evaluates .dqmax s :=
  ⟨_, rfl, gives_check ⟨rfl, rfl⟩ fun _ => gives_ok ((WritesOnly.refl _ s).setMaxreg rfl _)⟩

theorem evaluates_dqdc (s : State) : Evaluates .dqdc s :=
  ⟨_, rfl, gives_ok ((WritesOnly.refl _ s).writeGrid rfl (by simp))⟩

theorem evaluates_dqac (idx : BitVec 7) (s : State) : Evaluates (.dqac idx) s :=
  ⟨_, rfl, (gives_checkIndex ⟨rfl, rfl⟩).bind fun _ h => gives_check ⟨rfl, rfl⟩ fun _ =>
    gives_ok ((WritesOnly.refl _ s).writeGrid rfl (Nat.succ_le_succ h))⟩

theorem evaluates_dctf (s : State) : Evaluates .dctf s :=
  ⟨_, rfl, (gives_encCheck s ⟨rfl, rfl⟩ ⟨rfl, rfl⟩ ⟨rfl, rfl⟩ ⟨rfl, rfl⟩).bind fun _ h =>
    (gives_readRgbFrom s _ _ _).bind fun _ _ => gives_ok ((WritesOnly.refl _ s).writeGrid rfl (by simpa using h))⟩

theorem evaluates_dcti (s : State) : Evaluates .dcti s := by
  refine ⟨_, rfl, gives_check ⟨rfl, rfl⟩ fun _ => gives_check ⟨rfl, rfl⟩ fun hfit => ?_⟩
  split
  · exact gives_ok (.refl _ s)
  · exact (gives_readGridFrom s _ _ _).bind fun _ _ =>
      gives_ok ((WritesOnly.refl _ s).writePix rfl (by simpa [pixelCount] using hfit))

theorem evaluates_validate (s : State) : Evaluates .validate s :=
  ⟨_, rfl, (gives_validate s ⟨rfl, rfl⟩ (.badChar rfl) ⟨rfl, rfl⟩).bind fun _ _ => gives_ok (.refl _ s)⟩

/-- ENCODE writes n grid entries and 4 + 2n characters, n ≤ 81 (R169). -/
theorem writesOnly_encodeWrites (s : State) (ps : List Rgb) (h : gridCount s ≤ 81) :
    WritesOnly .encode s (encodeWrites s ps) where
  inputs := by simp [SameInputs, encodeWrites]
  result _ := by simp [encodeWrites]
  maxreg h := absurd h (by decide)
  hashlen h := absurd rfl h
  dims _ := by simp [encodeWrites]
  mem := by
    dsimp only [encodeWrites]
    exact WritesOnly.mem (.writeGrid (.writeHash (.refl _ s) rfl (by simp; omega)) rfl (by simp; omega))

theorem evaluates_encode (s : State) : Evaluates .encode s :=
  ⟨_, rfl, (gives_encCheck s ⟨rfl, rfl⟩ ⟨rfl, rfl⟩ ⟨rfl, rfl⟩ ⟨rfl, rfl⟩).bind fun _ h =>
    (gives_readRgbFrom s _ _ _).bind fun ps _ => gives_ok (writesOnly_encodeWrites s ps h)⟩

/-- DECODE writes the grid and an image that fits, with DIM and MAXREG (R199). -/
theorem writesOnly_decodeWrites (s : State) (d : Site) (dims : Nat × Nat) (m : F64) (grid : List Triple)
    (hg : grid.length ≤ 81) (hp : exceedsPixmem (pixelCount s * 4) = false) :
    WritesOnly .decode s (decodeWrites s d dims m grid) where
  inputs := by simp [SameInputs, decodeWrites]
  result _ := by simp [decodeWrites]
  maxreg h := absurd h (by decide)
  hashlen _ := by simp [decodeWrites]
  dims h := absurd rfl h
  mem := by
    dsimp only [decodeWrites]
    exact WritesOnly.mem (.writePix (.writeGrid (.refl _ s) rfl (by simpa using hg)) rfl
      (by simpa [pixelCount] using hp))

theorem evaluates_decode (s : State) : Evaluates .decode s :=
  ⟨_, rfl, (gives_validate s ⟨rfl, rfl⟩ (.badChar rfl) ⟨rfl, rfl⟩).bind fun _ hdims =>
    (gives_scanHash s (.badChar rfl) _ _).bind fun _ _ => gives_check ⟨rfl, rfl⟩ fun hfit =>
      (gives_b83Decode s (.badChar rfl) _ _).bind fun _ _ => (gives_b83Decode s (.badChar rfl) _ _).bind fun _ _ =>
        (gives_decodeAcs s (.badChar rfl) _ _ _ _).bind fun _ hacs =>
          gives_ok (writesOnly_decodeWrites s _ _ _ _ (by simp [hacs]; omega) (by simpa using hfit))⟩

/-- Every command evaluates to its errors, its outputs, or a poison byte. -/
theorem exec_evaluates (i : Instr) (s : State) : Evaluates i s := by
  cases i with
  | nop => exact evaluates_nop s
  | b83enc len hoff => exact evaluates_b83enc len hoff s
  | b83dec len hoff => exact evaluates_b83dec len hoff s
  | s2l => exact evaluates_s2l s
  | l2s => exact evaluates_l2s s
  | spow => exact evaluates_spow s
  | qmax => exact evaluates_qmax s
  | qdc => exact evaluates_qdc s
  | qac idx => exact evaluates_qac idx s
  | dqmax => exact evaluates_dqmax s
  | dqdc => exact evaluates_dqdc s
  | dqac idx => exact evaluates_dqac idx s
  | dctf => exact evaluates_dctf s
  | dcti => exact evaluates_dcti s
  | validate => exact evaluates_validate s
  | encode => exact evaluates_encode s
  | decode => exact evaluates_decode s

/-- What the completion step of a decoded command can do (R46, R262). -/
theorem exec_cases (i : Instr) (s : State) :
    (∃ u, exec i s = .next (complete u) ∧ WritesOnly i s u) ∨
      (∃ e, exec i s = .next (raiseError e s) ∧ MayRaise i e) ∨
      (∃ a, exec i s = .fault (.commandReadsPoison a) ∧ Memory.read s.mem a = none) := by
  obtain ⟨r, hexec, hr⟩ := exec_evaluates i s
  rw [hexec]
  match r, hr with
  | .ok u, hu => exact .inl ⟨u, rfl, hu⟩
  | .error (.raise e), he => exact .inr (.inl ⟨e, rfl, he⟩)
  | .error (.poison a), ha => exact .inr (.inr ⟨a, rfl, ha⟩)

/-- The same, of a command that has completed. -/
theorem exec_next_cases {i : Instr} {s t : State} (h : exec i s = .next t) :
    (∃ u, t = complete u ∧ WritesOnly i s u) ∨ (∃ e, t = raiseError e s ∧ MayRaise i e) := by
  rcases exec_cases i s with ⟨u, hx, hu⟩ | ⟨e, hx, he⟩ | ⟨a, hx, _⟩
  · exact .inl ⟨u, by simpa using h.symm.trans hx, hu⟩
  · exact .inr ⟨e, by simpa using h.symm.trans hx, he⟩
  · simp [hx] at h

/-! ## The completion step -/

theorem completionStep_idle {s : State} (h : s.pending = none) : completionStep s = .next s := by
  simp [completionStep, h]

theorem completionStep_ok {s : State} {w : Word} {i : Instr} (h : s.pending = some w) (hw : decode w = .ok i) :
    completionStep s = exec i s := by
  simp [completionStep, h, hw]

theorem completionStep_error {s : State} {w : Word} {e : IllegalWord} (h : s.pending = some w)
    (hw : decode w = .error e) : completionStep s = .next (raiseError (illegalWordError e) s) := by
  simp [completionStep, h, hw]

end Sys2Proof.Machine

namespace Sys2Proof

open Machine

/-- Settles O54: success keeps what the evaluation leaves alone, an error everything. -/
theorem commandsWriteOnlyTheirOutputs : Obligations.CommandsWriteOnlyTheirOutputs := by
  intro i s t h
  rcases exec_next_cases h with ⟨u, rfl, hu⟩ | ⟨e, rfl, -⟩
  · refine ⟨hu.inputs, hu.result, hu.maxreg, hu.hashlen, hu.dims, fun hi x h1 h2 => hu.mem.frame x ?_,
      fun hi x h1 h2 => hu.mem.frame x ?_, fun hi x h1 => hu.mem.frame x ?_⟩
    · simp [writesAt, regionOf_hash h1 h2, hi]
    · simp [writesAt, regionOf_grid h1 h2, hi]
    · rcases Nat.lt_or_ge x (0x10000 + pixmemBytes) with h2 | h2
      · simp [writesAt, regionOf_pix h1 h2, hi]
      · simp [writesAt, regionOf_reserved (.inr (.inr h2))]
  · simp [SameInputs]

/-- Settles O6: the pending word is no command and fails, or its command completes or reads poison. -/
theorem pendingCommandCompletesOrReadsPoison : Obligations.PendingCommandCompletesOrReadsPoison := by
  intro s w hturns hpending
  rw [step_engine s hturns]
  cases hw : decode w with
  | error e => exact .inl ⟨_, completionStep_error hpending hw, rfl, rfl, rfl⟩
  | ok i =>
    rw [completionStep_ok hpending hw]
    rcases exec_cases i s with ⟨u, hx, _⟩ | ⟨e, hx, _⟩ | ⟨a, hx, ha⟩
    · exact .inl ⟨_, hx, rfl, rfl, rfl⟩
    · exact .inl ⟨_, hx, rfl, rfl, rfl⟩
    · exact .inr ⟨a, hx, ha⟩

end Sys2Proof
end

section
/-! SUPPORT. The invariant of the machine, kept by each move of either agent (spec/10_state.md R20). -/

namespace Sys2Proof.Machine

/-! ## Turns -/

/-- A step takes the first turn. -/
theorem step_turn {s : State} {turn : Turn} {ts : List Turn} (h : s.turns = turn :: ts) :
    step s = turnStep turn { s with turns := ts } := by
  simp [step, agentStep, h]

/-! ## What the invariant depends on -/

/-- The two states agree in what the invariant speaks of: memory, the latch, CMD, and the flags and the record but
WERR. -/
def SameCore (s t : State) : Prop :=
  t.mem = s.mem ∧ t.pending = s.pending ∧ t.cmd = s.cmd ∧ t.busy = s.busy ∧ t.done = s.done ∧
    t.errcode = s.errcode ∧ t.errKind = s.errKind ∧ t.errPos = s.errPos

theorem SameCore.inv {s t : State} (h : SameCore s t) (hs : Inv s) : Inv t := by
  obtain ⟨hmem, hpending, hcmd, hbusy, hdone, hcode, hkind, hpos⟩ := h
  simpa only [Inv, issueCoherent, hmem, hpending, hcmd, hbusy, hdone, hcode, hkind, hpos] using hs

/-- With no command pending, the invariant is that of the memory and the record, and BUSY is 0. -/
theorem inv_of_idle {s : State} (hwf : Memory.wf s.mem = true) (hmap : cellsInMap s.mem = true)
    (hpending : s.pending = none) (hbusy : s.busy = false)
    (hlegal : legalOutcome s.errcode s.errKind s.errPos = true) : Inv s :=
  ⟨hwf, hmap, by simp [issueCoherent, hpending, hbusy], hlegal⟩

/-- While BUSY is 0 the latch is empty. -/
theorem pending_of_inv {s : State} (hs : Inv s) (hb : s.busy = false) : s.pending = none := by
  obtain ⟨_, _, hissue, _⟩ := hs
  cases hp : s.pending with
  | none => rfl
  | some w => simp [issueCoherent, hp, hb] at hissue

/-! ## The engine -/

theorem legalOutcome_illegalWord (e : IllegalWord) :
    legalOutcome (errCodeBits (illegalWordError e).code) (illegalWordError e).kind (illegalWordError e).pos = true := by
  cases e <;> decide

theorem inv_complete {i : Instr} {s u : State} (hs : Inv s) (hu : WritesOnly i s u) : Inv (complete u) := by
  obtain ⟨hwf, hmap, _, _⟩ := hs
  exact inv_of_idle (hu.mem.wf hwf) (hu.mem.cellsInMap (fun _ => inMemories_of_writesAt) hmap) rfl rfl rfl

theorem inv_raiseError {e : CmdError} {s : State} (hs : Inv s)
    (he : legalOutcome (errCodeBits e.code) e.kind e.pos = true) : Inv (raiseError e s) := by
  obtain ⟨hwf, hmap, _, _⟩ := hs
  exact inv_of_idle hwf hmap rfl rfl he

theorem inv_completionStep {s t : State} (hs : Inv s) (h : completionStep s = .next t) : Inv t := by
  cases hp : s.pending with
  | none =>
    rw [completionStep_idle hp, Host.Outcome.next.injEq] at h
    exact h ▸ hs
  | some w =>
    cases hw : decode w with
    | error e =>
      rw [completionStep_error hp hw, Host.Outcome.next.injEq] at h
      exact h ▸ inv_raiseError hs (legalOutcome_illegalWord e)
    | ok i =>
      rw [completionStep_ok hp hw] at h
      rcases exec_next_cases h with ⟨u, rfl, hu⟩ | ⟨e, rfl, _, he⟩
      · exact inv_complete hs hu
      · exact inv_raiseError hs he

/-! ## The host -/

theorem sameCore_answer (data : Word) (err : Bool) (s : State) : SameCore s (answer data err s) := by simp [SameCore]

theorem sameCore_freeAnswer (w : Width) (s : State) : SameCore s (freeAnswer w s) := by simp [SameCore, freeAnswer]

theorem inv_hostRead {w : Width} {a : Word} {s t : State} (hs : Inv s) (h : hostRead w a s = .next t) : Inv t := by
  rcases hostRead_cases w a s with ⟨v, err, hr⟩ | ⟨hr, _⟩ | ⟨p, hr, _⟩
  · rw [hr, Host.Outcome.next.injEq] at h
    exact h ▸ (sameCore_answer v err s).inv hs
  · rw [hr, Host.Outcome.next.injEq] at h
    exact h ▸ (sameCore_freeAnswer w s).inv hs
  · simp [hr] at h

theorem inv_storeUnlessBusy {s t : State} (hs : Inv s) (ht : s.busy = false → Inv t) : Inv (storeUnlessBusy s t) := by
  unfold storeUnlessBusy
  split
  · exact SameCore.inv (by simp [SameCore]) hs
  · next h => exact ht (by simpa using h)

/-- Clearing DONE and WERR keeps DONE clear while a command is pending. -/
theorem inv_clearStatus (v : Word) {s : State} (hs : Inv s) : Inv (clearStatus v s) := by
  obtain ⟨hwf, hmap, hissue, hlegal⟩ := hs
  refine ⟨hwf, hmap, ?_, hlegal⟩
  cases hp : s.pending with
  | none => simpa [issueCoherent, hp] using hissue
  | some w => simp_all [issueCoherent, clearStatus]

theorem inv_acceptCommand (w : Word) {s : State} (hs : Inv s) : Inv (acceptCommand w s) := by
  obtain ⟨hwf, hmap, _, _⟩ := hs
  exact ⟨hwf, hmap, by simp [issueCoherent], rfl⟩

theorem inv_csrWrite (c : Csr) (v : Word) {s : State} (hs : Inv s) : Inv (csrWrite c v s) := by
  have store {t : State} (h : SameCore s t) : Inv (storeUnlessBusy s t) := inv_storeUnlessBusy hs fun _ => h.inv hs
  cases c with
  | id | pixcap | errinfo | resultLo | resultHi | reserved => exact hs
  | ctrl => exact SameCore.inv (by simp [SameCore, csrWrite]) hs
  | status => exact inv_clearStatus v hs
  | cmd => exact inv_storeUnlessBusy hs fun _ => inv_acceptCommand v hs
  | width | height | dim | punch | pixlen | hashlen | src0Lo | src0Hi | src1Lo | src1Hi | maxregLo | maxregHi =>
    exact store (by simp [SameCore])

/-- A served write to a memory, outside the busy window. -/
theorem inv_memoryWrite {w : Width} {a : Nat} (v : Word) {s : State} (hs : Inv s) (ok : accessOk w a = true)
    (ha : regionOf a ≠ .csr) (hb : s.busy = false) :
    Inv { s with mem := Memory.writeBytes s.mem a (leBytes (widthBytes w) v.toNat) } := by
  have hpending := pending_of_inv hs hb
  obtain ⟨hwf, hmap, _, hlegal⟩ := hs
  have hmem : ChangesWithin InMemories s.mem (Memory.writeBytes s.mem a (leBytes (widthBytes w) v.toNat)) :=
    (ChangesWithin.refl _ _).writeBytes fun x h1 h2 => inMemories_of_accessOk ok ha h1 (by simpa using h2)
  exact inv_of_idle (hmem.wf hwf) (hmem.cellsInMap (fun _ => id) hmap) hpending hb hlegal

theorem inv_writeEffect {w : Width} {a : Nat} (v : Word) {s : State} (hs : Inv s) (ok : accessOk w a = true) :
    Inv (writeEffect w a v s) := by
  unfold writeEffect
  split
  · exact inv_csrWrite _ v hs
  · next ha => exact inv_storeUnlessBusy hs (inv_memoryWrite v hs ok ha)

theorem inv_hostWrite {w : Width} {a v : Word} {s t : State} (hs : Inv s) (h : hostWrite w a v s = .next t) :
    Inv t := by
  rcases hostWrite_cases w a v s with ⟨hw, _⟩ | ⟨hw, ok⟩
  · rw [hw, Host.Outcome.next.injEq] at h
    exact h ▸ (sameCore_answer 0 true s).inv hs
  · rw [hw, Host.Outcome.next.injEq] at h
    exact h ▸ (sameCore_answer 0 false _).inv (inv_writeEffect v hs ok)

theorem inv_pollTurn {s : State} (hs : Inv s) : Inv (pollTurn s) := by
  refine SameCore.inv ?_ hs
  unfold pollTurn
  split <;> simp [SameCore]

theorem inv_resetInput (s : State) : Inv (resetInput s) :=
  inv_of_idle rfl rfl rfl rfl rfl

/-! ## Any move -/

theorem inv_turnStep {turn : Turn} {s t : State} (hs : Inv s) (h : turnStep turn s = .next t) : Inv t := by
  cases turn with
  | engine => exact inv_completionStep hs h
  | read w a => exact inv_hostRead hs h
  | write w a v => exact inv_hostWrite hs h
  | poll => exact Host.Outcome.next.inj h ▸ inv_pollTurn hs
  | reset => exact Host.Outcome.next.inj h ▸ inv_resetInput s

end Sys2Proof.Machine

namespace Sys2Proof

open Machine

/-- Settles O55, by the agent that moves. -/
theorem everyStepKeepsTheInvariant : Obligations.EveryStepKeepsTheInvariant := by
  intro s t hs h
  cases hts : s.turns with
  | nil => exact inv_completionStep hs (step_engine s hts ▸ h)
  | cons turn ts => exact inv_turnStep (SameCore.inv (by simp [SameCore]) hs) (step_turn hts ▸ h)

end Sys2Proof
end

section
/-! SUPPORT. One step, and the registers STATUS, CMD and ERRINFO at the port (spec/10_state.md R29 to R31). -/

namespace Sys2Proof.Machine

/-! ## The poll (R98) -/

theorem sameEngine_pollTurn (s : State) : SameEngine s (pollTurn s) := by
  unfold pollTurn
  split <;> exact sameEngine_answer (statusWord s) false s

theorem pollTurn_reply (s : State) : (pollTurn s).reply = some ⟨statusWord s, false⟩ := by
  unfold pollTurn
  split <;> rfl

theorem pollTurn_turns_busy {s : State} (h : s.busy = true) : (pollTurn s).turns = .engine :: .poll :: s.turns := by
  simp [pollTurn, h]

theorem pollTurn_turns_idle {s : State} (h : s.busy = false) : (pollTurn s).turns = s.turns := by
  simp [pollTurn, h]

/-! ## Words of fields -/

/-- Fields side by side, as a number. -/
theorem toNat_append_eq_add {m n : Nat} (x : BitVec m) (y : BitVec n) :
    (x ++ y).toNat = 2 ^ n * x.toNat + y.toNat := by
  rw [BitVec.toNat_append, ← Nat.shiftLeft_add_eq_or_of_lt y.isLt, Nat.shiftLeft_eq, Nat.mul_comm]

@[simp] theorem flag_toNat (b : Bool) : (flag b).toNat = b.toNat := by
  cases b <;> rfl

theorem errFlag_eq_decide (s : State) : errFlag s = decide (s.errcode ≠ 0) := by
  rw [Bool.eq_iff_iff]
  simp [errFlag]

theorem statusWord_toNat (s : State) :
    (statusWord s).toNat =
      s.busy.toNat + 2 * s.done.toNat + 4 * (errFlag s).toNat + 8 * s.werr.toNat + 256 * s.errcode.toNat := by
  simp only [statusWord, toNat_append_eq_add, flag_toNat, BitVec.toNat_ofNat]
  omega

theorem errinfoWord_toNat (s : State) : (errinfoWord s).toNat = s.errPos.toNat + 256 * s.errKind.toNat := by
  simp only [errinfoWord, toNat_append_eq_add, BitVec.toNat_ofNat]
  omega

/-! ## The reset input -/

/-- A register reads after the reset input as at reset, whatever the engine was doing. -/
theorem csrRead_resetInput (s : State) (c : Csr) : csrRead (resetInput s) c = csrRead State.reset c := by
  cases c <;> rfl

/-! ## Writes to CMD -/

/-- A narrow access of a register is a bus error (R71). -/
theorem accessOk_narrow_csr {w : Width} {a : Nat} (h : a < 0x100) (hw : w ≠ .word) : accessOk w a = false := by
  simp [accessOk, regionOf_csr h, regionTakes, hw]

theorem csrWrite_cmd_idle (w : Word) {s : State} (h : s.busy = false) : csrWrite .cmd w s = acceptCommand w s := by
  simp [csrWrite, storeUnlessBusy, h]

theorem csrWrite_cmd_busy (w : Word) {s : State} (h : s.busy = true) : csrWrite .cmd w s = dropWrite s := by
  simp [csrWrite, storeUnlessBusy, h]

end Sys2Proof.Machine

namespace Sys2Proof

open Machine

/-- Settles O5: the first turn is the step, and the engine's turn is the completion step. -/
theorem stepRunsTheDecodedCommand : Obligations.StepRunsTheDecodedCommand := by
  refine ⟨fun s w i hp hw => ⟨fun h => ?_, fun ts h => ?_⟩, fun s hp => ⟨fun h => ?_, fun ts h => ?_⟩,
    fun s ts => ⟨fun _ _ => step_turn, fun _ _ _ => step_turn, fun h => ?_⟩⟩
  · rw [step_engine s h, completionStep_ok hp hw]
  · rw [step_engine_turn s ts h, completionStep_ok (s := { s with turns := ts }) hp hw]
  · rw [step_engine s h, completionStep_idle hp]
  · rw [step_engine_turn s ts h, completionStep_idle (s := { s with turns := ts }) hp]
  · exact ⟨_, step_turn h, sameEngine_pollTurn _, pollTurn_reply _,
      pollTurn_turns_busy (s := { s with turns := ts }), pollTurn_turns_idle (s := { s with turns := ts })⟩

/-- Settles O7 by the port's rule for a register: an accepted command, a dropped write, a read, a narrow access. -/
theorem cmdWriteIssuesOrIsDropped : Obligations.CmdWriteIssuesOrIsDropped := by
  refine ⟨fun s w hb => ?_, fun s w hb => ?_, fun s => ?_, fun s w width hw => ?_, rfl⟩
  · refine ⟨_, hostWrite_csr 0x10 w s (by decide) (by decide), ?_⟩
    rw [show csrAt (0x10 : Word).toNat = .cmd from rfl, csrWrite_cmd_idle w hb]
    exact ⟨rfl, sameEngine_answer 0 false (acceptCommand w s)⟩
  · refine ⟨_, hostWrite_csr 0x10 w s (by decide) (by decide), ?_⟩
    rw [show csrAt (0x10 : Word).toNat = .cmd from rfl, csrWrite_cmd_busy w hb]
    exact sameEngine_answer 0 false (dropWrite s)
  · exact ⟨_, hostRead_csr 0x10 s (by decide) (by decide) (.inr rfl), rfl⟩
  · obtain ⟨-, h⟩ := hostAccess_busError width 0x10 w s (accessOk_narrow_csr (by decide) hw)
    exact ⟨_, _, h, sameEngine_answer 0 true s, rfl, rfl⟩

/-- Settles O10 from the words of the two registers and the port's rule for a register. -/
theorem statusFieldsAndWriteOneToClear : Obligations.StatusFieldsAndWriteOneToClear := by
  refine fun s => ⟨?_, ?_, fun v => ?_, errinfoWord_toNat s, ?_⟩
  · rw [statusWord_toNat, errFlag_eq_decide]
  · exact ⟨_, hostRead_csr 0x0C s (by decide) (by decide) (.inr rfl), sameEngine_answer _ _ s, rfl⟩
  · exact ⟨_, hostWrite_csr 0x0C v s (by decide) (by decide), sameEngine_answer 0 false (clearStatus v s)⟩
  · exact ⟨_, hostRead_csr 0x14 s (by decide) (by decide) (.inr rfl), sameEngine_answer _ _ s, rfl⟩

/-- Settles O19: the reset input leaves the fields of the reset state, whose words are those of R25. -/
theorem resetLeavesTheResetValues : Obligations.ResetLeavesTheResetValues := by
  intro s ts h
  have hcap : (csrRead State.reset .pixcap).toNat = pixmemBytes := by
    obtain ⟨_, hle, _⟩ := pixmemBytes_legal
    rw [csrRead, BitVec.toNat_ofNat]
    exact Nat.mod_eq_of_lt (by omega)
  refine ⟨resetInput { s with turns := ts }, step_turn h, rfl, rfl, rfl, ?_⟩
  simp only [csrRead_resetInput]
  refine ⟨rfl, hcap, ?_⟩
  simp only [← and_assoc]
  exact ⟨by decide, fun _ => rfl⟩

end Sys2Proof
end

section
/-! SUPPORT. The address map by its bounds, and the bytes that reads and writes of the memories move (spec/20_memory.md
R61 to R63, R70 to R73). -/

namespace Sys2Proof.Machine

/-! ## Served accesses -/

/-- A served access is aligned, and its first and last byte lie in one region that takes its width. -/
theorem accessOk_iff_regions (w : Width) (a : Nat) :
    accessOk w a = true ↔ a % widthBytes w = 0 ∧
      ((regionOf a = .csr ∧ w = .word ∧ regionOf (a + widthBytes w - 1) = .csr) ∨
        (regionOf a = .hash ∧ regionOf (a + widthBytes w - 1) = .hash) ∨
        (regionOf a = .grid ∧ regionOf (a + widthBytes w - 1) = .grid) ∨
        (regionOf a = .pix ∧ regionOf (a + widthBytes w - 1) = .pix)) := by
  simp only [accessOk, Bool.and_eq_true, decide_eq_true_eq, beq_iff_eq, and_assoc]
  cases regionOf a <;> simp [regionTakes]

/-- The served accesses by the bounds of the address map; an aligned one in the CSR window ends in it. -/
theorem accessOk_iff (w : Width) (a : Nat) :
    accessOk w a = true ↔ a % widthBytes w = 0 ∧
      ((a < 0x100 ∧ w = .word) ∨ (0x100 ≤ a ∧ a + widthBytes w ≤ 0x200) ∨
        (0x800 ≤ a ∧ a + widthBytes w ≤ 0xF98) ∨ (0x10000 ≤ a ∧ a + widthBytes w ≤ 0x10000 + pixmemBytes)) := by
  obtain ⟨ca, ha, ga, pa⟩ := regionOf_eq_iff a
  obtain ⟨cl, hl, gl, pl⟩ := regionOf_eq_iff (a + widthBytes w - 1)
  rw [accessOk_iff_regions, ca, ha, ga, pa, cl, hl, gl, pl]
  cases w <;> simp only [widthBytes, reduceCtorEq, and_false, false_and, false_or, true_and, and_true] <;> omega

/-- The byte at an address lies in a reserved part of the map above the CSR window (R61, R72). -/
def InReservedRegion (x : Nat) : Prop :=
  (0x200 ≤ x ∧ x < 0x800) ∨ (0xF98 ≤ x ∧ x < 0x10000) ∨ 0x10000 + pixmemBytes ≤ x

/-- A misaligned access is not served (R71). -/
theorem accessOk_misaligned {w : Width} {a : Nat} (h : a % widthBytes w ≠ 0) : accessOk w a = false := by
  simp [accessOk, h]

/-- An access that takes in a byte of a reserved region is not served (R71). -/
theorem accessOk_reserved {w : Width} {a i : Nat} (hi : i < widthBytes w) (h : InReservedRegion (a + i)) :
    accessOk w a = false := by
  rw [Bool.eq_false_iff, Ne, accessOk_iff]
  rintro ⟨hal, hmap⟩
  unfold InReservedRegion at h
  cases w <;> simp only [widthBytes] at hi hal hmap <;> omega

/-! ## Bus errors and reads -/

/-- A read and a write that are not served have no effect, and the read's data is 0 (R71). -/
theorem hostAccess_busError_noEffect {w : Width} {a : Word} (v : Word) (s : State) (h : accessOk w a.toNat = false) :
    (∃ t, hostRead w a s = .next t ∧ SameEngine s t ∧ t.reply = some ⟨0, true⟩) ∧
      (∃ t r, hostWrite w a v s = .next t ∧ SameEngine s t ∧ t.reply = some r ∧ r.err = true) := by
  obtain ⟨hr, hw⟩ := hostAccess_busError w a v s h
  exact ⟨⟨_, hr, sameEngine_answer 0 true s, rfl⟩, ⟨_, _, hw, sameEngine_answer 0 true s, rfl, rfl⟩⟩

/-- From 0x50 on the CSR window holds no register (R42). -/
theorem csrAt_reserved {a : Nat} (h : 0x50 ≤ a) : csrAt a = .reserved := by
  obtain ⟨k, hk⟩ : ∃ k, a / 4 = k + 20 := ⟨a / 4 - 20, by omega⟩
  simp only [csrAt, hk]

theorem sameEngine_freeAnswer (w : Width) (s : State) : SameEngine s (freeAnswer w s) := by
  simp [SameEngine, SameOutputs, freeAnswer]

/-- A read of bytes that a memory holds answers the number they write in little-endian order (R62). -/
theorem hostRead_holds {w : Width} {a v : Word} {s : State} {bs : List Byte} (ha : 0x100 ≤ a.toNat)
    (ok : accessOk w a.toNat = true) (hb : s.busy = false) (hbs : HoldsFrom s.mem a.toNat bs)
    (hl : bs.length = widthBytes w) (hv : leNat bs = v.toNat) :
    ∃ t, hostRead w a s = .next t ∧ t.reply = some ⟨v, false⟩ := by
  refine ⟨_, hostRead_memory w a s bs ha ok hb (hl ▸ bytesFrom_holds s.mem a.toNat bs hbs), ?_⟩
  simp [hv]

/-! ## Grid entries (R63) -/

/-- A run of bytes is held where its first part is and the rest is after it. -/
theorem holdsFrom_append (m : Memory) (a : Nat) (xs ys : List Byte) :
    HoldsFrom m a (xs ++ ys) ↔ HoldsFrom m a xs ∧ HoldsFrom m (a + xs.length) ys := by
  constructor
  · intro h
    refine ⟨fun i hi => ?_, fun i hi => ?_⟩
    · rw [h i (by simp; omega), List.getElem_append_left hi]
    · rw [Nat.add_assoc, h (xs.length + i) (by simp; omega), List.getElem_append_right (by omega)]
      simp
  · rintro ⟨hx, hy⟩ i hi
    rw [List.length_append] at hi
    rcases Nat.lt_or_ge i xs.length with hlt | hge
    · rw [List.getElem_append_left hlt, hx i hlt]
    · obtain ⟨j, rfl⟩ := Nat.exists_eq_add_of_le hge
      rw [← Nat.add_assoc, hy j (by omega), List.getElem_append_right hge]
      simp

/-- A value is read exactly from its eight bytes. -/
theorem readFloat_eq_ok_iff (s : State) (a : Nat) (v : F64) :
    readFloat s a = .ok v ↔ HoldsFrom s.mem a (leBytes 8 v.toNat) := by
  refine ⟨fun h => ?_, readFloat_holds s a v⟩
  rcases readFloat_cases s a with ⟨u, hu, hs⟩ | ⟨i, _, he, _⟩
  · obtain rfl : u = v := by simpa [hu] using h
    exact hs
  · simp [he] at h

/-- A grid entry is its three values, read one after the other. -/
theorem readGrid_eq_ok_iff (s : State) (k : Nat) (v : Triple) :
    readGrid s k = .ok v ↔ readFloat s (gridAddr k) = .ok v.r ∧ readFloat s (gridAddr k + 8) = .ok v.g ∧
      readFloat s (gridAddr k + 16) = .ok v.b := by
  obtain ⟨r, g, b⟩ := v
  unfold readGrid
  cases readFloat s (gridAddr k) with
  | error e => simp [bind, Except.bind]
  | ok r' =>
    cases readFloat s (gridAddr k + 8) with
    | error e => simp [bind, Except.bind]
    | ok g' => cases readFloat s (gridAddr k + 16) <;> simp [bind, Except.bind, pure, Except.pure]

/-- The 24 bytes of a triple are those of its values, eight by eight. -/
theorem holdsFrom_tripleBytes (m : Memory) (a : Nat) (v : Triple) :
    HoldsFrom m a (tripleBytes v) ↔ HoldsFrom m a (leBytes 8 v.r.toNat) ∧ HoldsFrom m (a + 8) (leBytes 8 v.g.toNat) ∧
      HoldsFrom m (a + 16) (leBytes 8 v.b.toNat) := by
  rw [tripleBytes, holdsFrom_append, holdsFrom_append, List.length_append, leBytes_length, leBytes_length, and_assoc]

end Sys2Proof.Machine

namespace Sys2Proof

open Machine

/-- Settles O12 by the bounds of the regions. -/
theorem servedAccessesAreThoseOfTheMap : Obligations.ServedAccessesAreThoseOfTheMap :=
  fun width a => accessOk_iff width a.toNat

/-- Settles O11: no access of the three kinds is served, and a reserved register has no field to read or store. -/
theorem busErrorsHaveNoEffect : Obligations.BusErrorsHaveNoEffect := by
  refine ⟨fun s width a v h => hostAccess_busError_noEffect v s ?_, fun s a v h h' h4 => ?_⟩
  · rcases h with hal | ⟨hcsr, hw⟩ | ⟨i, hi, hr⟩
    · exact accessOk_misaligned hal
    · exact accessOk_narrow_csr hcsr hw
    · exact accessOk_reserved hi hr
  · have hc := csrAt_reserved h
    have hr := hostRead_csr a s (by omega) h4 (.inr (by rw [hc]; rfl))
    have hw := hostWrite_csr a v s (by omega) h4
    rw [hc] at hr hw
    exact ⟨⟨_, hr, sameEngine_answer _ _ s, rfl⟩, ⟨_, _, hw, sameEngine_answer 0 false s, rfl, rfl⟩⟩

/-- Settles O13: bytes side by side, the lowest address lowest, are the number they write in little-endian order. -/
theorem wideReadsAreTheirBytesLittleEndian : Obligations.WideReadsAreTheirBytesLittleEndian := by
  intro s a b0 b1 b2 b3 hb ha
  have h0 := b0.isLt
  have h1 := b1.isLt
  refine ⟨fun ok h => hostRead_holds ha ok hb h rfl ?_, fun ok h => hostRead_holds ha ok hb h rfl ?_,
    fun ok h => hostRead_holds ha ok hb h rfl ?_⟩
  all_goals
    simp only [leNat, BitVec.toNat_setWidth, toNat_append_eq_add]
    omega

/-- Settles O14: the bytes written are held from the address on, and make up the value read. -/
theorem memoryWriteIsReadBack : Obligations.MemoryWriteIsReadBack := by
  intro s width a v hb ha ok
  have hheld (m : Memory) : HoldsFrom (Memory.writeBytes m a.toNat (leBytes (widthBytes width) v.toNat)) a.toNat
      (leBytes (widthBytes width) v.toNat) := read_writeBytes_inside _ m _
  refine ⟨_, hostWrite_memory width a v s ha ok hb, sameEngine_answer 0 false _, hheld s.mem, fun x hx => ?_,
    hostRead_holds ha ok hb (hheld s.mem) (leBytes_length _ _) ?_⟩
  · exact read_writeBytes_outside _ s.mem a.toNat x (by simpa using hx)
  · have hlt : v.toNat % 256 ^ widthBytes width < 2 ^ 32 := (Nat.mod_le _ _).trans_lt v.isLt
    rw [leNat_leBytes, BitVec.toNat_ofNat, Nat.mod_eq_of_lt hlt]

/-- Settles O15: an entry is three values, a value its eight bytes, and the 24 bytes are those of the three. -/
theorem gridEntryIsItsTwentyFourBytes : Obligations.GridEntryIsItsTwentyFourBytes := by
  intro s k v _
  rw [readGrid_eq_ok_iff, readFloat_eq_ok_iff, readFloat_eq_ok_iff, readFloat_eq_ok_iff]
  exact (holdsFrom_tripleBytes s.mem (gridAddr k) v).symm

/-- Settles O17: a read that does not stop the model only answers. -/
theorem readsHaveNoSideEffect : Obligations.ReadsHaveNoSideEffect := by
  intro s t width a h
  rcases hostRead_cases width a s with ⟨v, err, hr⟩ | ⟨hr, _⟩ | ⟨p, hr, _⟩
  · obtain rfl := Host.Outcome.next.inj (hr.symm.trans h)
    exact ⟨sameEngine_answer v err s, rfl⟩
  · obtain rfl := Host.Outcome.next.inj (hr.symm.trans h)
    exact ⟨sameEngine_freeAnswer width s, rfl⟩
  · simp [hr] at h

end Sys2Proof
end

section
/-! SUPPORT. The registers of the CSR window as the host writes and reads them (spec/10_state.md R25 to R42,
spec/20_memory.md R64). -/

namespace Sys2Proof.Machine

/-! ## The words of the registers with narrow fields -/

theorem ctrlWord_eq (s : State) : ctrlWord s = BitVec.ofNat 32 s.ie.toNat := by
  apply BitVec.eq_of_toNat_eq
  have := s.ie.toNat_lt
  simp only [ctrlWord, toNat_append_eq_add, flag_toNat, BitVec.toNat_ofNat]
  omega

theorem csrRead_dim (s : State) : csrRead s .dim = BitVec.ofNat 32 (s.dimNx.toNat + 16 * s.dimNy.toNat) := by
  apply BitVec.eq_of_toNat_eq
  have hx := s.dimNx.isLt
  have hy := s.dimNy.isLt
  simp only [csrRead, toNat_append_eq_add, BitVec.toNat_ofNat]
  omega

theorem csrRead_hashlen (s : State) : csrRead s .hashlen = BitVec.ofNat 32 s.hashlen.toNat := by
  apply BitVec.eq_of_toNat_eq
  have := s.hashlen.isLt
  simp only [csrRead, toNat_append_eq_add, BitVec.toNat_ofNat]
  omega

/-- A write to DIM stores NX from bits [3:0] and NY from bits [7:4] (R34). -/
theorem csrWrite_dim (v : Word) (s : State) :
    csrWrite .dim v s = storeUnlessBusy s
      { s with dimNx := BitVec.ofNat 4 v.toNat, dimNy := BitVec.ofNat 4 (v.toNat / 16) } := by
  rw [csrWrite, BitVec.extractLsb', BitVec.extractLsb', Nat.shiftRight_eq_div_pow, Nat.shiftRight_eq_div_pow]
  simp

/-! ## Register accesses by address -/

theorem storeUnlessBusy_idle {s : State} (t : State) (h : s.busy = false) : storeUnlessBusy s t = t := by
  simp [storeUnlessBusy, h]

/-- The address is that of a register: in the CSR window and 4-byte aligned (R25). -/
abbrev IsCsrAddress (a : Word) : Prop := a.toNat < 0x100 ∧ a.toNat % 4 = 0

/-- Outside the busy window a write to an operand register leaves the state that it stores. -/
theorem hostWrite_stores (a : Word) (ha : IsCsrAddress a) {v : Word} {s t : State} (hb : s.busy = false)
    (hw : csrWrite (csrAt a.toNat) v s = storeUnlessBusy s t) :
    ∃ u, hostWrite .word a v s = .next u ∧ SameEngine t u := by
  rw [storeUnlessBusy_idle t hb] at hw
  exact ⟨_, hostWrite_csr a v s ha.1 ha.2, hw ▸ sameEngine_answer 0 false _⟩

/-- A register read outside the busy window, or of a register that no command writes, answers the register's word. -/
theorem hostRead_answers (a : Word) (ha : IsCsrAddress a) {s : State} {v : Word}
    (hb : s.busy = false ∨ csrVolatile (csrAt a.toNat) = false) (hv : csrRead s (csrAt a.toNat) = v) :
    ∃ t, hostRead .word a s = .next t ∧ t.reply = some ⟨v, false⟩ :=
  ⟨_, hostRead_csr a s ha.1 ha.2 hb, hv ▸ rfl⟩

end Sys2Proof.Machine

namespace Sys2Proof

open Machine

/-- Settles O16, register by register: at each address, what `csrWrite` stores and what `csrRead` answers. -/
theorem registersStoreTheirFieldsAndReadBack : Obligations.RegistersStoreTheirFieldsAndReadBack := by
  refine ⟨fun s => ⟨fun v => ?_, ?_⟩, fun s v hb => ?_⟩
  · exact ⟨_, hostWrite_csr 0x08 v s (by decide) (by decide), sameEngine_answer 0 false (setCtrl v s)⟩
  · exact ⟨hostRead_answers 0x00 (by decide) (.inr rfl) rfl,
      hostRead_answers 0x04 (by decide) (.inr rfl) rfl,
      hostRead_answers 0x08 (by decide) (.inr rfl) (ctrlWord_eq s),
      hostRead_answers 0x18 (by decide) (.inr rfl) rfl,
      hostRead_answers 0x1C (by decide) (.inr rfl) rfl,
      hostRead_answers 0x24 (by decide) (.inr rfl) rfl,
      hostRead_answers 0x28 (by decide) (.inr rfl) rfl,
      hostRead_answers 0x30 (by decide) (.inr rfl) rfl,
      hostRead_answers 0x34 (by decide) (.inr rfl) rfl,
      hostRead_answers 0x38 (by decide) (.inr rfl) rfl,
      hostRead_answers 0x3C (by decide) (.inr rfl) rfl⟩
  · exact ⟨hostWrite_stores 0x18 (by decide) hb rfl,
      hostWrite_stores 0x1C (by decide) hb rfl,
      hostWrite_stores 0x20 (by decide) hb (csrWrite_dim v s),
      hostWrite_stores 0x24 (by decide) hb rfl,
      hostWrite_stores 0x28 (by decide) hb rfl,
      hostWrite_stores 0x2C (by decide) hb rfl,
      hostWrite_stores 0x30 (by decide) hb rfl,
      hostWrite_stores 0x34 (by decide) hb rfl,
      hostWrite_stores 0x38 (by decide) hb rfl,
      hostWrite_stores 0x3C (by decide) hb rfl,
      hostWrite_stores 0x48 (by decide) hb rfl,
      hostWrite_stores 0x4C (by decide) hb rfl,
      hostRead_answers 0x20 (by decide) (.inl hb) (csrRead_dim s),
      hostRead_answers 0x2C (by decide) (.inl hb) (csrRead_hashlen s),
      hostRead_answers 0x40 (by decide) (.inl hb) rfl,
      hostRead_answers 0x44 (by decide) (.inl hb) rfl,
      hostRead_answers 0x48 (by decide) (.inl hb) rfl,
      hostRead_answers 0x4C (by decide) (.inl hb) rfl⟩

end Sys2Proof
end

section
/-! SUPPORT. The command word (spec/30_encoding.md R90 to R94): a word is its six fields, the opcode map is the
encoder's, and the decoder makes its three checks in order. -/

namespace Sys2Proof

/-! ## A word is its fields (R90) -/

theorem opField_toNat (w : Word) : (opField w).toNat = w.toNat % 2 ^ 8 := by
  simp [opField]

theorem lenField_toNat (w : Word) : (lenField w).toNat = w.toNat / 2 ^ 8 % 2 ^ 3 := extract_toNat w 8 3

theorem reservedField_toNat (w : Word) : (reservedField w).toNat = w.toNat / 2 ^ 11 % 2 ^ 5 := extract_toNat w 11 5

theorem hoffField_toNat (w : Word) : (hoffField w).toNat = w.toNat / 2 ^ 16 % 2 ^ 8 := extract_toNat w 16 8

theorem idxField_toNat (w : Word) : (idxField w).toNat = w.toNat / 2 ^ 24 % 2 ^ 7 := extract_toNat w 24 7

theorem topField_toNat (w : Word) : (topField w).toNat = w.toNat / 2 ^ 31 := by
  have h := w.isLt
  rw [topField, extract_toNat]
  omega

/-- A word whose reserved bits are 0 is the packed word of its operand fields. -/
theorem packFields_fields {w : Word} (hlow : reservedField w = 0) (htop : topField w = 0) :
    packFields (opField w) (lenField w) (hoffField w) (idxField w) = w := by
  have hlow' := reservedField_toNat w
  have htop' := topField_toNat w
  rw [hlow] at hlow'
  rw [htop] at htop'
  apply BitVec.eq_of_toNat_eq
  rw [packFields_toNat, opField_toNat, lenField_toNat, hoffField_toNat, idxField_toNat]
  simp only [BitVec.ofNat_eq_ofNat, BitVec.toNat_ofNat] at hlow' htop'
  omega

/-! ## The rows of the opcode map (R92, R93) -/

/-- The shape uses LEN and HOFF. -/
def usesField : Shape → Bool
  | .field _ => true
  | .plain _ | .index _ => false

/-- The shape uses IDX. -/
def usesIndex : Shape → Bool
  | .index _ => true
  | .plain _ | .field _ => false

/-- The encoder packs the commands of this shape with this OP, and with 0 in the fields that the shape does not use. -/
def EncodesWith (op : BitVec 8) : Shape → Prop
  | .plain i => encode i = packFields op 0 0 0
  | .field mk => ∀ len hoff, encode (mk len hoff) = packFields op len hoff 0
  | .index mk => ∀ idx, encode (mk idx) = packFields op 0 0 idx

/-- What holds of every row holds of an OP and the shape that the map gives it. -/
theorem opcodeMap_of_rows {P : BitVec 8 → Shape → Prop} (rows : ∀ row ∈ opcodeRowsLow ++ opcodeRowsHigh, P row.1 row.2)
    {op : BitVec 8} {sh : Shape} (h : opcodeMap op = some sh) : P op sh := by
  obtain ⟨before, after, hrows, -⟩ := List.lookup_eq_some_iff.mp h
  exact rows (op, sh) (by simp [hrows])

/-- Decoder and encoder agree in every row. -/
theorem encodesWith_of_opcodeMap {op : BitVec 8} {sh : Shape} (h : opcodeMap op = some sh) : EncodesWith op sh :=
  opcodeMap_of_rows (by simp [opcodeRowsLow, opcodeRowsHigh, EncodesWith, encode]) h

/-- LEN and HOFF are used by B83ENC and B83DEC alone. -/
theorem usesField_iff {op : BitVec 8} {sh : Shape} (h : opcodeMap op = some sh) :
    usesField sh = true ↔ op = 0x10 ∨ op = 0x11 :=
  opcodeMap_of_rows (P := fun op sh => usesField sh = true ↔ op = 0x10 ∨ op = 0x11) (by decide) h

/-- IDX is used by QAC and DQAC alone. -/
theorem usesIndex_iff {op : BitVec 8} {sh : Shape} (h : opcodeMap op = some sh) :
    usesIndex sh = true ↔ op = 0x32 ∨ op = 0x3A :=
  opcodeMap_of_rows (P := fun op sh => usesIndex sh = true ↔ op = 0x32 ∨ op = 0x3A) (by decide) h

/-- The OPs of the opcode map, as numbers (R93). -/
def knownOps : List Nat :=
  [0x00, 0x10, 0x11, 0x20, 0x21, 0x22, 0x30, 0x31, 0x32, 0x38, 0x39, 0x3A, 0x40, 0x41, 0x50, 0x51, 0x52]

/-- Every other OP is reserved (R95). -/
theorem opcodeMap_eq_none_iff (op : BitVec 8) : opcodeMap op = none ↔ op.toNat ∉ knownOps := by
  rw [opcodeMap, List.lookup_eq_none_iff]
  simp [opcodeRowsLow, opcodeRowsHigh, knownOps, BitVec.toNat_eq_nat]

theorem exists_opcodeMap {op : BitVec 8} (h : op.toNat ∈ knownOps) : ∃ sh, opcodeMap op = some sh := by
  rw [← Option.ne_none_iff_exists', Ne, opcodeMap_eq_none_iff, not_not]
  exact h

theorem unusedZero_eq_true_iff (sh : Shape) (w : Word) :
    unusedZero sh w = true ↔
      (usesField sh = true ∨ (lenField w = 0 ∧ hoffField w = 0)) ∧ (usesIndex sh = true ∨ idxField w = 0) := by
  cases sh <;> simp [unusedZero, usesField, usesIndex]

/-- A field that the word's OP does not use is nonzero (R94, order 3). -/
def UnusedFieldSet (w : Word) : Prop :=
  (¬(opField w = 0x10 ∨ opField w = 0x11) ∧ (lenField w ≠ 0 ∨ hoffField w ≠ 0)) ∨
    (¬(opField w = 0x32 ∨ opField w = 0x3A) ∧ idxField w ≠ 0)

theorem unusedZero_eq_true_iff_of_opcodeMap {w : Word} {sh : Shape} (h : opcodeMap (opField w) = some sh) :
    unusedZero sh w = true ↔ ¬UnusedFieldSet w := by
  rw [unusedZero_eq_true_iff, usesField_iff h, usesIndex_iff h, UnusedFieldSet]
  tauto

theorem unusedZero_eq_false {w : Word} {sh : Shape} (h : opcodeMap (opField w) = some sh) (hset : UnusedFieldSet w) :
    unusedZero sh w = false := by
  rw [← Bool.not_eq_true, unusedZero_eq_true_iff_of_opcodeMap h, not_not]
  exact hset

/-! ## The decoder's checks, in order (R94) -/

/-- KIND 1. -/
theorem decode_unknownOp {w : Word} (h : opcodeMap (opField w) = none) : decode w = .error .unknownOp := by
  simp [decode, h]

section
variable {w : Word} {sh : Shape} (hmap : opcodeMap (opField w) = some sh)
include hmap

/-- KIND 2. -/
theorem decode_reservedBits (h : reservedField w ≠ 0 ∨ topField w ≠ 0) : decode w = .error .reservedBits := by
  simp only [decode, hmap, if_pos h]

/-- KIND 3. -/
theorem decode_unusedField (hlow : reservedField w = 0) (htop : topField w = 0) (h : unusedZero sh w = false) :
    decode w = .error .unusedField := by
  simp [decode, hmap, hlow, htop, h]

theorem decode_ok (hlow : reservedField w = 0) (htop : topField w = 0) (h : unusedZero sh w = true) :
    decode w = .ok (buildInstr sh w) := by
  simp [decode, hmap, hlow, htop, h]

/-- A word that passes the three checks, the third by its OP, is the command of its row's shape. -/
theorem decode_buildInstr (hlow : reservedField w = 0) (htop : topField w = 0) (h : ¬UnusedFieldSet w) :
    decode w = .ok (buildInstr sh w) :=
  decode_ok hmap hlow htop ((unusedZero_eq_true_iff_of_opcodeMap hmap).mpr h)

end

/-- A word that decodes passes the three checks, and is built of its row's shape. -/
theorem decode_eq_ok {w : Word} {i : Instr} (h : decode w = .ok i) :
    ∃ sh, opcodeMap (opField w) = some sh ∧ reservedField w = 0 ∧ topField w = 0 ∧ unusedZero sh w = true ∧
      i = buildInstr sh w := by
  cases hmap : opcodeMap (opField w) with
  | none => simp [decode_unknownOp hmap] at h
  | some sh =>
    by_cases hres : reservedField w ≠ 0 ∨ topField w ≠ 0
    · simp [decode_reservedBits hmap hres] at h
    · obtain ⟨hlow, htop⟩ := by simpa only [not_or, not_not] using hres
      cases hu : unusedZero sh w with
      | false => simp [decode_unusedField hmap hlow htop hu] at h
      | true =>
        rw [decode_ok hmap hlow htop hu, Except.ok.injEq] at h
        exact ⟨sh, rfl, hlow, htop, hu, h.symm⟩

/-- A word with the OP of B83ENC or B83DEC that passes the three checks is that command of its fields. -/
theorem decode_field_op {w : Word} (hop : opField w = 0x10 ∨ opField w = 0x11) (hlow : reservedField w = 0)
    (htop : topField w = 0) (h : ¬UnusedFieldSet w) :
    ∃ i, decode w = .ok i ∧ (i = .b83enc (lenField w) (hoffField w) ∨ i = .b83dec (lenField w) (hoffField w)) := by
  rcases hop with hop | hop
  · exact ⟨_, decode_buildInstr (sh := .field .b83enc) (hop ▸ rfl) hlow htop h, .inl rfl⟩
  · exact ⟨_, decode_buildInstr (sh := .field .b83dec) (hop ▸ rfl) hlow htop h, .inr rfl⟩

/-- A word with the OP of QAC or DQAC that passes the three checks is that command of its field. -/
theorem decode_index_op {w : Word} (hop : opField w = 0x32 ∨ opField w = 0x3A) (hlow : reservedField w = 0)
    (htop : topField w = 0) (h : ¬UnusedFieldSet w) :
    ∃ i, decode w = .ok i ∧ (i = .qac (idxField w) ∨ i = .dqac (idxField w)) := by
  rcases hop with hop | hop
  · exact ⟨_, decode_buildInstr (sh := .index .qac) (hop ▸ rfl) hlow htop h, .inl rfl⟩
  · exact ⟨_, decode_buildInstr (sh := .index .dqac) (hop ▸ rfl) hlow htop h, .inr rfl⟩

/-! ## The word of a command decodes -/

theorem decode_packFields {op : BitVec 8} {sh : Shape} (len : BitVec 3) (hoff : BitVec 8) (idx : BitVec 7)
    (hmap : opcodeMap op = some sh) (h : unusedZero sh (packFields op len hoff idx) = true) :
    decode (packFields op len hoff idx) = .ok (buildInstr sh (packFields op len hoff idx)) :=
  decode_ok (by simpa using hmap) (by simp) (by simp) h

theorem decode_plain {op : BitVec 8} {i : Instr} (h : opcodeMap op = some (.plain i)) :
    decode (packFields op 0 0 0) = .ok i := by
  rw [decode_packFields 0 0 0 h (by simp [unusedZero]), buildInstr]

theorem decode_field {op : BitVec 8} {mk : BitVec 3 → BitVec 8 → Instr} (h : opcodeMap op = some (.field mk))
    (len : BitVec 3) (hoff : BitVec 8) : decode (packFields op len hoff 0) = .ok (mk len hoff) := by
  rw [decode_packFields len hoff 0 h (by simp [unusedZero])]
  simp [buildInstr]

theorem decode_index {op : BitVec 8} {mk : BitVec 7 → Instr} (h : opcodeMap op = some (.index mk)) (idx : BitVec 7) :
    decode (packFields op 0 0 idx) = .ok (mk idx) := by
  rw [decode_packFields 0 0 idx h (by simp [unusedZero])]
  simp [buildInstr]

/-- The command built of a row's shape is encoded in the fields it is built of. -/
theorem encode_buildInstr {w : Word} {sh : Shape} (h : EncodesWith (opField w) sh) (hu : unusedZero sh w = true) :
    encode (buildInstr sh w) = packFields (opField w) (lenField w) (hoffField w) (idxField w) := by
  cases sh with
  | plain i =>
    obtain ⟨⟨hlen, hhoff⟩, hidx⟩ := by simpa [unusedZero] using hu
    rw [hlen, hhoff, hidx]
    exact h
  | field mk =>
    have hidx : idxField w = 0 := by simpa [unusedZero] using hu
    rw [hidx]
    exact h _ _
  | index mk =>
    obtain ⟨hlen, hhoff⟩ := by simpa [unusedZero] using hu
    rw [hlen, hhoff]
    exact h _

/-- Settles O1: each command's OP has its row in the opcode map, and a packed word decodes by its row. -/
theorem decodeOfEncodeIsTheCommand : Obligations.DecodeOfEncodeIsTheCommand := by
  intro i
  cases i with
  | b83enc len hoff | b83dec len hoff => exact decode_field rfl len hoff
  | qac idx | dqac idx => exact decode_index rfl idx
  | nop | s2l | l2s | spow | qmax | qdc | dqmax | dqdc | dctf | dcti | validate | encode | decode =>
    exact decode_plain rfl

/-- Settles O2: the command is encoded in the word's own fields, and the reserved bits of the word are 0. -/
theorem encodeOfDecodeIsTheWord : Obligations.EncodeOfDecodeIsTheWord := by
  intro w i h
  obtain ⟨sh, hmap, hlow, htop, hu, rfl⟩ := decode_eq_ok h
  rw [encode_buildInstr (encodesWith_of_opcodeMap hmap) hu, packFields_fields hlow htop]

/-- Settles O3: four words are those of their commands (O1), and in the fifth bit 31 is set. -/
theorem specWordsDecodeToTheirCommands : Obligations.SpecWordsDecodeToTheirCommands :=
  ⟨decodeOfEncodeIsTheCommand (.b83enc 4 2), decodeOfEncodeIsTheCommand (.b83dec 1 255),
    decodeOfEncodeIsTheCommand (.dqac 80), decodeOfEncodeIsTheCommand .decode,
    decode_reservedBits (sh := .plain .nop) rfl (.inr (by decide))⟩

end Sys2Proof
end

section
/-! SUPPORT. The six checks of a command word, as the completion step makes them (spec/30_encoding.md R94). -/

namespace Sys2Proof.Machine

/-! ## The outcomes that a failed check gives -/

/-- The step of the engine raises ILLEGAL_COMMAND with this KIND and POS = 0, and changes nothing else. -/
def StepRefusesWord (s : State) (kind : Byte) : Prop :=
  ∃ t, step s = .next t ∧ FailedOnly s t 7 kind 0

section
variable {s : State} {w : Word} (hturns : s.turns = []) (hpending : s.pending = some w)
include hturns hpending

/-- KIND 1 to 3: the word is no command. -/
theorem stepRefusesWord_of_decode {e : IllegalWord} (h : decode w = .error e) : StepRefusesWord s (illegalKind e) :=
  ⟨_, (step_engine s hturns).trans (completionStep_error hpending h), raiseError_failedOnly (illegalWordError e) s⟩

/-- KIND 4 to 6: the command raises the error. -/
theorem stepRefusesWord_of_exec {i : Instr} {kind : Byte} (h : decode w = .ok i)
    (hx : exec i s = .next (raiseError ⟨.illegalCommand, kind, 0⟩ s)) : StepRefusesWord s kind :=
  ⟨_, (step_engine s hturns).trans ((completionStep_ok hpending h).trans hx),
    raiseError_failedOnly ⟨.illegalCommand, kind, 0⟩ s⟩

end

/-- A command with LEN and HOFF checks them first. -/
theorem exec_field_raise {i : Instr} {len : BitVec 3} {hoff : BitVec 8} {kind : Byte} (s : State)
    (hi : i = .b83enc len hoff ∨ i = .b83dec len hoff) (h : checkField len hoff = raiseErr .illegalCommand kind 0) :
    exec i s = .next (raiseError ⟨.illegalCommand, kind, 0⟩ s) := by
  rcases hi with rfl | rfl
  · rw [exec, execB83enc, h]; rfl
  · rw [exec, execB83dec, h]; rfl

/-- A command with IDX checks it first. -/
theorem exec_index_raise {i : Instr} {idx : BitVec 7} {kind : Byte} (s : State) (hi : i = .qac idx ∨ i = .dqac idx)
    (h : checkIndex idx = raiseErr .illegalCommand kind 0) :
    exec i s = .next (raiseError ⟨.illegalCommand, kind, 0⟩ s) := by
  rcases hi with rfl | rfl
  · rw [exec, execQac, h]; rfl
  · rw [exec, execDqac, h]; rfl

/-- KIND 4. -/
theorem checkField_len {len : BitVec 3} (hoff : BitVec 8) (h : len.toNat < 1 ∨ 4 < len.toNat) :
    checkField len hoff = raiseErr .illegalCommand 4 0 := by
  simp only [checkField, if_pos h]

/-- KIND 5. -/
theorem checkField_end {len : BitVec 3} {hoff : BitVec 8} (h1 : 1 ≤ len.toNat) (h4 : len.toNat ≤ 4)
    (h : 256 < hoff.toNat + len.toNat) : checkField len hoff = raiseErr .illegalCommand 5 0 := by
  rw [checkField, if_neg (by omega), if_pos h]

/-- KIND 6. -/
theorem checkIndex_range {idx : BitVec 7} (h : 80 < idx.toNat) :
    checkIndex idx = raiseErr .illegalCommand 6 0 := by
  rw [checkIndex, if_pos h]

end Sys2Proof.Machine

namespace Sys2Proof

open Machine

/-- Settles O4, check by check: KIND 1 to 3 by the decoder's checks, KIND 4 to 6 by those of the decoded command. -/
theorem illegalWordsFailByTheFirstCheck : Obligations.IllegalWordsFailByTheFirstCheck := by
  intro s w hturns hpending
  -- The numbers of the statement are the word's fields.
  dsimp only
  rw [← opField_toNat, ← lenField_toNat, ← reservedField_toNat, ← hoffField_toNat, ← idxField_toNat, ← topField_toNat]
  simp only [BitVec.toNat_eq_nat, ne_eq, Nat.reducePow, Nat.reduceLT, true_and, Nat.ofNat_pos]
  have undecoded {e : IllegalWord} := stepRefusesWord_of_decode hturns hpending (e := e)
  have outOfRange {i : Instr} {kind : Byte} := stepRefusesWord_of_exec hturns hpending (i := i) (kind := kind)
  refine ⟨fun hop => ?_, fun hop hres => ?_, fun hop hlow htop hset => ?_, fun hop hlow htop hset hlen => ?_,
    fun hop hlow htop hset h1 h4 hend => ?_, fun hop hlow htop hset hidx => ?_⟩
  · exact undecoded (decode_unknownOp ((opcodeMap_eq_none_iff _).mpr hop))
  · obtain ⟨sh, hmap⟩ := exists_opcodeMap hop
    exact undecoded (decode_reservedBits hmap hres)
  · obtain ⟨sh, hmap⟩ := exists_opcodeMap hop
    exact undecoded (decode_unusedField hmap hlow htop (unusedZero_eq_false hmap hset))
  · obtain ⟨i, hw, hi⟩ := decode_field_op hop hlow htop hset
    exact outOfRange hw (exec_field_raise s hi (checkField_len _ hlen))
  · obtain ⟨i, hw, hi⟩ := decode_field_op hop hlow htop hset
    exact outOfRange hw (exec_field_raise s hi (checkField_end h1 h4 hend))
  · obtain ⟨i, hw, hi⟩ := decode_index_op hop hlow htop hset
    exact outOfRange hw (exec_index_raise s hi (checkIndex_range hidx))

end Sys2Proof
end

section
/-! SUPPORT. Successful completion, and the control command (spec/40_control.md). -/

namespace Sys2Proof.Machine

/-- Completion keeps what the evaluation has left alone (R46, R92). -/
theorem WritesOnly.ran {i : Instr} {s u : State} (h : WritesOnly i s u) : Ran s (complete u) :=
  ⟨complete_succeeded u, h.inputs⟩

/-- After a success STATUS reads DONE alone, unless a dropped write has set WERR (R29, R232). -/
theorem statusWord_of_succeeded {t : State} (h : Succeeded t) (hw : t.werr = false) : statusWord t = 0x00000002 := by
  obtain ⟨hbusy, hdone, hcode, -, -, -⟩ := h
  simp [statusWord, errFlag, hbusy, hdone, hcode, hw, flag]

/-- NOP's evaluation gives the state as it was (R110). -/
theorem exec_nop (s : State) : exec .nop s = .next (complete s) := rfl

end Sys2Proof.Machine

namespace Sys2Proof

open Machine

/-- Settles O21: NOP completes the state as it was, and completion writes no output register and no memory. -/
theorem nopOnlyCompletes : Obligations.NopOnlyCompletes := by
  refine ⟨rfl, fun s => ⟨complete s, exec_nop s, (WritesOnly.refl .nop s).ran, ?_, complete_mem s, fun hw => ?_⟩⟩
  · simp [SameOutputs]
  · exact statusWord_of_succeeded (complete_succeeded s) hw

end Sys2Proof
end

section
/-! SUPPORT. The base83 codec and its two commands (spec/41_base83.md). -/

namespace Sys2Proof.Machine

/-! ## Digits -/

/-- Alphabet lookup inverts (R120, R121). -/
theorem indexOf_digitChar {d : Nat} (h : d < 83) : indexOf (digitChar d) = some d := by
  revert h d
  decide

theorem hashDigit_lt (s : State) (p : Nat) : hashDigit s p < 83 := by
  unfold hashDigit hashDigit?
  cases hd : (Memory.read s.mem (hashBase + p)).bind indexOf with
  | none => simp
  | some d =>
    obtain ⟨c, -, hc⟩ := Option.bind_eq_some_iff.mp hd
    exact indexOf_lt hc

/-- A byte that has a digit has been written, and the alphabet lists it. -/
theorem exists_of_hashDigit?_isSome {s : State} {p : Nat} (h : (hashDigit? s p).isSome = true) :
    ∃ c, readHash s p = .ok c ∧ indexOf c = some (hashDigit s p) := by
  obtain ⟨d, hd⟩ := Option.isSome_iff_exists.mp h
  obtain ⟨c, hread, hc⟩ := Option.bind_eq_some_iff.mp hd
  exact ⟨c, by rw [readHash, hread], by rw [hc, hashDigit, hd, Option.getD_some]⟩

/-! ## The value of a field -/

/-- Horner's rule takes the last character last (R123). -/
theorem hashField_succ (s : State) (p n : Nat) :
    hashField s p (n + 1) = hashField s p n * 83 + hashDigit s (p + n) := by
  simp [hashField, List.range_succ]

theorem hashField_lt (s : State) (p n : Nat) : hashField s p n < 83 ^ n := by
  induction n with
  | zero => simp [hashField]
  | succ n ih =>
    have := hashDigit_lt s (p + n)
    rw [hashField_succ, Nat.pow_succ]
    omega

/-- Characters with the low digits of n, the most significant first, are worth n without its higher digits. -/
theorem hashField_eq_mod {s : State} {p len n : Nat}
    (h : ∀ i < len, hashDigit s (p + i) = n / 83 ^ (len - 1 - i) % 83) : hashField s p len = n % 83 ^ len := by
  induction len generalizing n with
  | zero => simp [hashField, Nat.mod_one]
  | succ len ih =>
    have hlast : hashDigit s (p + len) = n % 83 := by simpa using h len (by omega)
    have hinit : hashField s p len = n / 83 % 83 ^ len := ih fun i hi => by
      rw [h i (by omega), Nat.div_div_eq_div_mul, ← Nat.pow_succ', show (len - 1 - i).succ = len + 1 - 1 - i by omega]
    rw [hashField_succ, hlast, hinit, Nat.pow_succ', Nat.mod_mul]
    ring

/-! ## Decoding (R123) -/

section
variable {s : State} {p : Nat} {c : Byte}

theorem b83DecodeFrom_digit (h : (hashDigit? s p).isSome = true) (count v : Nat) :
    b83DecodeFrom s p (count + 1) v = b83DecodeFrom s (p + 1) count (v * 83 + hashDigit s p) := by
  obtain ⟨c, hread, hc⟩ := exists_of_hashDigit?_isSome h
  simp only [b83DecodeFrom, hread, hc, bind, Except.bind]

theorem b83DecodeFrom_noDigit (hread : readHash s p = .ok c) (hc : indexOf c = none) (count v : Nat) :
    b83DecodeFrom s p (count + 1) v = raiseErr .formatError 2 (BitVec.ofNat 8 p) := by
  simp only [b83DecodeFrom, hread, hc, bind, Except.bind]

/-- A run of digits is its first and the run after it. -/
theorem digits_head_tail {n : Nat} (h : ∀ i < n + 1, (hashDigit? s (p + i)).isSome = true) :
    (hashDigit? s p).isSome = true ∧ ∀ i < n, (hashDigit? s (p + 1 + i)).isSome = true := by
  refine ⟨h 0 (by omega), fun i hi => ?_⟩
  rw [show p + 1 + i = p + (i + 1) by omega]
  exact h (i + 1) (by omega)

/-- Characters that are all digits continue Horner's rule from the value v. -/
theorem b83DecodeFrom_digits {count : Nat} (h : ∀ i < count, (hashDigit? s (p + i)).isSome = true) (v : Nat) :
    b83DecodeFrom s p count v = .ok ((List.range count).foldl (fun v i => v * 83 + hashDigit s (p + i)) v) := by
  induction count generalizing p v with
  | zero => rfl
  | succ n ih =>
    obtain ⟨hhead, htail⟩ := digits_head_tail h
    rw [b83DecodeFrom_digit hhead, ih htail, List.range_succ_eq_map, List.foldl_cons, List.foldl_map]
    simp [Nat.add_assoc, Nat.add_comm 1]

theorem b83Decode_digits {count : Nat} (h : ∀ i < count, (hashDigit? s (p + i)).isSome = true) :
    b83Decode s p count = .ok (hashField s p count) :=
  b83DecodeFrom_digits h 0

/-- The first character that is no digit raises FORMAT_ERROR at its position, whatever follows it (R125). -/
theorem b83DecodeFrom_badChar {count k : Nat} (hk : k < count)
    (hdigits : ∀ i < k, (hashDigit? s (p + i)).isSome = true) (hread : readHash s (p + k) = .ok c)
    (hc : indexOf c = none) (v : Nat) :
    b83DecodeFrom s p count v = raiseErr .formatError 2 (BitVec.ofNat 8 (p + k)) := by
  induction count generalizing p k v with
  | zero => exact absurd hk (Nat.not_lt_zero k)
  | succ n ih =>
    cases k with
    | zero => exact b83DecodeFrom_noDigit hread hc n v
    | succ k =>
      obtain ⟨hhead, htail⟩ := digits_head_tail hdigits
      have hpos : p + (k + 1) = p + 1 + k := by omega
      rw [hpos] at hread ⊢
      rw [b83DecodeFrom_digit hhead, ih (by omega) htail hread]

end

/-! ## Encoding (R122) -/

@[simp] theorem b83Encode_getElem (n len : Nat) {i : Nat} (h : i < (b83Encode n len).length) :
    (b83Encode n len)[i] = digitChar (n / 83 ^ (len - 1 - i) % 83) := by
  simp [b83Encode]

/-- A field that holds the characters of a number's low digits has those digits. -/
theorem hashDigit?_of_holds {s : State} {p n len : Nat} (h : HoldsFrom s.mem (hashBase + p) (b83Encode n len)) {i : Nat}
    (hi : i < len) : hashDigit? s (p + i) = some (n / 83 ^ (len - 1 - i) % 83) := by
  have hlen : i < (b83Encode n len).length := by simpa using hi
  rw [hashDigit?, ← Nat.add_assoc, h i hlen, b83Encode_getElem, Option.bind_some,
    indexOf_digitChar (Nat.mod_lt _ (by decide))]

/-- Decoding what was encoded gives the low digits back (R126). -/
theorem b83Decode_of_holds {s : State} {p n len : Nat} (h : HoldsFrom s.mem (hashBase + p) (b83Encode n len)) :
    b83Decode s p len = .ok (n % 83 ^ len) := by
  have hdigit (i : Nat) (hi : i < len) := hashDigit?_of_holds h hi
  have hvalue : hashField s p len = n % 83 ^ len :=
    hashField_eq_mod fun i hi => by rw [hashDigit, hdigit i hi, Option.getD_some]
  rw [b83Decode_digits fun i hi => by simp [hdigit i hi], hvalue]

/-! ## The commands (R124, R125) -/

theorem holdsFrom_writeHash (s : State) (p : Nat) (bs : List Byte) :
    HoldsFrom (writeHash s p bs).mem (hashBase + p) bs :=
  read_writeBytes_inside bs s.mem (hashBase + p)

section
variable {s : State} {len : BitVec 3} {hoff : BitVec 8}

theorem fieldInRange_of_bounds (h1 : 1 ≤ len.toNat) (h4 : len.toNat ≤ 4) (hend : hoff.toNat + len.toNat ≤ 256) :
    fieldInRange len hoff = true := by
  simp [fieldInRange, h1, h4, hend]

/-- Where the check of the field fails, the command leaves the check's error and nothing else (R235). -/
theorem exec_field_failedOnly {i : Instr} {kind : Byte} (s : State) (hi : i = .b83enc len hoff ∨ i = .b83dec len hoff)
    (h : checkField len hoff = raiseErr .illegalCommand kind 0) :
    ∃ t, exec i s = .next t ∧ FailedOnly s t 7 kind 0 :=
  ⟨_, exec_field_raise s hi h, raiseError_failedOnly ⟨.illegalCommand, kind, 0⟩ s⟩

theorem exec_b83enc (s : State) (h : fieldInRange len hoff = true) :
    exec (.b83enc len hoff) s = .next (complete (writeHash s hoff.toNat (b83Encode s.src0.toNat len.toNat))) := by
  rw [exec, execB83enc, checkField_ok h]
  rfl

theorem exec_b83dec {v : Nat} (h : fieldInRange len hoff = true) (hv : b83Decode s hoff.toNat len.toNat = .ok v) :
    exec (.b83dec len hoff) s = .next (complete { s with result := BitVec.ofNat 64 v }) := by
  rw [exec, execB83dec, checkField_ok h, hv]
  rfl

theorem exec_b83dec_raise {code : ErrCode} {kind pos : Byte} (h : fieldInRange len hoff = true)
    (hv : b83Decode s hoff.toNat len.toNat = raiseErr code kind pos) :
    exec (.b83dec len hoff) s = .next (raiseError ⟨code, kind, pos⟩ s) := by
  rw [exec, execB83dec, checkField_ok h, hv]
  rfl

end

/-- A field of at most four characters fits RESULT. -/
theorem ofNat_hashField_toNat (s : State) (p : Nat) {len : Nat} (h : len ≤ 4) :
    (BitVec.ofNat 64 (hashField s p len)).toNat = hashField s p len := by
  have hlt : hashField s p len < 2 ^ 64 :=
    calc hashField s p len < 83 ^ len := hashField_lt s p len
      _ ≤ 83 ^ 4 := Nat.pow_le_pow_right (by decide) h
      _ < 2 ^ 64 := by decide
  exact Nat.mod_eq_of_lt hlt

end Sys2Proof.Machine

namespace Sys2Proof

open Machine

/-- Settles O22: B83ENC writes one run of digit characters at HASH[HOFF], after the two checks of its field. -/
theorem b83encWritesTheLowDigits : Obligations.B83encWritesTheLowDigits := by
  intro s len hoff
  refine ⟨by simp [encode, packFields_toNat], fun h1 h4 hend => ?_,
    fun hlen => exec_field_failedOnly s (.inl rfl) (checkField_len hoff hlen),
    fun h1 h4 hend => exec_field_failedOnly s (.inl rfl) (checkField_end h1 h4 hend)⟩
  have hwrites := (WritesOnly.refl (.b83enc len hoff) s).writeHash rfl (p := hoff.toNat)
    (bs := b83Encode s.src0.toNat len.toNat) (by simpa using hend)
  refine ⟨_, exec_b83enc s (fieldInRange_of_bounds h1 h4 hend), hwrites.ran, by simp [SameOutputs], fun x hx => ?_,
    fun p hp => ?_⟩
  · exact read_writeBytes_outside _ s.mem _ x (by simpa [hashBase] using hx)
  · exact (holdsFrom_writeHash s _ _ p (by simpa using hp)).trans (by rw [b83Encode_getElem])

/-- Settles O23: the characters continue Horner's rule as long as they are digits; the first that is none ends it. -/
theorem b83decReadsTheHornerValue : Obligations.B83decReadsTheHornerValue := by
  intro s len hoff
  refine ⟨by simp [encode, packFields_toNat], fun h1 h4 hend hdigits => ?_,
    fun h1 h4 hend p c hp hdigits hread hc => ?_,
    fun hlen => exec_field_failedOnly s (.inr rfl) (checkField_len hoff hlen),
    fun h1 h4 hend => exec_field_failedOnly s (.inr rfl) (checkField_end h1 h4 hend)⟩
  · exact ⟨_, exec_b83dec (fieldInRange_of_bounds h1 h4 hend) (b83Decode_digits hdigits),
      ((WritesOnly.refl (.b83dec len hoff) s).setResult rfl _).ran, ofNat_hashField_toNat s _ h4, by simp [SameOutputs],
      rfl⟩
  · have hchar : readHash s (hoff.toNat + p) = .ok c := by
      rw [Nat.add_assoc] at hread
      rw [readHash, hashBase, hread]
    exact ⟨_, exec_b83dec_raise (fieldInRange_of_bounds h1 h4 hend) (b83DecodeFrom_badChar hp hdigits hchar hc 0),
      raiseError_failedOnly ⟨.formatError, 2, BitVec.ofNat 8 (hoff.toNat + p)⟩ s⟩

/-- Settles O24: B83DEC reads the run that B83ENC has written, and a value below 83^LEN has no higher digits. -/
theorem base83RoundTrip : Obligations.Base83RoundTrip := by
  intro s len hoff h1 h4 hend hlt
  have hrange := fieldInRange_of_bounds h1 h4 hend
  refine ⟨_, _, exec_b83enc s hrange, exec_b83dec hrange (b83Decode_of_holds (holdsFrom_writeHash s _ _)), ?_, rfl⟩
  simp [Nat.mod_eq_of_lt hlt]

end Sys2Proof
end

section
/-! SUPPORT. The colour conversion commands (spec/42_color.md). -/

namespace Sys2Proof.Machine

/-! ## Commands that write RESULT alone -/

/-- Completion after a write of RESULT, the one output of S2L, L2S and SPOW (R46, R92). -/
theorem complete_setResult_frame (s : State) (v : DWord) :
    let t := complete { s with result := v }
    Ran s t ∧ SameOutputs { s with result := t.result } t ∧ t.mem = s.mem :=
  ⟨((WritesOnly.refl .s2l s).setResult rfl v).ran, by simp [SameOutputs], rfl⟩

theorem exec_s2l (s : State) :
    exec .s2l s = .next (complete { s with result := s2l (drawSite s) (s.src0.extractLsb' 0 8) }) := rfl

theorem exec_l2s (s : State) :
    exec .l2s s = .next (complete { s with result := (l2s (drawSite s) s.src0).setWidth 64 }) := rfl

theorem exec_spow (s : State) :
    exec .spow s = .next (complete { s with result := signPow s.src0 s.src1 }) := rfl

/-- The byte that S2L takes of SRC0 (R144). -/
theorem src0_mod (s : State) : s.src0.toNat % 256 = (s.src0.extractLsb' 0 8).toNat := by
  simp [BitVec.extractLsb'_toNat]

/-! ## Numbers, and where they are the same at every site (U7) -/

theorem isFinite_of_inUnit {x : F64} (h : inUnit x = true) : isFinite x = true :=
  (isFinite_iff x).mpr (Nat.lt_of_le_of_lt (fbits_le_one h) (by decide))

theorem isNaN_of_inUnit {x : F64} (h : inUnit x = true) : isNaN x = false :=
  isNaN_of_isFinite (isFinite_of_inUnit h)

section
variable (d : Site) {x y : F64}

theorem isNaN_fadd_finite (hx : isNaN x = false) (hy : isFinite y = true) : isNaN (fadd d x y) = false := by
  simp [isNaN_fadd, hx, isNaN_of_isFinite hy, isInf_of_isFinite hy]

theorem fadd_site (hx : isNaN x = false) (hy : isFinite y = true) : fadd d x y = fadd [] x y :=
  (fadd_same d [] (.rfl x) (.rfl y)).eq (isNaN_fadd_finite d hx hy)

theorem fdiv_site (hx : isNaN x = false) (hy : isFinite y = true) (hz : isZero y = false) :
    fdiv d x y = fdiv [] x y :=
  (fdiv_same d [] (.rfl x) (.rfl y)).eq (by simp [isNaN_fdiv, hx, hz, isNaN_of_isFinite hy, isInf_of_isFinite hy])

end

/-! ## The properties of the power (R11) -/

/-- P2. -/
theorem pow64_one {y : F64} (h : isNaN y = false) : pow64 c1 y = c1 := pow64_of_powFixed (powFixed_one h)

/-- P4. -/
theorem pow64_square {x : F64} (h : isFinite x = true) : pow64 x c2 = fmul [] x x :=
  pow64_of_powFixed (powFixed_square h)

/-- P5's range. -/
theorem inUnit_pow64 {x y : F64} (hx : inUnit x = true) (hy : flt posZero y = true) : inUnit (pow64 x y) = true :=
  powBounded_inUnit _ hx hy

/-- P5's round trip. -/
theorem l2s_s2l (b : Byte) : (l2s [] (s2l [] b)).toNat ≤ b.toNat + 1 ∧ b.toNat ≤ (l2s [] (s2l [] b)).toNat + 1 :=
  (roundTrips_iff pow64).mp (powChosen_roundTrips _) b

/-! ## s2l (R141) -/

/-- The value v of R141 for the byte n. -/
def byteFraction (n : Nat) : F64 := fdiv [] (fofNat n) c255

/-- The base of R141's power branch. -/
def s2lBase (v : F64) : F64 := fdiv [] (fadd [] v c0_055) c1_055

/-! Facts of the 256 values of v, computed byte by byte. -/

theorem inUnit_byteFraction : ∀ n < 256, inUnit (byteFraction n) = true := by decide +kernel

theorem fle_byteFraction_knee : ∀ n < 256, fle (byteFraction n) cS2lKnee = decide (n ≤ 10) := by decide +kernel

theorem inUnit_linear : ∀ n < 256, inUnit (fdiv [] (byteFraction n) c12_92) = true := by decide +kernel

theorem inUnit_s2lBase : ∀ n < 256, inUnit (s2lBase (byteFraction n)) = true := by decide +kernel

theorem s2lBase_white : s2lBase (byteFraction 255) = c1 := by decide +kernel

section
variable (d : Site) (b : Byte)

theorem isNaN_byteFraction : isNaN (byteFraction b.toNat) = false := isNaN_of_inUnit (inUnit_byteFraction _ b.isLt)

/-- No branch of s2l makes a NaN before the power, so that the site is nowhere seen. -/
theorem s2l_eq : s2l d b = if b.toNat ≤ 10 then fdiv [] (byteFraction b.toNat) c12_92
    else pow64 (s2lBase (byteFraction b.toNat)) c2_4 := by
  have hv : fdiv (0 :: d) (fofNat b.toNat) c255 = byteFraction b.toNat :=
    fdiv_site _ (isNaN_packFloat_roundMag _ _ _) (by decide) (by decide)
  have hnan := isNaN_byteFraction b
  simp only [s2l, s2lWith, hv, fle_byteFraction_knee _ b.isLt, decide_eq_true_eq]
  rw [fdiv_site _ hnan (by decide) (by decide), fadd_site _ hnan (by decide),
    fdiv_site _ (isNaN_fadd_finite [] hnan (by decide)) (by decide) (by decide), s2lBase]

theorem s2l_site : s2l d b = s2l [] b := (s2l_eq d b).trans (s2l_eq [] b).symm

theorem s2l_zero {b : Byte} (h : b.toNat = 0) : s2l d b = 0 := by
  rw [s2l_eq, h, if_pos (by decide)]
  decide +kernel

theorem s2l_white {b : Byte} (h : b.toNat = 255) : s2l d b = c1 := by
  rw [s2l_eq, h, if_neg (by decide), s2lBase_white]
  exact pow64_one (by decide)

theorem inUnit_s2l : inUnit (s2l d b) = true := by
  rw [s2l_eq]
  split
  · exact inUnit_linear _ b.isLt
  · exact inUnit_pow64 (inUnit_s2lBase _ b.isLt) (by decide)

end

/-! ## The order of the patterns at the ends of [0, 1] -/

theorem flt_trans {x y z : F64} (hxy : flt x y = true) (hyz : flt y z = true) : flt x z = true := by
  simp only [flt, Bool.and_eq_true, decide_eq_true_eq] at *
  exact ⟨⟨hxy.1.1, hyz.1.2⟩, Int.lt_trans hxy.2 hyz.2⟩

/-- One key stands for one pattern, but for the two zeros. -/
theorem eq_of_orderKey_eq {x y : F64} (h : orderKey x = orderKey y) :
    x = y ∨ isZero x = true ∧ isZero y = true := by
  simp only [isZero_iff]
  unfold orderKey at h
  cases hx : fsign x <;> cases hy : fsign y <;> simp only [hx, hy, if_true, if_false, Bool.false_eq_true] at h
  · exact .inl (eq_of_fsign_fbits (hx.trans hy.symm) (by omega))
  · omega
  · omega
  · exact .inl (eq_of_fsign_fbits (hx.trans hy.symm) (by omega))

theorem fle_cases {x y : F64} (h : fle x y = true) :
    flt x y = true ∨ x = y ∨ isZero x = true ∧ isZero y = true := by
  simp only [fle, Bool.and_eq_true, decide_eq_true_eq] at h
  obtain ⟨hnan, hle⟩ := h
  rcases Int.lt_or_eq_of_le hle with hlt | heq
  · exact .inl (by simp [flt, hnan, hlt])
  · exact .inr (eq_of_orderKey_eq heq)

theorem eq_zero_of_isZero {x : F64} (h : isZero x = true) : x = posZero ∨ x = fneg posZero := by
  have hbits : fbits x = 0 := (isZero_iff x).mp h
  cases hs : fsign x with
  | false => exact .inl (eq_of_fsign_fbits hs hbits)
  | true => exact .inr (eq_of_fsign_fbits hs hbits)

/-! ## The clamp of l2s (R142) -/

/-- Below zero the clamp gives +0.0. -/
theorem clamp01_of_neg {x : F64} (h : flt x posZero = true) : clamp01 x = posZero := by
  simp [clamp01, h]

theorem clamp01_of_one_lt {x : F64} (h : flt c1 x = true) : clamp01 x = c1 := by
  have hnan : ¬ isNaN x = true := fun hn => by simp [hn] at h
  have hpos : ¬ flt x posZero = true := fun hn => absurd (flt_trans h hn) (by decide)
  rw [clamp01, if_neg hnan, if_neg hpos, if_pos h]

theorem clamp01_of_one_le {x : F64} (h : fle c1 x = true) : clamp01 x = c1 := by
  rcases fle_cases h with hlt | rfl | ⟨hz, -⟩
  · exact clamp01_of_one_lt hlt
  · decide
  · exact absurd hz (by decide)

theorem clamp01_of_inUnit {x : F64} (h : inUnit x = true) : clamp01 x = x := by
  have hnan := isNaN_of_inUnit h
  simp only [inUnit, Bool.and_eq_true, fle_eq_not_flt hnan (show isNaN c1 = false by decide),
    fle_eq_not_flt (show isNaN posZero = false by decide) hnan, Bool.not_eq_true'] at h
  obtain ⟨hlow, hhigh⟩ := h
  simp [clamp01, hnan, hlow, hhigh]

/-- Negative values and zeros; −0 passes the clamp as it is. -/
theorem clamp01_of_le_zero {x : F64} (h : fle x posZero = true) : clamp01 x = posZero ∨ clamp01 x = fneg posZero := by
  rcases fle_cases h with hlt | rfl | ⟨hz, -⟩
  · exact .inl (clamp01_of_neg hlt)
  · exact .inl rfl
  · rcases eq_zero_of_isZero hz with rfl | rfl
    · exact .inl rfl
    · exact .inr rfl

/-! ## l2s (R142) -/

section
variable (d : Site) {x : F64}

theorem l2s_toNat (x : F64) : (l2s d x).toNat = satFloor (l2sScaled pow64 [] (clamp01 x)) 0 255 := by
  have hle := (satFloor_range (l2sScaled pow64 [] (clamp01 x)) 0 255 (Nat.zero_le _)).2
  rw [l2s_same d [] (.rfl x), l2s, l2sWith, BitVec.toNat_ofNat, Nat.mod_eq_of_lt (by omega)]

theorem l2s_nan (h : isNaN x = true) : l2s d x = 0 := by
  rw [← BitVec.toNat_inj, l2s_toNat, clamp01_nan h]
  decide +kernel

theorem l2s_of_le_zero (h : fle x posZero = true) : l2s d x = 0 := by
  rw [← BitVec.toNat_inj, l2s_toNat]
  rcases clamp01_of_le_zero h with hz | hz <;> rw [hz] <;> decide +kernel

theorem l2s_of_one_le (h : fle c1 x = true) : l2s d x = 255 := by
  rw [← BitVec.toNat_inj, l2s_toNat, clamp01_of_one_le h, l2sScaled, if_neg (by decide), pow64_one (by decide)]
  decide +kernel

/-- The branch below the knee. -/
theorem l2s_linear (hx : inUnit x = true) (hknee : fle x cL2sKnee = true) :
    (l2s d x).toNat = satFloor (fadd [] (fmul [] (fmul [] x c12_92) c255) cHalf) 0 255 := by
  rw [l2s_toNat, clamp01_of_inUnit hx, l2sScaled, if_pos hknee]
  have hproduct := fmul_same [1] [] (fmul_same [0] [] (.rfl x) (.rfl c12_92)) (.rfl c255)
  exact satFloor_same 0 255 (fadd_same _ _ hproduct (.rfl _))

/-- The branch above the knee. -/
theorem l2s_power (hx : inUnit x = true) (hknee : fle x cL2sKnee = false) :
    (l2s d x).toNat =
      satFloor (fadd [] (fmul [] (fsub [] (fmul [] (pow64 x cInv2_4) c1_055) c0_055) c255) cHalf) 0 255 := by
  rw [l2s_toNat, clamp01_of_inUnit hx, l2sScaled, if_neg (by simp [hknee])]
  have hdifference := fsub_same [4] [] (fmul_same [3] [] (.rfl (pow64 x cInv2_4)) (.rfl c1_055)) (.rfl c0_055)
  exact satFloor_same 0 255 (fadd_same _ _ (fmul_same _ _ hdifference (.rfl _)) (.rfl _))

end

/-! ## sign_pow (R143) -/

@[simp] theorem isFinite_fabs (x : F64) : isFinite (fabs x) = isFinite x := by simp [isFinite]

section
variable {n e : F64}

theorem signPow_of_neg (h : flt n posZero = true) : signPow n e = fneg (pow64 (fneg n) e) := if_pos h

theorem signPow_of_not_neg (h : flt n posZero = false) : signPow n e = pow64 (fabs n) e :=
  if_neg (by simp [h])

end

end Sys2Proof.Machine

namespace Sys2Proof

open Machine

/-- Settles O25: the branch is that of the byte, P5 bounds the power branch and P2 gives its end. -/
theorem s2lConvertsTheByte : Obligations.S2lConvertsTheByte := by
  refine ⟨rfl, fun s => ?_⟩
  obtain ⟨hran, hout, hmem⟩ := complete_setResult_frame s (s2l (drawSite s) (s.src0.extractLsb' 0 8))
  refine ⟨_, exec_s2l s, hran, hout, hmem, ?_⟩
  dsimp only [complete_result]
  rw [src0_mod]
  generalize s.src0.extractLsb' 0 8 = b
  exact ⟨fun h => (s2l_eq _ b).trans (if_pos h), fun h => (s2l_eq _ b).trans (if_neg (by omega)), s2l_zero _,
    s2l_white _, inUnit_s2l _ b⟩

/-- Settles O26, by the clamp: to a zero, to 1.0, or the value itself, which takes the branch of its side of the
knee. -/
theorem l2sConvertsTheValue : Obligations.L2sConvertsTheValue := by
  refine ⟨rfl, fun s => ?_⟩
  obtain ⟨hran, hout, hmem⟩ := complete_setResult_frame s ((l2s (drawSite s) s.src0).setWidth 64)
  refine ⟨_, exec_l2s s, hran, hout, hmem, ?_⟩
  rw [complete_result]
  have hresult : ((l2s (drawSite s) s.src0).setWidth 64).toNat = (l2s (drawSite s) s.src0).toNat :=
    BitVec.toNat_setWidth_of_le (by decide)
  refine ⟨?_, fun h => ?_, fun h => ?_, fun hx hknee => ?_, fun hx hknee => ?_⟩
  · exact hresult ▸ Nat.le_of_lt_succ (l2s (drawSite s) s.src0).isLt
  · have hzero := h.elim (l2s_nan (drawSite s)) (l2s_of_le_zero (drawSite s))
    simp [hzero]
  · simp [l2s_of_one_le (drawSite s) h]
  · exact hresult.trans (l2s_linear _ hx hknee)
  · exact hresult.trans (l2s_power _ hx hknee)

/-- Settles O27: the two cases of sign_pow, and P4 for the square of the magnitude in each. -/
theorem spowKeepsTheSign : Obligations.SpowKeepsTheSign := by
  refine ⟨rfl, fun s => ?_⟩
  obtain ⟨hran, hout, hmem⟩ := complete_setResult_frame s (signPow s.src0 s.src1)
  refine ⟨_, exec_spow s, hran, hout, hmem, signPow_of_neg, signPow_of_not_neg, fun he hfin hneg => ?_,
    fun he hfin hneg => ?_⟩
  · rw [he, ← pow64_square (by simpa using hfin)]
    exact signPow_of_neg hneg
  · rw [he, ← pow64_square (by simpa using hfin)]
    exact signPow_of_not_neg hneg

/-- Settles O28: P5 at the site [], and neither function shows its site. -/
theorem colourRoundTripWithinOne : Obligations.ColourRoundTripWithinOne := by
  intro s
  refine ⟨_, _, exec_s2l s, exec_l2s _, ?_⟩
  dsimp only [complete_result, acceptCommand_src0]
  rw [BitVec.toNat_setWidth_of_le (by decide), s2l_site, l2s_same _ [] (.rfl _), src0_mod]
  exact l2s_s2l _

end Sys2Proof
end

section
/-! SUPPORT. The quantizer (spec/43_encoder.md R161 to R163) and its commands (R166 to R168). -/

namespace Sys2Proof.Machine

/-! ## actual_max (R161): the fold over the channels keeps the greatest magnitude -/

/-- The channels of the triples, in the order of the fold. -/
def channels (acs : List Triple) : List F64 := acs.flatMap fun t => [t.r, t.g, t.b]

theorem actualMax_eq_foldl_channels (acs : List Triple) : actualMax acs = (channels acs).foldl foldAbs posZero := by
  rw [channels, List.foldl_flatMap]
  rfl

theorem mem_channels {c : F64} {acs : List Triple} : c ∈ channels acs ↔ ∃ t ∈ acs, c ∈ [t.r, t.g, t.b] :=
  List.mem_flatMap

theorem fle_refl {x : F64} (h : isNaN x = false) : fle x x = true := by simp [fle, h]

theorem fle_trans {x y z : F64} (hxy : fle x y = true) (hyz : fle y z = true) : fle x z = true := by
  simp only [fle, Bool.and_eq_true, decide_eq_true_eq] at *
  exact ⟨⟨hxy.1.1, hyz.1.2⟩, Int.le_trans hxy.2 hyz.2⟩

/-- One step of the fold takes the channel's magnitude where the channel is a number that exceeds the maximum. -/
theorem foldAbs_cases {am : F64} (hn : isNaN am = false) (c : F64) :
    (foldAbs am c = fabs c ∧ isNaN c = false ∧ fle am (fabs c) = true) ∨
      (foldAbs am c = am ∧ (isNaN c = false → fle (fabs c) am = true)) := by
  cases h : flt am (fabs c) with
  | true =>
    have hc : isNaN c = false := by
      rw [← Bool.not_eq_true]
      exact fun hc => by simp [hc] at h
    refine .inl ⟨by simp [foldAbs, h], hc, ?_⟩
    simp only [flt, fle, Bool.and_eq_true, decide_eq_true_eq] at h ⊢
    exact ⟨h.1, Int.le_of_lt h.2⟩
  | false =>
    exact .inr ⟨by simp [foldAbs, h], fun hc => by rw [fle_eq_not_flt (by simpa using hc) hn, h]; rfl⟩

/-- `m` is the greatest of the start value and the magnitudes of the channels that are numbers. -/
structure IsGreatest (am : F64) (cs : List F64) (m : F64) : Prop where
  start : fle am m = true
  channel : ∀ c ∈ cs, isNaN c = false → fle (fabs c) m = true
  attained : m = am ∨ ∃ c ∈ cs, isNaN c = false ∧ m = fabs c

theorem foldl_foldAbs_isGreatest (cs : List F64) {am : F64} (hn : isNaN am = false) :
    IsGreatest am cs (cs.foldl foldAbs am) := by
  induction cs generalizing am with
  | nil => exact ⟨fle_refl hn, by simp, .inl rfl⟩
  | cons c cs ih =>
    rw [List.foldl_cons]
    rcases foldAbs_cases hn c with ⟨he, hc, hle⟩ | ⟨he, hle⟩
    · obtain ⟨hstart, hch, hatt⟩ := ih (am := fabs c) (by simpa using hc)
      rw [he]
      refine ⟨fle_trans hle hstart, List.forall_mem_cons.mpr ⟨fun _ => hstart, hch⟩, .inr ?_⟩
      rcases hatt with hm | ⟨c', hc', hm⟩
      · exact ⟨c, List.mem_cons_self, hc, hm⟩
      · exact ⟨c', List.mem_cons_of_mem _ hc', hm⟩
    · obtain ⟨hstart, hch, hatt⟩ := ih hn
      rw [he]
      refine ⟨hstart, List.forall_mem_cons.mpr ⟨fun hc => fle_trans (hle hc) hstart, hch⟩, hatt.imp_right ?_⟩
      rintro ⟨c', hc', hm⟩
      exact ⟨c', List.mem_cons_of_mem _ hc', hm⟩

theorem actualMax_isGreatest (acs : List Triple) : IsGreatest posZero (channels acs) (actualMax acs) := by
  rw [actualMax_eq_foldl_channels]
  exact foldl_foldAbs_isGreatest _ (by decide)

/-! ## The quantized values, at no site of their own (U7) -/

/-- questioned_max of AC triples whose greatest magnitude is `am` (R161). -/
def questionedMax (am : F64) : Nat := satFloor (fsub [] (fmul [] am c166) cHalf) 0 82

theorem questionedMax_le (am : F64) : questionedMax am ≤ 82 := (satFloor_range _ 0 82 (by decide)).2

theorem qmax_nil (d : Site) : qmax d [] = (0, c1) := rfl

theorem qmax_of_ne_nil (d : Site) {acs : List Triple} (h : acs ≠ []) :
    qmax d acs = (questionedMax (actualMax acs), fdiv [] (fofNat (questionedMax (actualMax acs) + 1)) c166) := by
  obtain ⟨t, ts, rfl⟩ := List.exists_cons_of_ne_nil h
  have hq : satFloor (fsub (0 :: d) (fmul (1 :: d) (actualMax (t :: ts)) c166) cHalf) 0 82 =
      questionedMax (actualMax (t :: ts)) :=
    satFloor_same 0 82 (fsub_same _ _ (fmul_same _ _ (.rfl _) (.rfl _)) (.rfl _))
  simp only [qmax, hq]
  rw [dqmax_same _ [], dqmax]

theorem qdc_toNat (d : Site) (t : Triple) :
    (qdc d t).toNat = (l2s [] t.r).toNat * 2 ^ 16 + (l2s [] t.g).toNat * 2 ^ 8 + (l2s [] t.b).toNat := by
  simp only [qdc, toNat_append_eq_add, l2s_same _ [] (.rfl _)]
  omega

/-- The digit of a quotient (R163; log entry 19). -/
def quotientDigit (u : F64) : Nat :=
  if isNaN u then 0
  else if isInf u then (if fsign u then 0 else 18)
  else satFloor (fadd [] (fmul [] (signPow u cHalf) c9) c9_5) 0 18

theorem quotientDigit_le (u : F64) : quotientDigit u ≤ 18 := by
  unfold quotientDigit
  split
  · exact Nat.zero_le 18
  · split
    · split <;> decide
    · exact (satFloor_range _ 0 18 (by decide)).2

theorem qch_eq_quotientDigit (d : Site) (c m : F64) : qch d c m = quotientDigit (fdiv [] c m) := by
  have hu := fdiv_same (0 :: d) [] (.rfl c) (.rfl m)
  cases hn : isNaN (fdiv (0 :: d) c m) with
  | true =>
    rw [qch_nan hn, quotientDigit, ← hu.isNaN_eq, if_pos hn]
  | false =>
    rw [quotientDigit, ← hu.eq hn, qch,
      satFloor_same 0 18 (fadd_same (2 :: d) [] (fmul_same (1 :: d) [] (.rfl _) (.rfl c9)) (.rfl c9_5))]

theorem qac_eq_quotientDigits (d : Site) (t : Triple) (m : F64) :
    qac d t m = quotientDigit (fdiv [] t.r m) * 361 + quotientDigit (fdiv [] t.g m) * 19 +
      quotientDigit (fdiv [] t.b m) := by
  simp only [qac, qch_eq_quotientDigit]

/-- Three digits in base 19 (R163). -/
theorem qac_le (d : Site) (t : Triple) (m : F64) : qac d t m ≤ 6858 := by
  have hr := quotientDigit_le (fdiv [] t.r m)
  have hg := quotientDigit_le (fdiv [] t.g m)
  have hb := quotientDigit_le (fdiv [] t.b m)
  rw [qac_eq_quotientDigits]
  omega

/-! ## The commands -/

theorem readGridFrom_succ {s : State} {k count : Nat} {t : Triple} {ts : List Triple} (ht : readGrid s k = .ok t)
    (hts : readGridFrom s (k + 1) count = .ok ts) : readGridFrom s k (count + 1) = .ok (t :: ts) := by
  simp only [readGridFrom, ht, hts]
  rfl

/-- Grid entries whose bytes are defined are read, each as it stands (R63). -/
theorem readGridFrom_entries (s : State) (k count : Nat) (h : DefinedFrom s (gridAddr k) (24 * count)) :
    ∃ ts, readGridFrom s k count = .ok ts ∧ ts.length = count ∧
      ∀ i, (hi : i < ts.length) → readGrid s (k + i) = .ok ts[i] := by
  induction count generalizing k with
  | zero => exact ⟨[], rfl, rfl, by simp⟩
  | succ n ih =>
    obtain ⟨t, ht⟩ := readGrid_defined s k fun i hi => h i (by omega)
    have hrest : DefinedFrom s (gridAddr (k + 1)) (24 * n) := fun i hi => by
      have := h (24 + i) (by omega)
      rwa [← Nat.add_assoc] at this
    obtain ⟨ts, hts, hl, he⟩ := ih (k + 1) hrest
    refine ⟨t :: ts, readGridFrom_succ ht hts, by simp [hl], fun i hi => ?_⟩
    cases i with
    | zero => exact ht
    | succ i =>
      rw [show k + (i + 1) = k + 1 + i by omega]
      exact he i (by simpa using hi)

section
variable {s : State}

theorem exec_qmax_raise (h : gridDims (gridNx s) (gridNy s) = false) :
    exec .qmax s = .next (raiseError ⟨.illegalCommand, 7, 0⟩ s) := by
  rw [exec, execQmax, if_pos h]
  rfl

theorem exec_qmax {acs : List Triple} (h : gridDims (gridNx s) (gridNy s) = true)
    (hacs : readGridFrom s 1 (gridCount s - 1) = .ok acs) :
    exec .qmax s = .next (complete
      { s with result := BitVec.ofNat 64 (qmax (drawSite s) acs).1, maxreg := (qmax (drawSite s) acs).2 }) := by
  rw [exec, execQmax, if_neg (by simp [h]), hacs]
  rfl

/-- Completion after the two writes of QMAX (R166). -/
theorem complete_qmax_frame (s : State) (v m : DWord) :
    let t := complete { s with result := v, maxreg := m }
    Ran s t ∧ SameOutputs { s with result := t.result, maxreg := t.maxreg } t ∧ t.mem = s.mem :=
  ⟨(writesOnly_qmax s v m).ran, by simp [SameOutputs], rfl⟩

theorem exec_qdc {v : Triple} (h : readGrid s 0 = .ok v) :
    exec .qdc s = .next (complete { s with result := (qdc (drawSite s) v).setWidth 64 }) := by
  rw [exec, execQdc, h]
  rfl

theorem exec_qac {idx : BitVec 7} {v : Triple} (hidx : idx.toNat ≤ 80) (h : readGrid s idx.toNat = .ok v) :
    exec (.qac idx) s = .next (complete { s with result := BitVec.ofNat 64 (qac (drawSite s) v s.maxreg) }) := by
  rw [exec, execQac, checkIndex_ok (by simpa [indexInRange] using hidx), h]
  rfl

end

end Sys2Proof.Machine

namespace Sys2Proof

open Machine

/-- Settles O29: the fold over the channels, one after the other, keeps the greatest magnitude so far. -/
theorem actualMaxIsTheGreatestMagnitude : Obligations.ActualMaxIsTheGreatestMagnitude := by
  intro acs
  obtain ⟨-, hch, hatt⟩ := actualMax_isGreatest acs
  refine ⟨fun t ht c hc => hch c (mem_channels.mpr ⟨t, ht, hc⟩), hatt.imp_right ?_⟩
  rintro ⟨c, hc, hm⟩
  obtain ⟨t, ht, htc⟩ := mem_channels.mp hc
  exact ⟨t, ht, c, htc, hm⟩

/-- Settles O30: a 1×1 grid has no AC entry to read, any other has the entries from GRID[1] on. -/
theorem qmaxQuantizesTheMaximum : Obligations.QmaxQuantizesTheMaximum := by
  refine ⟨rfl, fun s h => ⟨_, exec_qmax_raise h, raiseError_failedOnly ⟨.illegalCommand, 7, 0⟩ s⟩,
    fun s hx hy => ?_, fun s h hn hdef => ?_⟩
  · have hcount : gridCount s - 1 = 0 := by simp [gridCount, gridNx, gridNy, hx, hy]
    have hread : readGridFrom s 1 (gridCount s - 1) = .ok [] := by rw [hcount, readGridFrom]
    obtain ⟨hran, hout, hmem⟩ := complete_qmax_frame s 0 c1
    exact ⟨_, exec_qmax (by simp [gridNx, gridNy, hx, hy, gridDims]) hread, hran, rfl, rfl, hout, hmem⟩
  · obtain ⟨acs, hread, hl, he⟩ := readGridFrom_entries s 1 (gridCount s - 1) hdef
    have hne : acs ≠ [] := by
      rintro rfl
      simp only [gridCount, gridNx, gridNy, List.length_nil] at hl
      omega
    obtain ⟨hran, hout, hmem⟩ :=
      complete_qmax_frame s (BitVec.ofNat 64 (qmax (drawSite s) acs).1) (qmax (drawSite s) acs).2
    have hresult : (BitVec.ofNat 64 (qmax (drawSite s) acs).1).toNat = questionedMax (actualMax acs) := by
      have := questionedMax_le (actualMax acs)
      rw [qmax_of_ne_nil _ hne, BitVec.toNat_ofNat, Nat.mod_eq_of_lt (by omega)]
    refine ⟨_, acs, exec_qmax h hread, hran, hl, fun k hk => Nat.add_comm 1 k ▸ he k hk, hresult, ?_, hout, hmem⟩
    rw [complete_result, complete_maxreg, hresult, qmax_of_ne_nil _ hne]

/-- Settles O31: three bytes side by side, R the highest. -/
theorem qdcPacksTheDcBytes : Obligations.QdcPacksTheDcBytes := by
  refine ⟨rfl, fun s hdef => ?_⟩
  obtain ⟨v, hv⟩ := readGrid_defined s 0 hdef
  obtain ⟨hran, hout, hmem⟩ := complete_setResult_frame s ((qdc (drawSite s) v).setWidth 64)
  refine ⟨_, v, exec_qdc hv, hran, hv, ?_, hout, hmem⟩
  rw [complete_result, BitVec.toNat_setWidth_of_le (by decide), qdc_toNat]

/-- Settles O32: three digits of at most 18 each, in base 19, after the check of the index. -/
theorem qacPacksTheQuantizedChannels : Obligations.QacPacksTheQuantizedChannels := by
  intro s idx
  refine ⟨by simp [encode, packFields_toNat], fun hidx hdef => ?_, fun hidx =>
    ⟨_, exec_index_raise s (.inl rfl) (checkIndex_range hidx), raiseError_failedOnly ⟨.illegalCommand, 6, 0⟩ s⟩⟩
  obtain ⟨v, hv⟩ := readGrid_defined s idx.toNat hdef
  obtain ⟨hran, hout, hmem⟩ := complete_setResult_frame s (BitVec.ofNat 64 (qac (drawSite s) v s.maxreg))
  have hle := qac_le (drawSite s) v s.maxreg
  have hresult : (BitVec.ofNat 64 (qac (drawSite s) v s.maxreg)).toNat = qac (drawSite s) v s.maxreg := by
    rw [BitVec.toNat_ofNat, Nat.mod_eq_of_lt (by omega)]
  exact ⟨_, v, exec_qac hidx hv, hran, hv, hresult.trans (qac_eq_quotientDigits _ v s.maxreg), hresult.trans_le hle,
    hout, hmem⟩

end Sys2Proof
end

section
/-! SUPPORT. The checks of the encoder (spec/43_encoder.md R164), which DCTF and ENCODE make before anything else. -/

namespace Sys2Proof.Machine

theorem encDims_iff (nx ny : Nat) : encDims nx ny = true ↔ 1 ≤ nx ∧ nx ≤ 9 ∧ 1 ≤ ny ∧ ny ≤ 9 := by
  simp [encDims, and_assoc]

/-- What the checks ask for: a grid, an image of its size, that PIXMEM holds, and that has a pixel. -/
structure Encodable (s : State) : Prop where
  dims : encDims (gridNx s) (gridNy s) = true
  size : s.pixlen.toNat = pixelCount s * 4
  fits : s.pixlen.toNat ≤ pixmemBytes
  nonempty : pixelCount s ≠ 0

section
variable {s : State}

/-! ## The checks in their order -/

theorem encCheck_range (h : encDims (gridNx s) (gridNy s) ≠ true) : encCheck s = raiseErr .rangeError 0 0 := by
  rw [encCheck, if_pos (by simpa using h)]

theorem encCheck_size (hd : encDims (gridNx s) (gridNy s) = true) (h : s.pixlen.toNat ≠ pixelCount s * 4) :
    encCheck s = raiseErr .sizeMismatch 0 0 := by
  rw [encCheck, if_neg (by simp [hd]), if_pos h]

theorem encCheck_capacity (hd : encDims (gridNx s) (gridNy s) = true) (hs : s.pixlen.toNat = pixelCount s * 4)
    (h : pixmemBytes < s.pixlen.toNat) : encCheck s = raiseErr .capacityError 0 0 := by
  rw [encCheck, if_neg (by simp [hd]), if_neg (not_not.mpr hs), if_pos (by simpa [exceedsPixmem] using h)]

theorem encCheck_past_capacity (hd : encDims (gridNx s) (gridNy s) = true) (hs : s.pixlen.toNat = pixelCount s * 4)
    (hf : s.pixlen.toNat ≤ pixmemBytes) :
    encCheck s = if pixelCount s = 0 then raiseErr .emptyImage 0 0 else .ok () := by
  rw [encCheck, if_neg (by simp [hd]), if_neg (not_not.mpr hs), if_neg (by simpa [exceedsPixmem] using hf)]

theorem encCheck_empty (hd : encDims (gridNx s) (gridNy s) = true) (hs : s.pixlen.toNat = pixelCount s * 4)
    (hf : s.pixlen.toNat ≤ pixmemBytes) (h : pixelCount s = 0) : encCheck s = raiseErr .emptyImage 0 0 := by
  rw [encCheck_past_capacity hd hs hf, if_pos h]

theorem encCheck_ok (h : Encodable s) : encCheck s = .ok () := by
  rw [encCheck_past_capacity h.dims h.size h.fits, if_neg h.nonempty]

theorem encodable_of_encCheck (h : encCheck s = .ok ()) : Encodable s := by
  have hd : encDims (gridNx s) (gridNy s) = true := by
    by_contra hn
    simp [encCheck_range hn, raiseErr] at h
  have hs : s.pixlen.toNat = pixelCount s * 4 := by
    by_contra hn
    simp [encCheck_size hd hn, raiseErr] at h
  have hf : s.pixlen.toNat ≤ pixmemBytes := by
    by_contra hn
    simp [encCheck_capacity hd hs (Nat.not_le.mp hn), raiseErr] at h
  refine ⟨hd, hs, hf, fun hn => ?_⟩
  simp [encCheck_empty hd hs hf hn, raiseErr] at h

/-! ## What passing them bounds -/

/-- An image that PIXMEM holds has fewer than 2^30 pixels (R7). -/
theorem Encodable.pixelCount_bounds (h : Encodable s) :
    1 ≤ pixelCount s ∧ pixelCount s * 4 ≤ pixmemBytes ∧ pixelCount s < 2 ^ 30 := by
  obtain ⟨-, hs, hf, hne⟩ := h
  obtain ⟨-, hmax, -⟩ := pixmemBytes_legal
  omega

theorem Encodable.gridCount_bounds (h : Encodable s) : 1 ≤ gridCount s ∧ gridCount s ≤ 81 := by
  obtain ⟨hx, -, hy, -⟩ := (encDims_iff _ _).mp h.dims
  exact ⟨Nat.mul_pos hx hy, gridCount_le h.dims⟩

end

/-- A failed check ends either command with its error and nothing else (R235). -/
theorem exec_encoder_failedOnly {i : Instr} {s : State} {code : ErrCode} (hi : i = .dctf ∨ i = .encode)
    (h : encCheck s = raiseErr code 0 0) :
    ∃ t, exec i s = .next t ∧ FailedOnly s t (errCodeBits code) 0 0 := by
  refine ⟨_, ?_, raiseError_failedOnly ⟨code, 0, 0⟩ s⟩
  rcases hi with rfl | rfl
  · rw [exec, execDctf, h]; rfl
  · rw [exec, execEncode, h]; rfl

end Sys2Proof.Machine

namespace Sys2Proof

open Machine

/-- Settles O36, check by check. -/
theorem encoderChecksFailInOrder : Obligations.EncoderChecksFailInOrder := by
  intro s i hi
  dsimp only
  rw [← encDims_iff]
  exact ⟨fun hd => exec_encoder_failedOnly hi (encCheck_range hd),
    fun hd hs => exec_encoder_failedOnly hi (encCheck_size hd hs),
    fun hd hs hf => exec_encoder_failedOnly hi (encCheck_capacity hd hs hf),
    fun hd hs hf he => exec_encoder_failedOnly hi (encCheck_empty hd hs hf he),
    fun hd hs hf hne => Encodable.pixelCount_bounds ⟨hd, hs, hf, hne⟩⟩

end Sys2Proof
end

section
/-! SUPPORT. The forward transform: the model's sums over one run of pixels are the nested loops of
spec/43_encoder.md R160. -/

namespace Sys2Proof.Machine

/-! ## Rows and columns -/

/-- Counting through h rows of w columns. -/
theorem range_mul_eq_flatMap (h w : Nat) :
    List.range (h * w) = (List.range h).flatMap fun y => (List.range w).map fun x => y * w + x := by
  induction h with
  | zero => simp
  | succ h ih => rw [Nat.succ_mul, List.range_add, ih, List.range_succ, List.flatMap_append, List.flatMap_singleton]

theorem row_div {w x : Nat} (y : Nat) (h : x < w) : (y * w + x) / w = y := by
  rw [Nat.mul_comm, Nat.mul_add_div (by omega), Nat.div_eq_of_lt h, Nat.add_zero]

theorem column_mod {w x : Nat} (y : Nat) (h : x < w) : (y * w + x) % w = x := by
  rw [Nat.mul_comm, Nat.mul_add_mod, Nat.mod_eq_of_lt h]

/-- A fold over h·w elements in turn is one over rows, outer, and columns, inner. -/
theorem foldl_range_mul {α : Type} (f : α → Nat → Nat → Nat → α) (h w : Nat) (acc : α) :
    (List.range (h * w)).foldl (fun acc q => f acc q (q % w) (q / w)) acc =
      (List.range h).foldl (fun acc y => (List.range w).foldl (fun acc x => f acc (y * w + x) x y) acc) acc := by
  rw [range_mul_eq_flatMap, List.foldl_flatMap]
  refine List.foldl_ext _ _ _ fun acc y _ => ?_
  rw [List.foldl_map]
  refine List.foldl_ext _ _ _ fun acc x hx => ?_
  rw [row_div y (List.mem_range.mp hx), column_mod y (List.mem_range.mp hx)]

/-! ## The pixels -/

/-- The colour bytes of pixel q, where they have been written (spec/20_memory.md R65). -/
def rgbAt (s : State) (q : Nat) : Rgb := ⟨pixByte s (4 * q), pixByte s (4 * q + 1), pixByte s (4 * q + 2)⟩

/-- The colour bytes of the image, row by row. -/
def imageColours (s : State) : List Rgb := (List.range (pixelCount s)).map (rgbAt s)

theorem readPix_defined {s : State} {a : Nat} (h : Defined s (pixBase + a)) : readPix s a = .ok (pixByte s a) := by
  obtain ⟨b, hb⟩ := Option.isSome_iff_exists.mp h
  rw [readPix, pixByte, hb, Option.getD_some]

theorem readRgb_eq {s : State} {q : Nat} (h : DefinedFrom s (pixBase + 4 * q) 3) : readRgb s q = .ok (rgbAt s q) := by
  have hbyte (j : Nat) (hj : j < 3) : readPix s (4 * q + j) = .ok (pixByte s (4 * q + j)) :=
    readPix_defined (by simpa [Nat.add_assoc] using h j hj)
  rw [readRgb, ← Nat.add_zero (4 * q), hbyte 0 (by decide), hbyte 1 (by decide), hbyte 2 (by decide)]
  rfl

theorem readRgbFrom_eq {s : State} {q count : Nat} (h : ∀ i < count, DefinedFrom s (pixBase + 4 * (q + i)) 3) :
    readRgbFrom s q count = .ok ((List.range' q count).map (rgbAt s)) := by
  induction count generalizing q with
  | zero => rfl
  | succ n ih =>
    have hrest (i : Nat) (hi : i < n) : DefinedFrom s (pixBase + 4 * (q + 1 + i)) 3 := by
      rw [Nat.add_assoc, Nat.add_comm 1]
      exact h (i + 1) (by omega)
    have hfirst : readRgb s q = .ok (rgbAt s q) := readRgb_eq (h 0 (by omega))
    simp only [readRgbFrom, hfirst, ih hrest]
    rfl

theorem readRgbFrom_image {s : State} (h : ColoursDefined s (pixelCount s)) :
    readRgbFrom s 0 (pixelCount s) = .ok (imageColours s) := by
  rw [imageColours, List.range_eq_range']
  exact readRgbFrom_eq fun i hi => by simpa using h i hi

/-! ## The sums -/

/-- Adds the pixel of number q, at column x and row y, to the sums of frequency (i, j). -/
def addPixel (d : Site) (w h i j : Nat) (acc : Triple) (q x y : Nat) (p : Rgb) : Triple :=
  let e := q :: d
  addWeighted (3 :: e) acc (basis (0 :: e) (angle (1 :: e) i x w) (angle (2 :: e) j y h)) (s2lTriple (4 :: e) p)

theorem dctfSum_cons (d : Site) (w h i j q : Nat) (p : Rgb) (ps : List Rgb) (acc : Triple) :
    dctfSum d w h i j q (p :: ps) acc =
      dctfSum d w h i j (q + 1) ps (addPixel d w h i j acc q (q % w) (q / w) p) := rfl

theorem dctfSum_eq_foldl (d : Site) (w h i j : Nat) (pixel : Nat → Rgb) (q n : Nat) (acc : Triple) :
    dctfSum d w h i j q ((List.range' q n).map pixel) acc =
      (List.range' q n).foldl (fun acc q => addPixel d w h i j acc q (q % w) (q / w) (pixel q)) acc := by
  induction n generalizing q acc with
  | zero => rfl
  | succ n ih =>
    rw [List.range'_succ, List.map_cons, List.foldl_cons, dctfSum_cons]
    exact ih _ _

theorem dctfSum_eq_loops (d : Site) (w h i j : Nat) (pixel : Nat → Rgb) (acc : Triple) :
    dctfSum d w h i j 0 ((List.range (w * h)).map pixel) acc =
      (List.range h).foldl (fun acc y => (List.range w).foldl (fun acc x =>
        addPixel d w h i j acc (y * w + x) x y (pixel (y * w + x))) acc) acc := by
  rw [List.range_eq_range', dctfSum_eq_foldl, ← List.range_eq_range', Nat.mul_comm w h]
  exact foldl_range_mul (fun acc q x y => addPixel d w h i j acc q x y (pixel q)) h w acc

/-! ## The entries -/

/-- Entry i + j·NX is that of R160's loops. -/
theorem dctfEntry_eq_loops (d : Site) (s : State) {i : Nat} (j : Nat) (hi : i < gridNx s) :
    dctfEntry d (imageW s) (imageH s) (gridNx s) (imageColours s) (j * gridNx s + i) =
      dctfLoops d s i j := by
  have hzero : (i + j * gridNx s = 0) = (i = 0 ∧ j = 0) := by
    have hx : gridNx s ≠ 0 := by omega
    simp [hx]
  simp only [dctfEntry, dctfScale, row_div j hi, column_mod j hi, imageColours, pixelCount, dctfSum_eq_loops]
  simp only [Nat.add_comm (j * gridNx s) i, hzero]
  rfl

theorem dctfEntries_eq_dctfGrid (d : Site) (s : State) :
    dctfEntries d (imageW s) (imageH s) (gridNx s) (imageColours s) 0 (gridCount s) =
      dctfGrid d s := by
  rw [dctfEntries, ← List.range_eq_range', gridCount, Nat.mul_comm, range_mul_eq_flatMap, List.map_flatMap, dctfGrid]
  refine List.flatMap_congr fun j _ => ?_
  rw [List.map_map]
  exact List.map_congr_left fun i hi => dctfEntry_eq_loops d s j (List.mem_range.mp hi)

/-! ## DCTF (R165) -/

theorem exec_dctf {s : State} {ps : List Rgb} (h : Encodable s) (hps : readRgbFrom s 0 (pixelCount s) = .ok ps) :
    exec .dctf s = .next (complete (writeGrid s 0
      (dctfEntries (drawSite s) (imageW s) (imageH s) (gridNx s) ps 0 (gridCount s)))) := by
  rw [exec, execDctf, encCheck_ok h, hps]
  rfl

theorem holdsFrom_writeGrid (s : State) (k : Nat) (ts : List Triple) :
    HoldsFrom (writeGrid s k ts).mem (gridAddr k) (ts.flatMap tripleBytes) :=
  read_writeBytes_inside _ s.mem (gridAddr k)

end Sys2Proof.Machine

namespace Sys2Proof

open Machine

/-- Settles O37: the entries of the transform are those of the loops, written one after the other. -/
theorem dctfWritesTheForwardTransform : Obligations.DctfWritesTheForwardTransform := by
  refine ⟨rfl, fun s hd hs hf hne hcol => ?_⟩
  have henc : Encodable s := ⟨hd, hs, hf, hne⟩
  have hx := exec_dctf henc (readRgbFrom_image hcol)
  have hlen : (dctfGrid (drawSite s) s).length = gridCount s := by
    rw [← dctfEntries_eq_dctfGrid, dctfEntries_length]
  rw [dctfEntries_eq_dctfGrid] at hx
  have hwrites := (WritesOnly.refl .dctf s).writeGrid rfl (k := 0) (ts := dctfGrid (drawSite s) s)
    (by simpa [hlen] using henc.gridCount_bounds.2)
  refine ⟨_, hx, hwrites.ran, by simp [SameOutputs], holdsFrom_writeGrid s 0 _, fun x hout => ?_⟩
  refine read_writeBytes_outside _ s.mem _ x ?_
  rw [flatMap_tripleBytes_length, hlen]
  exact hout

end Sys2Proof
end

section
/-! SUPPORT. What ENCODE writes (spec/43_encoder.md R169), and that it depends on the image and its grid alone
(R170, item 5). -/

namespace Sys2Proof.Machine

/-! ## The hash, at no site of its own (U7) -/

theorem qmax_site (d : Site) (acs : List Triple) : qmax d acs = qmax [] acs := by
  by_cases h : acs = []
  · rw [h, qmax_nil, qmax_nil]
  · rw [qmax_of_ne_nil d h, qmax_of_ne_nil [] h]

/-- The quantized maximum and its scale by the number n of terms: a grid of one term has no AC term (R161). -/
theorem qmax_eq_ite (d : Site) {acs : List Triple} {n : Nat} (h : acs.length + 1 = n) :
    qmax d acs = (if n = 1 then 0 else questionedMax (actualMax acs),
      if n = 1 then c1 else fdiv [] (fofNat (questionedMax (actualMax acs) + 1)) c166) := by
  cases acs with
  | nil => subst h; rfl
  | cons t ts =>
    have hn : n ≠ 1 := by
      rw [← h, List.length_cons]
      omega
    rw [qmax_of_ne_nil d (List.cons_ne_nil t ts), if_neg hn, if_neg hn]

theorem acChars_eq_flatMap (d : Site) (m : F64) (k : Nat) (acs : List Triple) :
    acChars d m k acs = acs.flatMap fun t => b83Encode (qac [] t m) 2 := by
  induction acs generalizing k with
  | nil => rfl
  | cons t ts ih => rw [acChars, ih, List.flatMap_cons, qac_same _ [] (.rfl t) (.rfl m)]

/-- The four parts of a hash (R169). -/
theorem hashChars_eq (d : Site) (nx ny : Nat) (dc : Triple) (acs : List Triple) :
    hashChars d nx ny dc acs = b83Encode ((nx - 1) + (ny - 1) * 9) 1 ++ b83Encode (qmax [] acs).1 1 ++
      b83Encode (qdc [] dc).toNat 4 ++ acs.flatMap fun t => b83Encode (qac [] t (qmax [] acs).2) 2 := by
  simp only [hashChars, acChars_eq_flatMap, qmax_site _ acs, qdc_same _ [] (.rfl dc)]

/-! ## The writes -/

/-- The DC term that ENCODE computes of the pixels `ps`. -/
def encodedDc (s : State) (ps : List Rgb) : Triple :=
  dctfEntry (0 :: drawSite s) (imageW s) (imageH s) (gridNx s) ps 0

/-- The AC terms. -/
def encodedAcs (s : State) (ps : List Rgb) : List Triple :=
  dctfEntries (0 :: drawSite s) (imageW s) (imageH s) (gridNx s) ps 1 (gridCount s - 1)

/-- The characters of the hash. -/
def encodedHash (s : State) (ps : List Rgb) : List Byte :=
  hashChars (1 :: drawSite s) (gridNx s) (gridNy s) (encodedDc s ps) (encodedAcs s ps)

/-- The bytes of the grid. -/
def encodedGrid (s : State) (ps : List Rgb) : List Byte :=
  (encodedDc s ps :: encodedAcs s ps).flatMap tripleBytes

theorem encodeWrites_hashlen (s : State) (ps : List Rgb) :
    (encodeWrites s ps).hashlen = BitVec.ofNat 16 (4 + 2 * gridCount s) := rfl

theorem encodeWrites_maxreg (s : State) (ps : List Rgb) :
    (encodeWrites s ps).maxreg = (qmax [] (encodedAcs s ps)).2 :=
  congrArg Prod.snd (qmax_site _ _)

theorem encodeWrites_mem (s : State) (ps : List Rgb) :
    (encodeWrites s ps).mem =
      Memory.writeBytes (Memory.writeBytes s.mem 0x100 (encodedHash s ps)) 0x800 (encodedGrid s ps) := by
  simp only [encodeWrites, writeGrid_mem, writeHash_mem, gridAddr, hashBase, gridBase, Nat.add_zero, Nat.mul_zero,
    encodedHash, encodedGrid, encodedDc, encodedAcs]

theorem encodedAcs_length (s : State) (ps : List Rgb) : (encodedAcs s ps).length = gridCount s - 1 :=
  dctfEntries_length ..

/-- DC and AC terms are the whole transform. -/
theorem encodedDc_cons_encodedAcs {s : State} (ps : List Rgb) (h : 1 ≤ gridCount s) :
    encodedDc s ps :: encodedAcs s ps =
      dctfEntries (0 :: drawSite s) (imageW s) (imageH s) (gridNx s) ps 0 (gridCount s) := by
  obtain ⟨n, hn⟩ := Nat.exists_eq_add_of_le' h
  rw [encodedDc, encodedAcs, hn, dctfEntries, dctfEntries, List.range'_succ, List.map_cons]
  rfl

theorem encodeWrites_holdsGrid (s : State) (ps : List Rgb) :
    HoldsFrom (encodeWrites s ps).mem 0x800 (encodedGrid s ps) := by
  rw [encodeWrites_mem]
  exact read_writeBytes_inside _ _ _

section
variable {s : State} (h : Encodable s) (ps : List Rgb)
include h

theorem encodedHash_length : (encodedHash s ps).length = 4 + 2 * gridCount s := by
  have := h.gridCount_bounds
  rw [encodedHash, hashChars_length, encodedAcs_length]
  omega

theorem encodedGrid_length : (encodedGrid s ps).length = 24 * gridCount s := by
  have := h.gridCount_bounds
  rw [encodedGrid, flatMap_tripleBytes_length, List.length_cons, encodedAcs_length]
  omega

theorem encodeWrites_hashlen_toNat : (encodeWrites s ps).hashlen.toNat = 4 + 2 * gridCount s := by
  have := h.gridCount_bounds
  rw [encodeWrites_hashlen, BitVec.toNat_ofNat, Nat.mod_eq_of_lt (by omega)]

/-- At most 166 characters stand in HASHMEM, below the grid. -/
theorem encodeWrites_holdsHash : HoldsFrom (encodeWrites s ps).mem 0x100 (encodedHash s ps) := by
  intro i hi
  have hlen := encodedHash_length h ps
  have := h.gridCount_bounds
  rw [encodeWrites_mem, read_writeBytes_outside _ _ _ _ (by omega), read_writeBytes_inside _ _ _ _ hi]

theorem encodeWrites_frame {x : Nat} (hhash : ¬ (0x100 ≤ x ∧ x < 0x100 + (4 + 2 * gridCount s)))
    (hgrid : ¬ (0x800 ≤ x ∧ x < 0x800 + 24 * gridCount s)) :
    Memory.read (encodeWrites s ps).mem x = Memory.read s.mem x := by
  rw [encodeWrites_mem, read_writeBytes_outside _ _ _ _ (by rw [encodedGrid_length h]; omega),
    read_writeBytes_outside _ _ _ _ (by rw [encodedHash_length h]; omega)]

end

/-! ## The command -/

theorem exec_encode {s : State} {ps : List Rgb} (h : Encodable s) (hps : readRgbFrom s 0 (pixelCount s) = .ok ps) :
    exec .encode s = .next (complete (encodeWrites s ps)) := by
  rw [exec, execEncode, encCheck_ok h, hps]
  rfl

/-- No error is recorded as success (R231). -/
theorem errCodeBits_ne_zero (c : ErrCode) : errCodeBits c ≠ 0 := by
  cases c <;> decide

/-- ENCODE succeeds only past its checks and with its pixels read. -/
theorem exec_encode_success {s t : State} (h : exec .encode s = .next t) (h0 : t.errcode = 0) :
    Encodable s ∧ ∃ ps, readRgbFrom s 0 (pixelCount s) = .ok ps ∧ t = complete (encodeWrites s ps) := by
  rcases (commit_next_iff s t _).mp h with ⟨u, hu, rfl⟩ | ⟨e, -, rfl⟩
  · cases hc : encCheck s with
    | error e => simp [hc, bind, Except.bind] at hu
    | ok _ =>
      cases hps : readRgbFrom s 0 (pixelCount s) with
      | error e => simp [hc, hps, bind, Except.bind] at hu
      | ok ps =>
        simp only [hc, hps, bind, Except.bind, pure, Except.pure, Except.ok.injEq] at hu
        exact ⟨encodable_of_encCheck hc, ps, rfl, by rw [hu]⟩
  · exact absurd h0 (errCodeBits_ne_zero e.code)

/-! ## What ENCODE reads -/

/-- Two states have the same image, grid and draw number; alpha is not compared (R160). -/
structure SameImage (s s' : State) : Prop where
  width : s'.width = s.width
  height : s'.height = s.height
  dimNx : s'.dimNx = s.dimNx
  dimNy : s'.dimNy = s.dimNy
  pixlen : s'.pixlen = s.pixlen
  draws : s'.draws = s.draws
  colours : ∀ a < pixelCount s * 4, a % 4 ≠ 3 → Memory.read s'.mem (pixBase + a) = Memory.read s.mem (pixBase + a)

section
variable {s s' : State} (h : SameImage s s')
include h

theorem SameImage.registers :
    imageW s' = imageW s ∧ imageH s' = imageH s ∧ gridNx s' = gridNx s ∧ gridNy s' = gridNy s ∧
      drawSite s' = drawSite s := by
  simp [imageW, imageH, gridNx, gridNy, drawSite, h.width, h.height, h.dimNx, h.dimNy, h.draws]

theorem SameImage.pixelCount_eq : pixelCount s' = pixelCount s := by
  obtain ⟨hw, hh, -⟩ := h.registers
  rw [pixelCount, hw, hh, pixelCount]

theorem SameImage.gridCount_eq : gridCount s' = gridCount s := by
  obtain ⟨-, -, hx, hy, -⟩ := h.registers
  rw [gridCount, hx, hy, gridCount]

theorem SameImage.encodable (he : Encodable s) : Encodable s' := by
  obtain ⟨hd, hs, hf, hne⟩ := he
  obtain ⟨-, -, hx, hy, -⟩ := h.registers
  exact ⟨by rwa [hx, hy], by rwa [h.pixlen, h.pixelCount_eq], by rwa [h.pixlen], by rwa [h.pixelCount_eq]⟩

theorem SameImage.readPix_eq {a : Nat} (ha : a < pixelCount s * 4) (halpha : a % 4 ≠ 3) :
    readPix s' a = readPix s a := by
  rw [readPix, h.colours a ha halpha, readPix]

theorem SameImage.readRgbFrom_eq {q count : Nat} (hq : q + count ≤ pixelCount s) :
    readRgbFrom s' q count = readRgbFrom s q count := by
  induction count generalizing q with
  | zero => rfl
  | succ n ih =>
    have hfirst : readRgb s' q = readRgb s q := by
      simp only [readRgb]
      rw [h.readPix_eq (by omega) (by omega), h.readPix_eq (by omega) (by omega), h.readPix_eq (by omega) (by omega)]
    rw [readRgbFrom, readRgbFrom, hfirst, ih (by omega)]

theorem SameImage.encoded (ps : List Rgb) :
    encodedAcs s' ps = encodedAcs s ps ∧ encodedHash s' ps = encodedHash s ps ∧
      encodedGrid s' ps = encodedGrid s ps := by
  obtain ⟨hw, hh, hx, hy, hd⟩ := h.registers
  simp only [encodedHash, encodedGrid, encodedDc, encodedAcs, hw, hh, hx, hy, hd, h.gridCount_eq, and_self]

end

/-- Runs of the same bytes at one address read alike. -/
theorem read_eq_of_holdsFrom {m m' : Memory} {a : Nat} {bs : List Byte} (h : HoldsFrom m a bs) (h' : HoldsFrom m' a bs)
    {i : Nat} (hi : i < bs.length) : Memory.read m' (a + i) = Memory.read m (a + i) := by
  rw [h i hi, h' i hi]

end Sys2Proof.Machine

namespace Sys2Proof

open Machine

/-- Settles O41: the terms are those of the loops of R160, and the two runs written lie apart. -/
theorem encodeWritesTheHash : Obligations.EncodeWritesTheHash := by
  refine ⟨rfl, fun s hd hs hf hne hcol => ?_⟩
  have henc : Encodable s := ⟨hd, hs, hf, hne⟩
  obtain ⟨hpos, hmax⟩ := henc.gridCount_bounds
  have hwrites := writesOnly_encodeWrites s (imageColours s) hmax
  have hq := qmax_eq_ite [] (acs := encodedAcs s (imageColours s)) (n := gridCount s)
    (by rw [encodedAcs_length]; omega)
  obtain ⟨hqm, hscale⟩ := Prod.ext_iff.mp hq
  have hhash := encodeWrites_holdsHash henc (imageColours s)
  rw [encodedHash, hashChars_eq, hqm, hscale] at hhash
  obtain ⟨hnx, hny⟩ := hwrites.dims (by decide)
  refine ⟨_, _, _, exec_encode henc (readRgbFrom_image hcol), hwrites.ran,
    (dctfEntries_eq_dctfGrid _ s).symm.trans (encodedDc_cons_encodedAcs (imageColours s) hpos).symm,
    ?_, hnx, hny, hwrites.result (by decide)⟩
  simp only [complete_hashlen, complete_maxreg, complete_mem]
  exact ⟨encodeWrites_hashlen_toNat henc _, (encodeWrites_maxreg s _).trans hscale, hhash, encodeWrites_holdsGrid s _,
    fun x => encodeWrites_frame henc _⟩

/-- Settles O49: the checks, the pixels read and the runs written are functions of the image, the grid and the draw
number. -/
theorem encodeDependsOnlyOnTheImage : Obligations.EncodeDependsOnlyOnTheImage := by
  intro s s' t hw hh hx hy hl hd hcol hexec h0
  have hsame : SameImage s s' := ⟨hw, hh, hx, hy, hl, hd, hcol⟩
  obtain ⟨henc, ps, hps, rfl⟩ := exec_encode_success hexec h0
  have henc' := hsame.encodable henc
  obtain ⟨hacs, hhash, hgrid⟩ := hsame.encoded ps
  have hps' : readRgbFrom s' 0 (pixelCount s') = .ok ps := by
    rw [hsame.pixelCount_eq, hsame.readRgbFrom_eq (by omega), hps]
  refine ⟨_, exec_encode henc' hps', rfl, ?_, ?_, fun p hp => ?_, fun x hlt => ?_⟩
  · rw [complete_hashlen, complete_hashlen, encodeWrites_hashlen, encodeWrites_hashlen, hsame.gridCount_eq]
  · rw [complete_maxreg, complete_maxreg, encodeWrites_maxreg, encodeWrites_maxreg, hacs]
  · rw [complete_hashlen, encodeWrites_hashlen_toNat henc, ← encodedHash_length henc ps] at hp
    rw [complete_mem, complete_mem]
    exact read_eq_of_holdsFrom (encodeWrites_holdsHash henc ps) (hhash ▸ encodeWrites_holdsHash henc' ps) hp
  · rw [complete_mem, complete_mem]
    exact read_eq_of_holdsFrom (encodeWrites_holdsGrid s ps) (hgrid ▸ encodeWrites_holdsGrid s' ps)
      (hlt.trans_eq (encodedGrid_length henc ps).symm)

end Sys2Proof
end

section
/-! SUPPORT. What ENCODE wrote passes the validator (spec/45_validator.md R220) and the decoder's checks
(spec/44_decoder.md R199). -/

namespace Sys2Proof.Machine

/-! ## Hashes that pass the checks -/

section
variable {s : State}

theorem validate_ok (h : HashValid s) : validate s = .ok (hashNx s, hashNy s) := by
  obtain ⟨h6, hdigit, hlen⟩ := h
  obtain ⟨c, hread, hc⟩ := exists_of_hashDigit?_isSome hdigit
  simp only [validate, if_neg (Nat.not_lt.mpr h6), hread, hc, bind, Except.bind]
  exact if_neg (not_not.mpr hlen)

theorem exec_validate (h : HashValid s) : exec .validate s = .next (complete s) := by
  rw [exec, execValidate, validate_ok h]
  rfl

theorem scanHash_digits {p count : Nat} (h : ∀ i < count, (hashDigit? s (p + i)).isSome = true) :
    scanHash s p count = .ok () := by
  induction count generalizing p with
  | zero => rfl
  | succ n ih =>
    obtain ⟨hhead, htail⟩ := digits_head_tail h
    obtain ⟨c, hread, hc⟩ := exists_of_hashDigit?_isSome hhead
    simp only [scanHash, hread, hc, bind, Except.bind]
    exact ih htail

/-- The AC terms from number k on, of a hash whose characters are digits. -/
theorem decodeAcs_digits (d : Site) (m : F64) {k count : Nat}
    (h : ∀ p, p < 4 + 2 * (k + count) → (hashDigit? s p).isSome = true) :
    decodeAcs d s m k count =
      .ok ((List.range' k count).map fun k => dqac (k :: d) (hashField s (4 + 2 * k) 2) m (effectivePunch s)) := by
  induction count generalizing k with
  | zero => rfl
  | succ n ih =>
    have hfield : b83Decode s (4 + 2 * k) 2 = .ok (hashField s (4 + 2 * k) 2) :=
      b83Decode_digits fun i hi => h _ (by omega)
    rw [decodeAcs, hfield, ih fun p hp => h p (by omega), List.range'_succ]
    rfl

theorem dqdc_site (d : Site) (v : DWord) : dqdc d v = dqdc [] v := by
  simp only [dqdc, s2lTriple, s2l_site]

/-- DECODE of a hash that passes the checks, with an image that PIXMEM holds (R199). -/
theorem exec_decode (h : HashDecodable s) (hfit : pixelCount s * 4 ≤ pixmemBytes) :
    exec .decode s = .next (complete
      (decodeWrites s (3 :: drawSite s) (hashNx s, hashNy s) (hashScale s) (hashGrid s))) := by
  have hvalid := validate_ok h.1
  obtain ⟨⟨h6, -, hlen⟩, hdigits⟩ := h
  have hcount : 1 ≤ hashNx s * hashNy s := Nat.mul_pos (Nat.succ_pos _) (Nat.succ_pos _)
  have hscan : scanHash s 1 (s.hashlen.toNat - 1) = .ok () := scanHash_digits fun i hi => hdigits _ (by omega)
  have hfits : exceedsPixmem (pixelCount s * 4) = false := by simpa [exceedsPixmem] using hfit
  have htop : b83Decode s 1 1 = .ok (hashField s 1 1) := b83Decode_digits fun i hi => hdigits _ (by omega)
  have hdc : b83Decode s 2 4 = .ok (hashField s 2 4) := b83Decode_digits fun i hi => hdigits _ (by omega)
  have hscale : dqmax (0 :: drawSite s) (hashField s 1 1) = hashScale s := dqmax_same _ [] _
  have hacs := decodeAcs_digits (2 :: drawSite s) (hashScale s) (k := 1) (count := hashNx s * hashNy s - 1)
    fun p hp => hdigits p (by omega)
  have hgrid : dqdc [] (BitVec.ofNat 64 (hashField s 2 4)) ::
      (List.range' 1 (hashNx s * hashNy s - 1)).map (fun k =>
        dqac (k :: 2 :: drawSite s) (hashField s (4 + 2 * k) 2) (hashScale s) (effectivePunch s)) = hashGrid s := by
    rw [hashGrid, List.range'_eq_map_range, List.map_map]
    refine congrArg _ (List.map_congr_left fun k _ => ?_)
    rw [Function.comp_apply, Nat.add_comm 1 k, show 4 + 2 * (k + 1) = 6 + 2 * k by omega, effectivePunch]
  simp only [exec, execDecode, hvalid, hscan, hfits, htop, hdc, hscale, hacs, dqdc_site _ (BitVec.ofNat _ _),
    hgrid, bind, Except.bind, pure, Except.pure, commit_ok, Bool.false_eq_true, if_false]

end

/-! ## The image's size is the host's (R92) -/

theorem pixelCount_acceptCommand (w : Word) (s : State) : pixelCount (acceptCommand w s) = pixelCount s := rfl

theorem pixelCount_complete (s : State) : pixelCount (complete s) = pixelCount s := rfl

theorem pixelCount_encodeWrites (s : State) (ps : List Rgb) : pixelCount (encodeWrites s ps) = pixelCount s := by
  simp [pixelCount, imageW, imageH, encodeWrites]

/-! ## The characters of an encoded hash -/

/-- The alphabet lists the character. -/
def IsDigit (c : Byte) : Prop := (indexOf c).isSome = true

theorem isDigit_of_mem_b83Encode {c : Byte} {n len : Nat} (h : c ∈ b83Encode n len) : IsDigit c := by
  obtain ⟨p, -, rfl⟩ := List.mem_map.mp h
  rw [IsDigit, indexOf_digitChar (Nat.mod_lt _ (by decide))]
  rfl

theorem isDigit_of_mem_hashChars {c : Byte} {d : Site} {nx ny : Nat} {dc : Triple} {acs : List Triple}
    (h : c ∈ hashChars d nx ny dc acs) : IsDigit c := by
  rw [hashChars_eq] at h
  simp only [List.mem_append, List.mem_flatMap] at h
  rcases h with ((h | h) | h) | ⟨t, -, h⟩ <;> exact isDigit_of_mem_b83Encode h

/-- Characters held from HASH[0] on that the alphabet lists have digits. -/
theorem hashDigit?_isSome_of_holds {s : State} {cs : List Byte} (h : HoldsFrom s.mem hashBase cs)
    (hcs : ∀ c ∈ cs, IsDigit c) {p : Nat} (hp : p < cs.length) : (hashDigit? s p).isSome = true := by
  rw [hashDigit?, h p hp, Option.bind_some]
  exact hcs _ (List.getElem_mem hp)

/-- The size flag declares the grid that it was made of (R169, R190). -/
theorem sizeFlag_of_dims {nx ny : Nat} (h : encDims nx ny = true) :
    ((nx - 1) + (ny - 1) * 9) % 83 % 9 + 1 = nx ∧ ((nx - 1) + (ny - 1) * 9) % 83 / 9 + 1 = ny := by
  obtain ⟨hx, hx', hy, hy'⟩ := (encDims_iff nx ny).mp h
  have hlt : (nx - 1) + (ny - 1) * 9 < 83 := by omega
  rw [Nat.mod_eq_of_lt hlt]
  omega

section
variable {s t : State} {ps : List Rgb} (h : Encodable s) (hmem : t.mem = (encodeWrites s ps).mem)
include h hmem

theorem holdsHash_of_encoded : HoldsFrom t.mem hashBase (encodedHash s ps) := by
  rw [hmem]
  exact encodeWrites_holdsHash h ps

theorem hashDigit_zero_of_encoded : hashDigit t 0 = ((gridNx s - 1) + (gridNy s - 1) * 9) % 83 := by
  have hhash := holdsHash_of_encoded h hmem
  rw [encodedHash, hashChars_eq, List.append_assoc, List.append_assoc, holdsFrom_append] at hhash
  have hdigit := hashDigit?_of_holds (p := 0) hhash.1 (Nat.lt_succ_self 0)
  rw [hashDigit, hdigit, Option.getD_some]
  simp

theorem declaredGrid_of_encoded : hashNx t = gridNx s ∧ hashNy t = gridNy s := by
  rw [hashNx, hashNy, hashDigit_zero_of_encoded h hmem]
  exact sizeFlag_of_dims h.dims

theorem hashDecodable_of_encoded (hlen : t.hashlen = (encodeWrites s ps).hashlen) : HashDecodable t := by
  have hpos := h.gridCount_bounds.1
  have hlength : t.hashlen.toNat = 4 + 2 * gridCount s := by rw [hlen, encodeWrites_hashlen_toNat h]
  obtain ⟨hx, hy⟩ := declaredGrid_of_encoded h hmem
  have hdigits (p : Nat) (hp : p < t.hashlen.toNat) : (hashDigit? t p).isSome = true :=
    hashDigit?_isSome_of_holds (holdsHash_of_encoded h hmem) (fun _ => isDigit_of_mem_hashChars)
      (by rwa [encodedHash_length h, ← hlength])
  exact ⟨⟨by omega, hdigits 0 (by omega), by rw [hx, hy]; exact hlength⟩, hdigits⟩

/-- The decoder takes its grid from the hash (R199). -/
theorem exec_decode_of_encoded (hlen : t.hashlen = (encodeWrites s ps).hashlen)
    (hfit : pixelCount t * 4 ≤ pixmemBytes) :
    ∃ u, exec .decode t = .next u ∧ Succeeded u ∧ u.dimNx = s.dimNx ∧ u.dimNy = s.dimNy := by
  obtain ⟨hx, hy⟩ := declaredGrid_of_encoded h hmem
  refine ⟨_, exec_decode (hashDecodable_of_encoded h hmem hlen) hfit, complete_succeeded _, ?_, ?_⟩
  · rw [complete_dimNx, decodeWrites, hx, gridNx, BitVec.ofNat_toNat, BitVec.setWidth_eq]
  · rw [complete_dimNy, decodeWrites, hy, gridNy, BitVec.ofNat_toNat, BitVec.setWidth_eq]

end

end Sys2Proof.Machine

namespace Sys2Proof

open Machine

/-- Settles O44: the size flag declares the grid that gives the hash its length. -/
theorem encodedHashValidates : Obligations.EncodedHashValidates := by
  intro s t hexec h0
  obtain ⟨henc, ps, -, rfl⟩ := exec_encode_success hexec h0
  have hlen : (complete (encodeWrites s ps)).hashlen.toNat = 4 + 2 * gridCount s := encodeWrites_hashlen_toNat henc ps
  obtain ⟨hpos, hmax⟩ := henc.gridCount_bounds
  refine ⟨hlen, by omega, by omega, _, exec_validate ?_, complete_succeeded _⟩
  exact (hashDecodable_of_encoded henc ((acceptCommand_mem _ _).trans (complete_mem _))
    ((acceptCommand_hashlen _ _).trans (complete_hashlen _))).1

/-- Settles O45: every character is a digit, the size flag declares the grid, and the image fits as it did. -/
theorem encodedHashDecodes : Obligations.EncodedHashDecodes := by
  intro s t hexec h0
  obtain ⟨henc, ps, -, rfl⟩ := exec_encode_success hexec h0
  refine exec_decode_of_encoded henc ((acceptCommand_mem _ _).trans (complete_mem _))
    ((acceptCommand_hashlen _ _).trans (complete_hashlen _)) ?_
  rw [pixelCount_acceptCommand, pixelCount_complete, pixelCount_encodeWrites]
  exact henc.pixelCount_bounds.2.1

end Sys2Proof
end

section
/-! SUPPORT. The DC term (spec/43_encoder.md R160, R170, item 3): the basis of frequency (0, 0) is exactly 1.0, and no
operation of the sum makes a NaN. -/

namespace Sys2Proof.Machine

/-! ## Rounding keeps the order, and what a pattern holds exactly (R9) -/

section
variable {num den n : Nat} (hd : 0 < den)
include hd

theorem roundMag_le_of_le (h : num ≤ magOfBits n * den) : roundMag num den ≤ n := by
  rw [roundMag_eq_min]
  refine (Nat.min_le_right _ _).trans ?_
  by_contra hlt
  have hmag := Nat.mul_lt_mul_of_pos_right (magOfBits_strictMono (Nat.not_le.mp hlt)) hd
  obtain ⟨hle, -⟩ := roundUnbounded_isNearestEven num hd n
  simp only [roundDist_eq] at hle
  omega

theorem le_roundMag_of_le (hn : n ≤ infBits) (h : magOfBits n * den ≤ num) : n ≤ roundMag num den := by
  rw [roundMag_eq_min]
  refine Nat.le_min.mpr ⟨hn, ?_⟩
  by_contra hlt
  have hmag := Nat.mul_lt_mul_of_pos_right (magOfBits_strictMono (Nat.not_le.mp hlt)) hd
  obtain ⟨hle, -⟩ := roundUnbounded_isNearestEven num hd n
  simp only [roundDist_eq] at hle
  omega

theorem roundMag_magOfBits (hn : n ≤ infBits) : roundMag (magOfBits n * den) den = n :=
  Nat.le_antisymm (roundMag_le_of_le hd (Nat.le_refl _)) (le_roundMag_of_le hd hn (Nat.le_refl _))

theorem packFloat_roundMag_zero : packFloat false (roundMag 0 den) = posZero := by
  rw [Nat.le_zero.mp (roundMag_le_of_le hd (n := 0) (Nat.zero_le _))]
  rfl

end

/-! ## Products and quotients by 1.0 and +0.0 -/

theorem fmag_c1 : fmag c1 = 2 ^ 1074 := by decide +kernel

section
variable (d : Site) {x : F64}

theorem fmul_one_left (hx : isFinite x = true) : fmul d c1 x = x := by
  have hs : signXor c1 x = fsign x := by simp [signXor, show fsign c1 = false by decide]
  have hb : roundMag (fmag c1 * fmag x) (2 ^ 1074) = fbits x := by
    rw [fmag_c1, Nat.mul_comm, fmag]
    exact roundMag_magOfBits (by positivity) (Nat.le_of_lt ((isFinite_iff x).mp hx))
  rw [fmul_finite d (by decide) hx, hs, hb]
  exact eq_of_fsign_fbits (fsign_packFloat _ (fbits_lt x)) (fbits_packFloat _ (fbits_lt x))

theorem fmul_zero_left (hx : isFinite x = true) (hs : fsign x = false) : fmul d posZero x = posZero := by
  rw [fmul_finite d (by decide) hx, signXor, hs, show fmag posZero = 0 by decide, Nat.zero_mul]
  exact packFloat_roundMag_zero (by positivity)

theorem fmul_zero_right (hx : isFinite x = true) (hs : fsign x = false) : fmul d x posZero = posZero := by
  rw [fmul_finite d hx (by decide), signXor, hs, show fmag posZero = 0 by decide, Nat.mul_zero]
  exact packFloat_roundMag_zero (by positivity)

theorem fdiv_zero_left (hx : isFinite x = true) (hs : fsign x = false) (hz : isZero x = false) :
    fdiv d posZero x = posZero := by
  have hpos : 0 < fmag x := by
    rw [Nat.pos_iff_ne_zero, Ne, fmag_eq_zero_iff, hz]
    exact Bool.false_ne_true
  rw [fdiv_finite d (by decide) hx hz, signXor, hs, show fmag posZero = 0 by decide, Nat.zero_mul]
  exact packFloat_roundMag_zero hpos

theorem fmul_site {y : F64} (hx : isNaN x = false) (hy : isFinite y = true) (hz : isZero y = false) :
    fmul d x y = fmul [] x y :=
  (fmul_same d [] (.rfl x) (.rfl y)).eq (by simp [isNaN_fmul, hx, hz, isNaN_of_isFinite hy, isInf_of_isFinite hy])

end

/-! ## Positive integers below 2^64, and their reciprocals -/

theorem fbits_fofNat (n : Nat) : fbits (fofNat n) = roundMag (n * 2 ^ 1074) 1 := fbits_packFloat_roundMag _ _ _

theorem fsign_fofNat (n : Nat) : fsign (fofNat n) = false := fsign_packFloat_roundMag _ _ _

theorem fofNat_zero : fofNat 0 = posZero := by
  rw [fofNat, Nat.zero_mul]
  exact packFloat_roundMag_zero Nat.one_pos

/-- The patterns of 1.0 and of 2^64. -/
theorem magOfBits_one_and_two_pow_64 :
    magOfBits (1023 * 2 ^ 52) = 2 ^ 1074 ∧ magOfBits (1087 * 2 ^ 52) = 2 ^ 64 * 2 ^ 1074 := by decide +kernel

theorem fbits_fofNat_le {n : Nat} (h : n < 2 ^ 64) : fbits (fofNat n) ≤ 1087 * 2 ^ 52 := by
  rw [fbits_fofNat]
  refine roundMag_le_of_le Nat.one_pos ?_
  rw [magOfBits_one_and_two_pow_64.2, Nat.mul_one]
  exact Nat.mul_le_mul_right _ (Nat.le_of_lt h)

theorem le_fbits_fofNat {n : Nat} (h : 0 < n) : 1023 * 2 ^ 52 ≤ fbits (fofNat n) := by
  rw [fbits_fofNat]
  refine le_roundMag_of_le Nat.one_pos (by decide) ?_
  rw [magOfBits_one_and_two_pow_64.1, Nat.mul_one]
  exact Nat.le_mul_of_pos_left _ h

theorem isFinite_fofNat {n : Nat} (h : n < 2 ^ 64) : isFinite (fofNat n) = true :=
  (isFinite_iff _).mpr ((fbits_fofNat_le h).trans_lt (by decide))

theorem isZero_fofNat {n : Nat} (h : 0 < n) : isZero (fofNat n) = false := by
  have := le_fbits_fofNat h
  exact beq_eq_false_iff_ne.mpr (by omega)

theorem fmag_fofNat_bounds {n : Nat} (h0 : 0 < n) (h : n < 2 ^ 64) :
    2 ^ 1074 ≤ fmag (fofNat n) ∧ fmag (fofNat n) ≤ 2 ^ 64 * 2 ^ 1074 := by
  rw [← magOfBits_one_and_two_pow_64.2, ← magOfBits_one_and_two_pow_64.1]
  exact ⟨magOfBits_strictMono.monotone (le_fbits_fofNat h0), magOfBits_strictMono.monotone (fbits_fofNat_le h)⟩

/-- 1/n is at most 1.0 and does not round to zero. -/
theorem fbits_reciprocal_bounds (d : Site) {n : Nat} (h0 : 0 < n) (h : n < 2 ^ 64) :
    1 ≤ fbits (fdiv d c1 (fofNat n)) ∧ fbits (fdiv d c1 (fofNat n)) ≤ 1023 * 2 ^ 52 := by
  obtain ⟨hlo, hhi⟩ := fmag_fofNat_bounds h0 h
  have hpos : 0 < fmag (fofNat n) := Nat.lt_of_lt_of_le (by positivity) hlo
  rw [fdiv_finite d (by decide) (isFinite_fofNat h) (isZero_fofNat h0), fbits_packFloat_roundMag, fmag_c1]
  constructor
  · refine le_roundMag_of_le hpos (by decide) ?_
    rw [show magOfBits 1 = 1 from rfl, Nat.one_mul]
    have hpow : 2 ^ 64 ≤ 2 ^ 1074 := Nat.pow_le_pow_right (by decide) (by decide)
    exact hhi.trans (Nat.mul_le_mul_right _ hpow)
  · exact roundMag_le_one hpos (Nat.mul_le_mul_left _ hlo)

theorem isFinite_reciprocal (d : Site) {n : Nat} (h0 : 0 < n) (h : n < 2 ^ 64) :
    isFinite (fdiv d c1 (fofNat n)) = true :=
  (isFinite_iff _).mpr ((fbits_reciprocal_bounds d h0 h).2.trans_lt (by decide))

theorem isZero_reciprocal (d : Site) {n : Nat} (h0 : 0 < n) (h : n < 2 ^ 64) :
    isZero (fdiv d c1 (fofNat n)) = false :=
  beq_eq_false_iff_ne.mpr (Nat.one_le_iff_ne_zero.mp (fbits_reciprocal_bounds d h0 h).1)

/-! ## The basis of frequency (0, 0) -/

theorem angle_zero (d : Site) {b w : Nat} (hb : b < 2 ^ 64) (h0 : 0 < w) (hw : w < 2 ^ 64) :
    angle d 0 b w = posZero := by
  rw [angle, fofNat_zero, fmul_zero_right _ (by decide) (by decide),
    fmul_zero_left _ (isFinite_fofNat hb) (fsign_fofNat b),
    fdiv_zero_left _ (isFinite_fofNat hw) (fsign_fofNat w) (isZero_fofNat h0)]

/-- P1. -/
theorem basis_zero (d : Site) : basis d posZero posZero = c1 :=
  fmul_one_left d (x := c1) (by decide)

/-! ## The plain sum -/

/-- Adds the linear values of a pixel to the sums. -/
def addColours (acc : Triple) (p : Rgb) : Triple :=
  ⟨fadd [] acc.r (s2l [] p.r), fadd [] acc.g (s2l [] p.g), fadd [] acc.b (s2l [] p.b)⟩

/-- No channel is a NaN. -/
def IsNumber (t : Triple) : Prop := isNaN t.r = false ∧ isNaN t.g = false ∧ isNaN t.b = false

theorem isFinite_s2l (b : Byte) : isFinite (s2l [] b) = true := isFinite_of_inUnit (inUnit_s2l [] b)

theorem IsNumber.addColours {acc : Triple} (h : IsNumber acc) (p : Rgb) : IsNumber (addColours acc p) := by
  obtain ⟨hr, hg, hb⟩ := h
  exact ⟨isNaN_fadd_finite [] hr (isFinite_s2l p.r), isNaN_fadd_finite [] hg (isFinite_s2l p.g),
    isNaN_fadd_finite [] hb (isFinite_s2l p.b)⟩

theorem IsNumber.foldl_addColours {acc : Triple} (h : IsNumber acc) (ps : List Rgb) :
    IsNumber (ps.foldl Machine.addColours acc) := by
  induction ps generalizing acc with
  | nil => exact h
  | cons p ps ih => exact ih (h.addColours p)

theorem foldl_addColours_eq (ps : List Rgb) (acc : Triple) :
    ps.foldl addColours acc = ⟨ps.foldl (fun a p => fadd [] a (s2l [] p.r)) acc.r,
      ps.foldl (fun a p => fadd [] a (s2l [] p.g)) acc.g, ps.foldl (fun a p => fadd [] a (s2l [] p.b)) acc.b⟩ := by
  induction ps generalizing acc with
  | nil => rfl
  | cons p ps ih => exact ih (addColours acc p)

/-- A linear value weighted by 1.0 is added as it is. -/
theorem addWeighted_one (d e : Site) {acc : Triple} (h : IsNumber acc) (p : Rgb) :
    addWeighted d acc c1 (s2lTriple e p) = addColours acc p := by
  have hchannel (d e f : Site) {a : F64} (ha : isNaN a = false) (b : Byte) :
      fadd d a (fmul e c1 (s2l f b)) = fadd [] a (s2l [] b) := by
    rw [s2l_site, fmul_one_left e (isFinite_s2l b), fadd_site d ha (isFinite_s2l b)]
  obtain ⟨hr, hg, hb⟩ := h
  simp only [addWeighted, s2lTriple, addColours, hchannel _ _ _ hr, hchannel _ _ _ hg, hchannel _ _ _ hb]

theorem pixels_lt {w h : Nat} (hw : w < 2 ^ 32) (hh : h < 2 ^ 32) : w * h < 2 ^ 64 :=
  (Nat.mul_lt_mul'' hw hh).trans_eq (by decide)

section
variable (d : Site) {w h : Nat} (hw0 : 0 < w) (hh0 : 0 < h) (hw : w < 2 ^ 32) (hh : h < 2 ^ 32)
include hw0 hh0 hw hh

theorem addPixel_dc {q : Nat} (hq : q < w * h) {acc : Triple} (hacc : IsNumber acc) (p : Rgb) :
    addPixel d w h 0 0 acc q (q % w) (q / w) p = addColours acc p := by
  have hlt := hq.trans (pixels_lt hw hh)
  rw [addPixel, angle_zero _ ((Nat.mod_le q w).trans_lt hlt) hw0 (by omega),
    angle_zero _ ((Nat.div_le_self q w).trans_lt hlt) hh0 (by omega), basis_zero, addWeighted_one _ _ hacc]

theorem dctfSum_dc {q : Nat} (ps : List Rgb) (hq : q + ps.length ≤ w * h) {acc : Triple} (hacc : IsNumber acc) :
    dctfSum d w h 0 0 q ps acc = ps.foldl addColours acc := by
  induction ps generalizing q acc with
  | nil => rfl
  | cons p ps ih =>
    rw [List.length_cons] at hq
    rw [dctfSum_cons, addPixel_dc d hw0 hh0 hw hh (by omega) hacc, List.foldl_cons,
      ih (by omega) (hacc.addColours p)]

theorem scaleTriple_reciprocal (e : Site) {t : Triple} (ht : IsNumber t) :
    scaleTriple d t (dctfScale e w h 0) =
      ⟨fmul [] t.r (fdiv [] c1 (fofNat (w * h))), fmul [] t.g (fdiv [] c1 (fofNat (w * h))),
        fmul [] t.b (fdiv [] c1 (fofNat (w * h)))⟩ := by
  have hpos : 0 < w * h := Nat.mul_pos hw0 hh0
  have hlt := pixels_lt hw hh
  have hscale : dctfScale e w h 0 = fdiv [] c1 (fofNat (w * h)) :=
    fdiv_site e (by decide) (isFinite_fofNat hlt) (isZero_fofNat hpos)
  have hfin := isFinite_reciprocal [] hpos hlt
  have hnz := isZero_reciprocal [] hpos hlt
  obtain ⟨hr, hg, hb⟩ := ht
  rw [hscale, scaleTriple, fmul_site _ hr hfin hnz, fmul_site _ hg hfin hnz, fmul_site _ hb hfin hnz]

end

end Sys2Proof.Machine

namespace Sys2Proof

open Machine

/-- Settles O50: each pixel adds its linear values, and the scale is 1/(W·H), neither zero nor infinite. -/
theorem dcTermIsTheMean : Obligations.DcTermIsTheMean := by
  intro d w h nx ps hw0 hh0 hw hh hlen
  have hzero : IsNumber zeroTriple := ⟨by decide, by decide, by decide⟩
  simp only [dctfEntry, Nat.zero_mod, Nat.zero_div]
  rw [dctfSum_dc _ hw0 hh0 hw hh ps (by omega) hzero,
    scaleTriple_reciprocal _ hw0 hh0 hw hh _ (hzero.foldl_addColours ps), foldl_addColours_eq]
  rfl

end Sys2Proof
end

section
/-! SUPPORT. The dequantizer (spec/44_decoder.md R191 to R193) and its commands (R195 to R197). -/

namespace Sys2Proof.Machine

/-! ## A grid entry written is read back (R63) -/

theorem readGrid_eq_ok_iff_holds (s : State) (k : Nat) (v : Triple) :
    readGrid s k = .ok v ↔ HoldsFrom s.mem (gridAddr k) (tripleBytes v) := by
  rw [readGrid_eq_ok_iff, readFloat_eq_ok_iff, readFloat_eq_ok_iff, readFloat_eq_ok_iff, holdsFrom_tripleBytes]

/-- Success after one grid entry written: the entry reads as written, and nothing else changes (R46, R63). -/
theorem complete_writeGrid_entry (s : State) (k : Nat) (v : Triple) :
    let t := complete (writeGrid s k [v])
    SameOutputs s t ∧ SameOutside s.mem t.mem (gridAddr k) 24 ∧ readGrid t k = .ok v := by
  have hmem : (writeGrid s k [v]).mem = Memory.writeBytes s.mem (gridAddr k) (tripleBytes v) := by
    rw [writeGrid_mem, List.flatMap_singleton]
  refine ⟨by simp [SameOutputs], fun x hx => ?_, ?_⟩
  · rw [complete_mem, hmem]
    exact read_writeBytes_outside _ _ _ _ (by rwa [tripleBytes_length])
  · rw [readGrid_eq_ok_iff_holds, complete_mem, hmem]
    exact read_writeBytes_inside _ _ _

/-! ## The values, at no site of their own (U7) -/

theorem isNaN_fofNat (n : Nat) : isNaN (fofNat n) = false := isNaN_packFloat_roundMag _ _ _

/-- The quotient that `dch` raises to the second power is a number (R193). -/
theorem dch_eq (d : Site) (q : Nat) (m : F64) (punch : Nat) :
    dch d q m punch = fmul (3 :: d)
      (fmul (2 :: d) (signPow (fdiv [] (fsub [] (fofNat q) c9) c9) c2) m) (fofNat punch) := by
  have h9 : isFinite (fneg c9) = true := by decide
  have hsub : fsub (0 :: d) (fofNat q) c9 = fsub [] (fofNat q) c9 := fadd_site _ (isNaN_fofNat q) h9
  have hdiv : fdiv (1 :: d) (fsub [] (fofNat q) c9) c9 = fdiv [] (fsub [] (fofNat q) c9) c9 :=
    fdiv_site _ (isNaN_fadd_finite [] (isNaN_fofNat q) h9) (by decide) (by decide)
  rw [dch, hsub, hdiv]

/-- The byte of a word from bit k on (R192). -/
theorem extractLsb'_byte (v : DWord) (k : Nat) : v.extractLsb' k 8 = BitVec.ofNat 8 (v.toNat / 2 ^ k) := by
  rw [BitVec.extractLsb', Nat.shiftRight_eq_div_pow]

theorem dqdc_eq (d : Site) (v : DWord) :
    dqdc d v = ⟨s2l [] (BitVec.ofNat 8 (v.toNat / 2 ^ 16)), s2l [] (BitVec.ofNat 8 (v.toNat / 2 ^ 8)),
      s2l [] (BitVec.ofNat 8 v.toNat)⟩ := by
  rw [dqdc_site, dqdc, s2lTriple, extractLsb'_byte, extractLsb'_byte, extractLsb'_byte, Nat.pow_zero, Nat.div_one,
    s2l_site [0], s2l_site [1], s2l_site [2]]

/-! ## The commands -/

theorem exec_dqdc (s : State) : exec .dqdc s = .next (complete (writeGrid s 0 [dqdc (drawSite s) s.src0])) := rfl

section
variable {s : State}

theorem exec_dqmax (h : s.src0.toNat ≤ 82) :
    exec .dqmax s = .next (complete { s with maxreg := dqmax [] s.src0.toNat }) := by
  rw [exec, execDqmax, if_neg (by omega), dqmax_same (drawSite s) []]
  rfl

theorem exec_dqmax_raise (h : 82 < s.src0.toNat) :
    exec .dqmax s = .next (raiseError ⟨.illegalCommand, 8, 0⟩ s) := by
  rw [exec, execDqmax, if_pos h]
  rfl

variable {idx : BitVec 7} (hidx : idx.toNat ≤ 80)
include hidx

theorem exec_dqac (h : s.src0.toNat ≤ 6888) :
    exec (.dqac idx) s = .next (complete
      (writeGrid s idx.toNat [dqac (drawSite s) s.src0.toNat s.maxreg (effectivePunch s)])) := by
  rw [exec, execDqac, checkIndex_ok (by simpa [indexInRange] using hidx), if_neg (by omega)]
  rfl

theorem exec_dqac_raise (h : 6888 < s.src0.toNat) :
    exec (.dqac idx) s = .next (raiseError ⟨.illegalCommand, 8, 0⟩ s) := by
  rw [exec, execDqac, checkIndex_ok (by simpa [indexInRange] using hidx), if_pos h]
  rfl

end

end Sys2Proof.Machine

namespace Sys2Proof

open Machine

/-- Settles O33: one check, and a quotient by 166 that is the same at every site. -/
theorem dqmaxScalesTheDigit : Obligations.DqmaxScalesTheDigit := by
  refine ⟨rfl, fun s h => ?_,
    fun s h => ⟨_, exec_dqmax_raise h, raiseError_failedOnly ⟨.illegalCommand, 8, 0⟩ s⟩⟩
  exact ⟨_, exec_dqmax h, ((WritesOnly.refl .dqmax s).setMaxreg rfl _).ran, by rw [complete_maxreg, dqmax],
    by simp [SameOutputs], complete_mem _⟩

/-- Settles O34: one grid entry written, of three linear values that show no site. -/
theorem dqdcUnpacksTheDcBytes : Obligations.DqdcUnpacksTheDcBytes := by
  refine ⟨rfl, fun s => ?_⟩
  obtain ⟨hout, hframe, hread⟩ := complete_writeGrid_entry s 0 (dqdc (drawSite s) s.src0)
  exact ⟨_, exec_dqdc s, ((WritesOnly.refl .dqdc s).writeGrid rfl (by simp)).ran, hout, hframe,
    hread.trans (congrArg _ (dqdc_eq _ _))⟩

/-- Settles O35: two checks, and one grid entry written, whose products alone may show a site. -/
theorem dqacUnpacksTheChannels : Obligations.DqacUnpacksTheChannels := by
  intro s idx
  refine ⟨by simp [encode, packFields_toNat], fun hidx hsrc => ?_,
    fun hidx => ⟨_, exec_index_raise s (.inr rfl) (checkIndex_range hidx),
      raiseError_failedOnly ⟨.illegalCommand, 6, 0⟩ s⟩,
    fun hidx hsrc => ⟨_, exec_dqac_raise hidx hsrc, raiseError_failedOnly ⟨.illegalCommand, 8, 0⟩ s⟩⟩
  obtain ⟨hout, hframe, hread⟩ :=
    complete_writeGrid_entry s idx.toNat (dqac (drawSite s) s.src0.toNat s.maxreg (effectivePunch s))
  refine ⟨_, exec_dqac hidx hsrc,
    ((WritesOnly.refl (.dqac idx) s).writeGrid rfl (Nat.succ_le_succ hidx)).ran, hout, hframe, ?_⟩
  rw [hread, dqac, dch_eq, dch_eq, dch_eq]
  rfl

end Sys2Proof
end

section
/-! SUPPORT. The inverse transform: the model's sums over one run of grid entries are the nested loops of
spec/44_decoder.md R194; and DCTI (R198). -/

namespace Sys2Proof.Machine

/-! ## The sums -/

/-- Adds grid entry k, of column i and row j, to the sums at pixel (x, y). -/
def addTerm (d : Site) (w h x y : Nat) (acc : Triple) (k i j : Nat) (t : Triple) : Triple :=
  let e := k :: d
  addWeighted (3 :: e) acc (basis (0 :: e) (angle (1 :: e) x i w) (angle (2 :: e) y j h)) t

theorem dctiSum_cons (d : Site) (w h nx x y k : Nat) (t : Triple) (ts : List Triple) (acc : Triple) :
    dctiSum d w h nx x y k (t :: ts) acc =
      dctiSum d w h nx x y (k + 1) ts (addTerm d w h x y acc k (k % nx) (k / nx) t) := rfl

theorem dctiSum_eq_foldl (d : Site) (w h nx x y : Nat) (entry : Nat → Triple) (k n : Nat) (acc : Triple) :
    dctiSum d w h nx x y k ((List.range' k n).map entry) acc =
      (List.range' k n).foldl (fun acc k => addTerm d w h x y acc k (k % nx) (k / nx) (entry k)) acc := by
  induction n generalizing k acc with
  | zero => rfl
  | succ n ih =>
    rw [List.range'_succ, List.map_cons, List.foldl_cons, dctiSum_cons]
    exact ih _ _

/-- A list is its entries by number. -/
theorem eq_map_getD_range (grid : List Triple) :
    grid = (List.range grid.length).map fun k => grid.getD k zeroTriple := by
  refine List.ext_getElem (by simp) fun k h _ => ?_
  rw [List.getElem_map, List.getElem_range, List.getD_eq_getElem _ _ h]

theorem dctiSum_eq_loops (d : Site) (w h x y : Nat) {nx ny : Nat} {grid : List Triple} (hl : grid.length = nx * ny)
    (acc : Triple) :
    dctiSum d w h nx x y 0 grid acc =
      (List.range ny).foldl (fun acc j => (List.range nx).foldl (fun acc i =>
        addTerm d w h x y acc (j * nx + i) i j (grid.getD (j * nx + i) zeroTriple)) acc) acc := by
  conv_lhs => rw [eq_map_getD_range grid, List.range_eq_range', dctiSum_eq_foldl, ← List.range_eq_range', hl,
    Nat.mul_comm nx ny]
  exact foldl_range_mul (fun acc k i j => addTerm d w h x y acc k i j (grid.getD k zeroTriple)) ny nx acc

/-! ## The image -/

/-- Pixel y·W + x is that of R194's loops. -/
theorem dctiPixel_eq_loops (d : Site) {w : Nat} (h : Nat) {nx ny : Nat} {grid : List Triple}
    (hl : grid.length = nx * ny) {x : Nat} (y : Nat) (hx : x < w) :
    dctiPixel d w h nx grid (y * w + x) = dctiLoops d w h nx ny grid x y := by
  simp only [dctiPixel, row_div y hx, column_mod y hx, dctiSum_eq_loops _ _ _ _ _ hl, Nat.add_comm (_ * nx)]
  rfl

theorem dctiBytes_eq_dctiImage (d : Site) (w h : Nat) {nx ny : Nat} {grid : List Triple}
    (hl : grid.length = nx * ny) : dctiBytes d w h nx grid = dctiImage d w h nx ny grid := by
  rw [dctiBytes, Nat.mul_comm, range_mul_eq_flatMap, List.flatMap_assoc, dctiImage]
  refine List.flatMap_congr fun y _ => ?_
  rw [List.flatMap_map]
  exact List.flatMap_congr fun x hx => dctiPixel_eq_loops d h hl y (List.mem_range.mp hx)

/-! ## DCTI (R198) -/

/-- What the checks ask for: a grid that a hash can declare, and an image that PIXMEM holds. -/
structure Renderable (s : State) : Prop where
  dims : gridDims (gridNx s) (gridNy s) = true
  fits : pixelCount s * 4 ≤ pixmemBytes

section
variable {s : State}

theorem exec_dcti_dims (h : gridDims (gridNx s) (gridNy s) = false) :
    exec .dcti s = .next (raiseError ⟨.illegalCommand, 7, 0⟩ s) := by
  rw [exec, execDcti, if_pos h]
  rfl

theorem exec_dcti_capacity (hd : gridDims (gridNx s) (gridNy s) = true) (h : pixmemBytes < pixelCount s * 4) :
    exec .dcti s = .next (raiseError ⟨.capacityError, 0, 0⟩ s) := by
  rw [exec, execDcti, if_neg (by simp [hd]), if_pos (by simpa [exceedsPixmem] using h)]
  rfl

/-- Past the checks DCTI reads the grid, unless there is no pixel to compute. -/
theorem exec_dcti_past_checks (h : Renderable s) :
    exec .dcti s = commit s (if pixelCount s = 0 then .ok s
      else readGridFrom s 0 (gridCount s) >>= fun grid =>
        .ok (writePix s (dctiBytes (drawSite s) (imageW s) (imageH s) (gridNx s) grid))) := by
  rw [exec, execDcti, if_neg (by simp [h.dims]), if_neg (by simpa [exceedsPixmem] using h.fits)]
  rfl

theorem exec_dcti_empty (h : Renderable s) (h0 : pixelCount s = 0) : exec .dcti s = .next (complete s) := by
  rw [exec_dcti_past_checks h, if_pos h0, commit_ok]

theorem exec_dcti {grid : List Triple} (h : Renderable s) (h0 : pixelCount s ≠ 0)
    (hgrid : readGridFrom s 0 (gridCount s) = .ok grid) :
    exec .dcti s = .next (complete
      (writePix s (dctiBytes (drawSite s) (imageW s) (imageH s) (gridNx s) grid))) := by
  rw [exec_dcti_past_checks h, if_neg h0, hgrid]
  rfl

end

theorem writesOnly_dcti {s : State} (d : Site) (nx : Nat) (grid : List Triple) (h : Renderable s) :
    WritesOnly .dcti s (writePix s (dctiBytes d (imageW s) (imageH s) nx grid)) :=
  (WritesOnly.refl .dcti s).writePix rfl (by simpa [exceedsPixmem, pixelCount] using h.fits)

end Sys2Proof.Machine

namespace Sys2Proof

open Machine

/-- Settles O38: the two checks, the image without a pixel, and the image whose pixels are those of the loops. -/
theorem dctiWritesTheInverseTransform : Obligations.DctiWritesTheInverseTransform := by
  refine ⟨rfl, fun s => ⟨fun hd => ⟨_, exec_dcti_dims hd, raiseError_failedOnly ⟨.illegalCommand, 7, 0⟩ s⟩,
    fun hd hf => ⟨_, exec_dcti_capacity hd hf, raiseError_failedOnly ⟨.capacityError, 0, 0⟩ s⟩,
    fun hd h0 => ?_, fun hd hf h0 hdef => ?_⟩⟩
  · have hr : Renderable s := ⟨hd, by rw [pixelCount, imageW, imageH, h0]; exact Nat.zero_le _⟩
    exact ⟨_, exec_dcti_empty hr h0, (WritesOnly.refl .dcti s).ran, by simp [SameOutputs], complete_mem s⟩
  · have hr : Renderable s := ⟨hd, hf⟩
    obtain ⟨grid, hread, hl, he⟩ := readGridFrom_entries s 0 (gridCount s) hdef
    have hx := exec_dcti hr h0 hread
    have hran := (writesOnly_dcti (drawSite s) (gridNx s) grid hr).ran
    rw [dctiBytes_eq_dctiImage _ _ _ hl] at hx hran
    refine ⟨_, grid, hx, hran, by simp [SameOutputs], hl, fun k hk => by simpa using he k hk,
      read_writeBytes_inside _ s.mem pixBase, fun x hout => ?_⟩
    refine read_writeBytes_outside _ s.mem pixBase x ?_
    rwa [← dctiBytes_eq_dctiImage _ _ _ hl, dctiBytes_length]

end Sys2Proof
end

section
/-! SUPPORT. A one-term grid (spec/44_decoder.md R200, item 5): its basis is exactly 1.0, and a sum of one term shows
the colour of the term. -/

namespace Sys2Proof.Machine

/-! ## Basis arguments are numbers -/

/-- The pattern of 2^k. -/
theorem magOfBits_two_pow (k : Nat) : magOfBits ((1023 + k) * 2 ^ 52) = 2 ^ k * 2 ^ 1074 := by
  have hdiv : (1023 + k) * 2 ^ 52 / 2 ^ 52 = 1023 + k := Nat.mul_div_cancel _ (by decide)
  rw [magOfBits, if_neg (by omega), Nat.mul_mod_left, hdiv, Nat.add_zero, ← Nat.pow_add, ← Nat.pow_add]
  congr 1
  omega

section
variable (d : Site) {a b w : Nat}

/-- π times an integer below 2^64 is below 2^66. -/
theorem isFinite_pi_mul (ha : a < 2 ^ 64) : isFinite (fmul d pi64 (fofNat a)) = true := by
  have hpi : fmag pi64 ≤ 2 ^ 2 * 2 ^ 1074 := by
    rw [← magOfBits_two_pow 2]
    exact magOfBits_strictMono.monotone (by decide)
  have hn : fmag (fofNat a) ≤ 2 ^ 64 * 2 ^ 1074 := by
    rw [← magOfBits_two_pow 64]
    exact magOfBits_strictMono.monotone (fbits_fofNat_le ha)
  have hbound : roundMag (fmag pi64 * fmag (fofNat a)) (2 ^ 1074) ≤ (1023 + 66) * 2 ^ 52 := by
    refine roundMag_le_of_le (Nat.pow_pos Nat.two_pos) ?_
    rw [magOfBits_two_pow 66]
    calc fmag pi64 * fmag (fofNat a) ≤ (2 ^ 2 * 2 ^ 1074) * (2 ^ 64 * 2 ^ 1074) := Nat.mul_le_mul hpi hn
      _ = 2 ^ 66 * 2 ^ 1074 * 2 ^ 1074 := by ring
  rw [isFinite_iff, fmul_finite d (by decide) (isFinite_fofNat ha), fbits_packFloat_roundMag]
  exact hbound.trans_lt (by decide)

theorem fsign_pi_mul (ha : a < 2 ^ 64) : fsign (fmul d pi64 (fofNat a)) = false := by
  rw [fmul_finite d (by decide) (isFinite_fofNat ha), fsign_packFloat_roundMag, signXor, fsign_fofNat]
  decide

/-- Frequency 0 has the argument 0 at every pixel. -/
theorem angle_frequency_zero (ha : a < 2 ^ 64) (h0 : 0 < w) (hw : w < 2 ^ 64) : angle d a 0 w = posZero := by
  rw [angle, fofNat_zero, fmul_zero_right _ (isFinite_pi_mul _ ha) (fsign_pi_mul _ ha),
    fdiv_zero_left _ (isFinite_fofNat hw) (fsign_fofNat w) (isZero_fofNat h0)]

end

/-! ## A sum of one term -/

theorem natAbs_fval (x : F64) : (fval x).natAbs = fmag x := by
  unfold fval
  split <;> simp

theorem fval_neg_eq_fsign {x : F64} (h : fmag x ≠ 0) : decide (fval x < 0) = fsign x := by
  unfold fval
  split
  · next hs => rw [hs, decide_eq_true_eq]; omega
  · next hs => rw [Bool.eq_false_iff.mpr hs, decide_eq_false_iff_not]; omega

theorem zero_fadd (d : Site) {x : F64} (hx : isFinite x = true) (hz : isZero x = false) : fadd d posZero x = x := by
  have hmag : fmag x ≠ 0 := by rw [Ne, fmag_eq_zero_iff, hz]; exact Bool.false_ne_true
  have hsum : fval posZero + fval x = fval x := by rw [show fval posZero = 0 by decide, Int.zero_add]
  have hne : fval x ≠ 0 := by rwa [← Int.natAbs_ne_zero, natAbs_fval]
  have hround : roundMag (fmag x * 1) 1 = fbits x :=
    roundMag_magOfBits Nat.one_pos (Nat.le_of_lt ((isFinite_iff x).mp hx))
  refine eq_of_fsign_fbits ?_ ?_
  · rw [fsign_fadd d (by decide) hx (hsum.trans_ne hne), hsum, fval_neg_eq_fsign hmag]
  · rw [fbits_fadd d (by decide) hx, hsum, natAbs_fval, ← hround, Nat.mul_one]

theorem isFinite_of_not_nan_inf {x : F64} (hn : isNaN x = false) (hi : isInf x = false) : isFinite x = true := by
  rw [isFinite_iff]
  simp only [isNaN, isInf, decide_eq_false_iff_not, beq_eq_false_iff_ne] at hn hi
  omega

theorem packFloat_of_isInf {x : F64} (h : isInf x = true) : packFloat (fsign x) infBits = x :=
  eq_of_fsign_fbits (fsign_packFloat_inf _) ((fbits_packFloat_inf _).trans ((isInf_iff x).mp h).symm)

/-- 1.0 × x is x, of NaN the pattern excepted. -/
theorem one_fmul_same (d : Site) (x : F64) : SameValue (fmul d c1 x) x := by
  cases hn : isNaN x with
  | true => exact .inr ⟨by simp [isNaN_fmul, hn], hn⟩
  | false =>
    refine .inl ?_
    cases hi : isInf x with
    | true =>
      have hs : signXor c1 x = fsign x := by simp [signXor, show fsign c1 = false by decide]
      have hnan : isNaN (fmul d c1 x) = false := by
        simp [isNaN_fmul, hn, show isNaN c1 = false ∧ isInf c1 = false ∧ isZero c1 = false by decide]
      rw [fmul_inf d (.inr hi) hnan, hs, packFloat_of_isInf hi]
    | false => exact fmul_one_left d (isFinite_of_not_nan_inf hn hi)

/-- The byte of +0.0 + x is that of x: only the sign of a zero is lost, which the clamp does not see (R142). -/
theorem l2s_zero_fadd (d e : Site) (x : F64) : l2s d (fadd e posZero x) = l2s [] x := by
  cases hn : isNaN x with
  | true => rw [l2s_nan d (by simp [isNaN_fadd, hn]), l2s_nan [] hn]
  | false =>
    cases hi : isInf x with
    | true =>
      have hnan : isNaN (fadd e posZero x) = false := by
        simp [isNaN_fadd, hn, show isNaN posZero = false ∧ isInf posZero = false by decide]
      rw [fadd_inf_right e hi hnan, l2s_same d [] (.rfl x)]
    | false =>
      have hfin := isFinite_of_not_nan_inf hn hi
      cases hz : isZero x with
      | false => rw [zero_fadd e hfin hz, l2s_same d [] (.rfl x)]
      | true =>
        rw [fadd_site e (by decide) hfin]
        rcases eq_zero_of_isZero hz with rfl | rfl <;>
          rw [l2s_of_le_zero d (by decide +kernel), l2s_of_le_zero [] (by decide)]

theorem l2s_one_term (d e f : Site) (x : F64) : l2s d (fadd e posZero (fmul f c1 x)) = l2s [] x := by
  rw [l2s_zero_fadd, l2s_same [] [] (one_fmul_same f x)]

end Sys2Proof.Machine

namespace Sys2Proof

open Machine

/-- Settles O51: both basis arguments are 0, so that each channel is +0.0 + 1.0 × the DC colour. -/
theorem oneTermGridRendersOneColour : Obligations.OneTermGridRendersOneColour := by
  intro d w h t q hw hh hq
  obtain ⟨hw0, hh0⟩ : 0 < w ∧ 0 < h := CanonicallyOrderedAdd.mul_pos.mp (Nat.zero_lt_of_lt hq)
  have hlt := hq.trans (pixels_lt hw hh)
  simp only [dctiPixel, dctiSum, Nat.zero_mod, Nat.zero_div, addWeighted, zeroTriple,
    angle_frequency_zero _ ((Nat.mod_le q w).trans_lt hlt) hw0 (by omega),
    angle_frequency_zero _ ((Nat.div_le_self q w).trans_lt hlt) hh0 (by omega), basis_zero, l2s_one_term]

end Sys2Proof
end

section
/-! SUPPORT. The checks of DECODE (spec/44_decoder.md R199), in their order: what passes them, and the error of each. -/

namespace Sys2Proof.Machine

/-! ## A character of the hash -/

section
variable {s : State} {p : Nat} {c : Byte}

/-- A hash character is a digit, outside the alphabet, or poison. -/
theorem hashDigit?_cases (s : State) (p : Nat) :
    (hashDigit? s p).isSome = true ∨ (∃ c, readHash s p = .ok c ∧ indexOf c = none) ∨
      ∃ a, readHash s p = .error (.poison a) := by
  rcases readHash_cases s p with ⟨c, hread, hmem⟩ | ⟨hread, -⟩
  · cases hc : indexOf c with
    | some d => exact .inl (by rw [hashDigit?, hmem, Option.bind_some, hc]; rfl)
    | none => exact .inr (.inl ⟨c, hread, hc⟩)
  · exact .inr (.inr ⟨_, hread⟩)

theorem readHash_of_read (h : Memory.read s.mem (0x100 + p) = some c) : readHash s p = .ok c := by
  rw [readHash, hashBase, h]

/-! ## Validation (spec/45_validator.md R220) -/

theorem validate_short (h : s.hashlen.toNat < 6) : validate s = raiseErr .lengthError 0 0 := if_pos h

theorem validate_badChar (h6 : 6 ≤ s.hashlen.toNat) (hread : readHash s 0 = .ok c) (hc : indexOf c = none) :
    validate s = raiseErr .formatError 2 0 := by
  simp only [validate, if_neg (Nat.not_lt.mpr h6), hread, hc, bind, Except.bind]

theorem validate_mismatch (h6 : 6 ≤ s.hashlen.toNat) (hdigit : (hashDigit? s 0).isSome = true)
    (hlen : s.hashlen.toNat ≠ 4 + 2 * (hashNx s * hashNy s)) : validate s = raiseErr .formatError 1 0 := by
  obtain ⟨c, hread, hc⟩ := exists_of_hashDigit?_isSome hdigit
  simp only [validate, if_neg (Nat.not_lt.mpr h6), hread, hc, bind, Except.bind]
  exact if_pos hlen

theorem validate_readError {e : Stop} (h6 : 6 ≤ s.hashlen.toNat) (hread : readHash s 0 = .error e) :
    validate s = .error e := by
  simp only [validate, if_neg (Nat.not_lt.mpr h6), hread, bind, Except.bind]

/-- Only a valid hash passes validation. -/
theorem hashValid_of_validate {dims : Nat × Nat} (h : validate s = .ok dims) : HashValid s := by
  have h6 : 6 ≤ s.hashlen.toNat := by
    by_contra hn
    simp [validate_short (Nat.not_le.mp hn), raiseErr] at h
  rcases hashDigit?_cases s 0 with hdigit | ⟨c, hread, hc⟩ | ⟨a, hread⟩
  · refine ⟨h6, hdigit, ?_⟩
    by_contra hn
    simp [validate_mismatch h6 hdigit hn, raiseErr] at h
  · simp [validate_badChar h6 hread hc, raiseErr] at h
  · simp [validate_readError h6 hread] at h

/-! ## The pre-scan (R199) -/

theorem scanHash_digit (h : (hashDigit? s p).isSome = true) (count : Nat) :
    scanHash s p (count + 1) = scanHash s (p + 1) count := by
  obtain ⟨c, hread, hc⟩ := exists_of_hashDigit?_isSome h
  simp only [scanHash, hread, hc, bind, Except.bind]

theorem scanHash_noDigit (hread : readHash s p = .ok c) (hc : indexOf c = none) (count : Nat) :
    scanHash s p (count + 1) = raiseErr .formatError 2 (BitVec.ofNat 8 p) := by
  simp only [scanHash, hread, hc, bind, Except.bind]

theorem scanHash_readError {e : Stop} (hread : readHash s p = .error e) (count : Nat) :
    scanHash s p (count + 1) = .error e := by
  simp only [scanHash, hread, bind, Except.bind]

/-- The pre-scan is the decoder of a field, its value discarded. -/
theorem scanHash_eq_b83DecodeFrom (s : State) (p count v : Nat) :
    scanHash s p count = b83DecodeFrom s p count v >>= fun _ => .ok () := by
  induction count generalizing p v with
  | zero => rfl
  | succ n ih =>
    rcases hashDigit?_cases s p with hdigit | ⟨c, hread, hc⟩ | ⟨a, hread⟩
    · rw [scanHash_digit hdigit, b83DecodeFrom_digit hdigit, ih]
    · rw [scanHash_noDigit hread hc, b83DecodeFrom_noDigit hread hc]
      rfl
    · rw [scanHash_readError hread, b83DecodeFrom, hread]
      rfl

/-- The first character that is no digit raises FORMAT_ERROR at its position, whatever follows it. -/
theorem scanHash_badChar {count k : Nat} (hk : k < count)
    (hdigits : ∀ i < k, (hashDigit? s (p + i)).isSome = true) (hread : readHash s (p + k) = .ok c)
    (hc : indexOf c = none) : scanHash s p count = raiseErr .formatError 2 (BitVec.ofNat 8 (p + k)) := by
  rw [scanHash_eq_b83DecodeFrom s p count 0, b83DecodeFrom_badChar hk hdigits hread hc]
  rfl

/-- Only digits pass the pre-scan. -/
theorem digits_of_scanHash {count : Nat} (h : scanHash s p count = .ok ()) :
    ∀ i < count, (hashDigit? s (p + i)).isSome = true := by
  induction count generalizing p with
  | zero => exact fun i hi => absurd hi (Nat.not_lt_zero i)
  | succ n ih =>
    rcases hashDigit?_cases s p with hdigit | ⟨c, hread, hc⟩ | ⟨a, hread⟩
    · rw [scanHash_digit hdigit] at h
      intro i hi
      cases i with
      | zero => exact hdigit
      | succ i =>
        rw [show p + (i + 1) = p + 1 + i by omega]
        exact ih h i (by omega)
    · simp [scanHash_noDigit hread hc, raiseErr] at h
    · simp [scanHash_readError hread] at h

end

/-! ## All checks -/

/-- What DECODE does before it computes: validation, the pre-scan, the size of the image (R199). -/
def decodeChecks (s : State) : Except Stop (Nat × Nat) := do
  let dims ← validate s
  scanHash s 1 (s.hashlen.toNat - 1)
  if exceedsPixmem (pixelCount s * 4) then raiseErr .capacityError 0 0 else return dims

/-- What the checks ask for: a hash that validation and the pre-scan pass, and an image that PIXMEM holds. -/
structure Decodable (s : State) : Prop where
  hash : HashDecodable s
  fits : pixelCount s * 4 ≤ pixmemBytes

section
variable {s : State}

theorem scanHash_decodable (h : HashDecodable s) : scanHash s 1 (s.hashlen.toNat - 1) = .ok () :=
  scanHash_digits fun _ hi => h.2 _ (by omega)

theorem decodeChecks_validate {e : Stop} (h : validate s = .error e) : decodeChecks s = .error e := by
  rw [decodeChecks, h]
  rfl

theorem decodeChecks_scan {e : Stop} (hv : HashValid s) (h : scanHash s 1 (s.hashlen.toNat - 1) = .error e) :
    decodeChecks s = .error e := by
  rw [decodeChecks, validate_ok hv, h]
  rfl

theorem decodeChecks_past_scan (h : HashDecodable s) :
    decodeChecks s = if exceedsPixmem (pixelCount s * 4) then raiseErr .capacityError 0 0
      else .ok (hashNx s, hashNy s) := by
  rw [decodeChecks, validate_ok h.1, scanHash_decodable h]
  rfl

theorem decodeChecks_capacity (h : HashDecodable s) (hf : pixmemBytes < pixelCount s * 4) :
    decodeChecks s = raiseErr .capacityError 0 0 := by
  rw [decodeChecks_past_scan h, if_pos (by simpa [exceedsPixmem] using hf)]

/-- Only what the checks ask for passes them. -/
theorem decodable_of_decodeChecks {dims : Nat × Nat} (h : decodeChecks s = .ok dims) : Decodable s := by
  cases hv : validate s with
  | error e => simp [decodeChecks_validate hv] at h
  | ok _ =>
    have hvalid := hashValid_of_validate hv
    cases hscan : scanHash s 1 (s.hashlen.toNat - 1) with
    | error e => simp [decodeChecks_scan hvalid hscan] at h
    | ok _ =>
      have hdigits (p : Nat) (hp : p < s.hashlen.toNat) : (hashDigit? s p).isSome = true := by
        cases p with
        | zero => exact hvalid.2.1
        | succ p => exact Nat.add_comm 1 p ▸ digits_of_scanHash hscan p (by omega)
      refine ⟨⟨hvalid, hdigits⟩, ?_⟩
      by_contra hn
      simp [decodeChecks_capacity ⟨hvalid, hdigits⟩ (Nat.not_le.mp hn), raiseErr] at h

/-- A failed check, or a poison byte that one reads, is what DECODE ends with. -/
theorem exec_decode_error {e : Stop} (h : decodeChecks s = .error e) : exec .decode s = commit s (.error e) := by
  simp only [exec, execDecode]
  congr 1
  revert h
  cases hv : validate s with
  | error _ => rw [decodeChecks_validate hv]; rintro ⟨⟩; rfl
  | ok dims =>
    cases hscan : scanHash s 1 (s.hashlen.toNat - 1) with
    | error _ => rw [decodeChecks_scan (hashValid_of_validate hv) hscan]; rintro ⟨⟩; rfl
    | ok _ =>
      simp only [decodeChecks, hv, hscan, bind, Except.bind]
      split
      · rintro ⟨⟩; rfl
      · rintro ⟨⟩

/-- DECODE completes by its writes, or by the error of a check. -/
theorem exec_decode_cases {t : State} (h : exec .decode s = .next t) :
    (Decodable s ∧ t = complete
        (decodeWrites s (3 :: drawSite s) (hashNx s, hashNy s) (hashScale s) (hashGrid s))) ∨
      ∃ e, decodeChecks s = .error (.raise e) ∧ t = raiseError e s := by
  cases hc : decodeChecks s with
  | ok dims =>
    have hd := decodable_of_decodeChecks hc
    exact .inl ⟨hd, Host.Outcome.next.inj (h.symm.trans (exec_decode hd.hash hd.fits))⟩
  | error e =>
    rw [exec_decode_error hc] at h
    cases e with
    | raise e => exact .inr ⟨e, rfl, Host.Outcome.next.inj h.symm⟩
    | poison a => simp at h

theorem exec_decode_success {t : State} (h : exec .decode s = .next t) (h0 : t.errcode = 0) :
    Decodable s ∧ t = complete
      (decodeWrites s (3 :: drawSite s) (hashNx s, hashNy s) (hashScale s) (hashGrid s)) := by
  rcases exec_decode_cases h with hd | ⟨e, -, rfl⟩
  · exact hd
  · exact absurd h0 (errCodeBits_ne_zero e.code)

theorem exec_decode_failedOnly {code : ErrCode} {kind pos : Byte} (h : decodeChecks s = raiseErr code kind pos) :
    ∃ t, exec .decode s = .next t ∧ FailedOnly s t (errCodeBits code) kind pos :=
  ⟨_, exec_decode_error h, raiseError_failedOnly ⟨code, kind, pos⟩ s⟩

end

end Sys2Proof.Machine

namespace Sys2Proof

open Machine

/-- Settles O42, check by check. -/
theorem decodeFailsInOrder : Obligations.DecodeFailsInOrder := by
  refine fun s => ⟨fun h => exec_decode_failedOnly (decodeChecks_validate (validate_short h)),
    fun c h6 hread hc =>
      exec_decode_failedOnly (decodeChecks_validate (validate_badChar h6 (readHash_of_read hread) hc)),
    fun h6 hdigit hlen => exec_decode_failedOnly (decodeChecks_validate (validate_mismatch h6 hdigit hlen)),
    fun hv p c h1 hp hdigits hread hc => ?_,
    fun h hf => exec_decode_failedOnly (decodeChecks_capacity h hf)⟩
  obtain ⟨k, rfl⟩ := Nat.exists_eq_add_of_le h1
  exact exec_decode_failedOnly (decodeChecks_scan hv
    (scanHash_badChar (by omega) (fun i hi => hdigits _ (by omega)) (readHash_of_read hread) hc))

end Sys2Proof
end

section
/-! SUPPORT. What DECODE writes (spec/44_decoder.md R199), and that the pixels are opaque (R200, item 1). -/

namespace Sys2Proof.Machine

/-! ## The declared grid (R190) -/

section
variable (s : State)

theorem gridDims_sizeFlag : ∀ d < 83, gridDims (d % 9 + 1) (d / 9 + 1) = true := by decide

/-- A hash declares a grid that DCTI takes (R34). -/
theorem gridDims_hash : gridDims (hashNx s) (hashNy s) = true := gridDims_sizeFlag _ (hashDigit_lt s 0)

theorem hashCount_le : hashNx s * hashNy s ≤ 81 := sizeFlag_le (hashDigit_lt s 0)

/-- The declared width and height fit the fields of DIM. -/
theorem hashNx_lt : hashNx s < 16 := by
  unfold hashNx
  omega

theorem hashNy_lt : hashNy s < 16 := by
  have := hashDigit_lt s 0
  unfold hashNy
  omega

theorem hashGrid_length : (hashGrid s).length = hashNx s * hashNy s := by
  have : 1 ≤ hashNx s * hashNy s := Nat.mul_pos (Nat.succ_pos _) (Nat.succ_pos _)
  rw [hashGrid, List.length_cons, List.length_map, List.length_range]
  omega

end

/-! ## The writes -/

section
variable (s : State) (d : Site) (dims : Nat × Nat) (m : F64) {grid : List Triple}

theorem decodeWrites_maxreg (grid : List Triple) : (decodeWrites s d dims m grid).maxreg = m := rfl

theorem decodeWrites_dims (grid : List Triple) (hx : dims.1 < 16) (hy : dims.2 < 16) :
    (decodeWrites s d dims m grid).dimNx.toNat = dims.1 ∧ (decodeWrites s d dims m grid).dimNy.toNat = dims.2 :=
  ⟨Nat.mod_eq_of_lt hx, Nat.mod_eq_of_lt hy⟩

theorem decodeWrites_mem (grid : List Triple) : (decodeWrites s d dims m grid).mem =
    Memory.writeBytes (Memory.writeBytes s.mem 0x800 (grid.flatMap tripleBytes)) 0x10000
      (dctiBytes d (imageW s) (imageH s) dims.1 grid) := by
  simp only [decodeWrites, writePix_mem, writeGrid_mem, gridAddr, gridBase, pixBase, Nat.mul_zero, Nat.add_zero]

theorem decodeWrites_holdsPix (grid : List Triple) :
    HoldsFrom (decodeWrites s d dims m grid).mem 0x10000 (dctiBytes d (imageW s) (imageH s) dims.1 grid) := by
  rw [decodeWrites_mem]
  exact read_writeBytes_inside _ _ _

/-- At most 81 entries stand in GRIDMEM, below the image. -/
theorem decodeWrites_holdsGrid (hl : grid.length ≤ 81) :
    HoldsFrom (decodeWrites s d dims m grid).mem 0x800 (grid.flatMap tripleBytes) := by
  intro i hi
  have hlen := flatMap_tripleBytes_length grid
  rw [decodeWrites_mem, read_writeBytes_outside _ _ _ _ (by omega), read_writeBytes_inside _ _ _ _ hi]

theorem decodeWrites_frame {x : Nat} (hgrid : ¬ (0x800 ≤ x ∧ x < 0x800 + 24 * grid.length))
    (hpix : ¬ (0x10000 ≤ x ∧ x < 0x10000 + pixelCount s * 4)) :
    Memory.read (decodeWrites s d dims m grid).mem x = Memory.read s.mem x := by
  unfold pixelCount at hpix
  rw [decodeWrites_mem, read_writeBytes_outside _ _ _ _ (by rw [dctiBytes_length]; omega),
    read_writeBytes_outside _ _ _ _ (by rw [flatMap_tripleBytes_length]; omega)]

end

/-! ## Opaque pixels -/

/-- A run of equal parts holds each part at its place. -/
theorem holdsFrom_flatMap {α : Type} {m : Memory} {f : α → List Byte} {n : Nat} (hn : ∀ v, (f v).length = n)
    {vs : List α} {a i : Nat} (h : HoldsFrom m a (vs.flatMap f)) (hi : i < vs.length) :
    HoldsFrom m (a + n * i) (f vs[i]) := by
  induction vs generalizing a i with
  | nil => exact absurd hi (Nat.not_lt_zero i)
  | cons v vs ih =>
    rw [List.flatMap_cons, holdsFrom_append, hn] at h
    cases i with
    | zero => exact h.1
    | succ i =>
      rw [show a + n * (i + 1) = a + n + n * i by ring]
      exact ih h.2 (by simpa using hi)

/-- Alpha is the fourth byte of every pixel (R194). -/
theorem alpha_of_holds {m : Memory} {a : Nat} {d : Site} {w h nx : Nat} {grid : List Triple}
    (hpix : HoldsFrom m a (dctiBytes d w h nx grid)) {q : Nat} (hq : q < w * h) :
    Memory.read m (a + 4 * q + 3) = some 255 :=
  holdsFrom_flatMap (n := 4) (fun _ => rfl) hpix (by simpa using hq) 3 (show 3 < 4 by decide)

/-- PIXMEM of `t` holds an image of `s`'s size, computed from some grid, and is that of `s` above it. -/
def RendersFrom (s t : State) : Prop :=
  (∃ d nx grid, HoldsFrom t.mem 0x10000 (dctiBytes d (imageW s) (imageH s) nx grid)) ∧
    ∀ x, 0x10000 + pixelCount s * 4 ≤ x → Memory.read t.mem x = Memory.read s.mem x

theorem rendersFrom_decodeWrites (s : State) (d : Site) (dims : Nat × Nat) (m : F64) {grid : List Triple}
    (hl : grid.length ≤ 81) : RendersFrom s (complete (decodeWrites s d dims m grid)) :=
  ⟨⟨_, _, _, decodeWrites_holdsPix s d dims m grid⟩, fun _ hx => decodeWrites_frame s d dims m (by omega) (by omega)⟩

theorem rendersFrom_writePix (s : State) (d : Site) (nx : Nat) (grid : List Triple) :
    RendersFrom s (complete (writePix s (dctiBytes d (imageW s) (imageH s) nx grid))) :=
  ⟨⟨_, _, _, read_writeBytes_inside _ s.mem pixBase⟩, fun x hx =>
    read_writeBytes_outside _ s.mem pixBase x (.inr (by rwa [dctiBytes_length]))⟩

/-- An image without a pixel is there as it is. -/
theorem rendersFrom_empty {s : State} (h : pixelCount s = 0) : RendersFrom s (complete s) := by
  refine ⟨⟨[], 0, [], fun i hi => ?_⟩, fun _ _ => by rw [complete_mem]⟩
  rw [dctiBytes_length, ← pixelCount, h] at hi
  exact absurd hi (Nat.not_lt_zero i)

theorem errcode_ne_zero_of_raise {i : Instr} {s t : State} {e : CmdError} (hx : exec i s = .next (raiseError e s))
    (h : exec i s = .next t) : t.errcode ≠ 0 := by
  obtain rfl := Host.Outcome.next.inj (hx.symm.trans h)
  exact errCodeBits_ne_zero e.code

theorem exec_dcti_rendersFrom {s t : State} (h : exec .dcti s = .next t) (h0 : t.errcode = 0) : RendersFrom s t := by
  have hd : gridDims (gridNx s) (gridNy s) = true := by
    by_contra hn
    exact errcode_ne_zero_of_raise (exec_dcti_dims (Bool.eq_false_iff.mpr hn)) h h0
  have hf : pixelCount s * 4 ≤ pixmemBytes := by
    by_contra hn
    exact errcode_ne_zero_of_raise (exec_dcti_capacity hd (Nat.not_le.mp hn)) h h0
  have hr : Renderable s := ⟨hd, hf⟩
  by_cases hp : pixelCount s = 0
  · obtain rfl := Host.Outcome.next.inj ((exec_dcti_empty hr hp).symm.trans h)
    exact rendersFrom_empty hp
  · cases hread : readGridFrom s 0 (gridCount s) with
    | ok grid =>
      obtain rfl := Host.Outcome.next.inj ((exec_dcti hr hp hread).symm.trans h)
      exact rendersFrom_writePix s _ _ grid
    | error e =>
      rw [exec_dcti_past_checks hr, if_neg hp, hread] at h
      rcases (commit_next_iff s t _).mp h with ⟨u, hu, -⟩ | ⟨e, -, rfl⟩
      · cases hu
      · exact absurd h0 (errCodeBits_ne_zero _)

theorem exec_decode_rendersFrom {s t : State} (h : exec .decode s = .next t) (h0 : t.errcode = 0) :
    RendersFrom s t := by
  obtain ⟨-, rfl⟩ := exec_decode_success h h0
  exact rendersFrom_decodeWrites s _ _ _ (hashGrid_length s ▸ hashCount_le s)

end Sys2Proof.Machine

namespace Sys2Proof

open Machine

/-- Settles O43: the grid and the image are two runs that lie apart, and DIM holds the declared numbers. -/
theorem decodeWritesTheImage : Obligations.DecodeWritesTheImage := by
  refine ⟨rfl, fun s hhash (hfit : pixelCount s * 4 ≤ pixmemBytes) => ?_⟩
  have hlen := hashGrid_length s
  have hmax : (hashGrid s).length ≤ 81 := hlen ▸ hashCount_le s
  have hwrites := writesOnly_decodeWrites s (3 :: drawSite s) (hashNx s, hashNy s) (hashScale s) (hashGrid s) hmax
    (by simpa [exceedsPixmem] using hfit)
  obtain ⟨hnx, hny⟩ := decodeWrites_dims s (3 :: drawSite s) (hashNx s, hashNy s) (hashScale s) (hashGrid s)
    (hashNx_lt s) (hashNy_lt s)
  refine ⟨_, exec_decode hhash hfit, hwrites.ran, hnx, hny, ?_, hwrites.result rfl, hwrites.hashlen (by decide),
    decodeWrites_holdsGrid s _ _ (hashScale s) hmax, ?_, fun x hgrid hpix => ?_⟩
  · rw [complete_maxreg, decodeWrites_maxreg]
  · rw [← dctiBytes_eq_dctiImage _ _ _ hlen]
    exact decodeWrites_holdsPix s _ _ (hashScale s) _
  · exact decodeWrites_frame s _ _ (hashScale s) (hlen ▸ hgrid) hpix

/-- Settles O46: either command leaves an image of four bytes for each pixel, the fourth 255. -/
theorem renderedPixelsAreOpaque : Obligations.RenderedPixelsAreOpaque := by
  intro i s t hi h h0
  have hr : RendersFrom s t := by
    rcases hi with rfl | rfl
    · exact exec_decode_rendersFrom h h0
    · exact exec_dcti_rendersFrom h h0
  obtain ⟨⟨d, nx, grid, hpix⟩, hframe⟩ := hr
  refine ⟨fun a ha => ?_, fun q hq => alpha_of_holds hpix hq, hframe⟩
  rw [Defined, hpix a (by rwa [dctiBytes_length])]
  rfl

end Sys2Proof
end

section
/-! SUPPORT. DCTI after DECODE (spec/44_decoder.md R199): the grid reads back, and no pixel shows the site of an
operation (spec/93_implementation_defined.md U7). -/

namespace Sys2Proof.Machine

/-! ## The pixels, at no site of their own -/

section
variable (d e : Site)

theorem fmul_finite_site {x y : F64} (hx : isFinite x = true) (hy : isFinite y = true) : fmul d x y = fmul [] x y :=
  (fmul_same d [] (.rfl x) (.rfl y)).eq (by
    simp [isNaN_fmul, isNaN_of_isFinite hx, isNaN_of_isFinite hy, isInf_of_isFinite hx, isInf_of_isFinite hy])

/-- Every step to a basis argument gives a number, so that the cosine is taken of one pattern. -/
theorem angle_site {a b w : Nat} (ha : a < 2 ^ 64) (hb : b < 2 ^ 64) (h0 : 0 < w) (hw : w < 2 ^ 64) :
    angle d a b w = fdiv [] (fmul [] (fmul [] pi64 (fofNat a)) (fofNat b)) (fofNat w) := by
  have hpi := isFinite_pi_mul [] ha
  have hnan : isNaN (fmul [] (fmul [] pi64 (fofNat a)) (fofNat b)) = false := by
    simp [isNaN_fmul, isNaN_of_isFinite hpi, isInf_of_isFinite hpi, isNaN_of_isFinite (isFinite_fofNat hb),
      isInf_of_isFinite (isFinite_fofNat hb)]
  rw [angle, fmul_finite_site (2 :: d) (by decide) (isFinite_fofNat ha),
    fmul_finite_site (1 :: d) hpi (isFinite_fofNat hb), fdiv_site _ hnan (isFinite_fofNat hw) (isZero_fofNat h0)]

theorem addWeighted_same {acc acc' : Triple} {v v' : F64} (hacc : SameTriple acc acc') (hv : SameValue v v')
    (t : Triple) : SameTriple (addWeighted d acc v t) (addWeighted e acc' v' t) := by
  obtain ⟨hr, hg, hb⟩ := hacc
  exact ⟨fadd_same _ _ hr (fmul_same _ _ hv (.rfl _)), fadd_same _ _ hg (fmul_same _ _ hv (.rfl _)),
    fadd_same _ _ hb (fmul_same _ _ hv (.rfl _))⟩

section
variable {w h : Nat} (hw0 : 0 < w) (hh0 : 0 < h) (hw : w < 2 ^ 32) (hh : h < 2 ^ 32)
include hw0 hh0 hw hh

theorem addTerm_same {x y k i j : Nat} (hx : x < 2 ^ 64) (hy : y < 2 ^ 64) (hi : i < 2 ^ 64) (hj : j < 2 ^ 64)
    {acc acc' : Triple} (hacc : SameTriple acc acc') (t : Triple) :
    SameTriple (addTerm d w h x y acc k i j t) (addTerm e w h x y acc' k i j t) := by
  have hw' : w < 2 ^ 64 := by omega
  have hh' : h < 2 ^ 64 := by omega
  simp only [addTerm, angle_site _ hx hi hw0 hw', angle_site _ hy hj hh0 hh']
  exact addWeighted_same _ _ hacc (fmul_same _ _ (.rfl _) (.rfl _)) t

theorem dctiSum_same (nx : Nat) {x y k : Nat} (hx : x < 2 ^ 64) (hy : y < 2 ^ 64) (ts : List Triple)
    (hk : k + ts.length ≤ 2 ^ 64) {acc acc' : Triple} (hacc : SameTriple acc acc') :
    SameTriple (dctiSum d w h nx x y k ts acc) (dctiSum e w h nx x y k ts acc') := by
  induction ts generalizing k acc acc' with
  | nil => exact hacc
  | cons t ts ih =>
    rw [List.length_cons] at hk
    have hlt : k < 2 ^ 64 := by omega
    rw [dctiSum_cons, dctiSum_cons]
    exact ih (by omega) (addTerm_same d e hw0 hh0 hw hh hx hy ((Nat.mod_le k nx).trans_lt hlt)
      ((Nat.div_le_self k nx).trans_lt hlt) hacc t)

theorem dctiBytes_site (nx : Nat) {grid : List Triple} (hl : grid.length ≤ 81) :
    dctiBytes d w h nx grid = dctiBytes e w h nx grid := by
  refine List.flatMap_congr fun q hq => ?_
  have hlt : q < 2 ^ 64 := (List.mem_range.mp hq).trans (pixels_lt hw hh)
  obtain ⟨hr, hg, hb⟩ := dctiSum_same (0 :: q :: d) (0 :: q :: e) hw0 hh0 hw hh nx (x := q % w) (y := q / w) (k := 0)
    ((Nat.mod_le q w).trans_lt hlt) ((Nat.div_le_self q w).trans_lt hlt) grid (by omega) (SameTriple.rfl zeroTriple)
  simp only [dctiPixel, l2s_same _ (1 :: q :: e) hr, l2s_same _ (2 :: q :: e) hg, l2s_same _ (3 :: q :: e) hb]

end

end

/-! ## The grid reads back -/

theorem readGridFrom_holds {s : State} {k : Nat} {ts : List Triple}
    (h : HoldsFrom s.mem (gridAddr k) (ts.flatMap tripleBytes)) : readGridFrom s k ts.length = .ok ts := by
  induction ts generalizing k with
  | nil => rfl
  | cons t ts ih =>
    rw [List.flatMap_cons, holdsFrom_append, tripleBytes_length] at h
    exact readGridFrom_succ ((readGrid_eq_ok_iff_holds s k t).mpr h.1) (ih h.2)

/-- Bytes that a memory holds may be written again. -/
theorem sameMemory_writeBytes_of_holds {m : Memory} {a : Nat} {bs : List Byte} (h : HoldsFrom m a bs) :
    SameMemory m (Memory.writeBytes m a bs) := by
  intro x
  by_cases hx : a ≤ x ∧ x < a + bs.length
  · obtain ⟨i, rfl⟩ := Nat.exists_eq_add_of_le hx.1
    rw [read_writeBytes_inside _ _ _ _ (by omega), h i (by omega)]
  · exact read_writeBytes_outside _ _ _ _ (by omega)

/-! ## DCTI on what DECODE left -/

/-- `t` has the decoded grid of `s` with its dimensions, and the image of that grid at the size that `s` gives. -/
structure HoldsDecoded (s t : State) : Prop where
  width : imageW t = imageW s
  height : imageH t = imageH s
  nx : gridNx t = hashNx s
  ny : gridNy t = hashNy s
  grid : HoldsFrom t.mem 0x800 ((hashGrid s).flatMap tripleBytes)
  pix : ∃ d, HoldsFrom t.mem 0x10000 (dctiBytes d (imageW s) (imageH s) (hashNx s) (hashGrid s))

theorem holdsDecoded_of_decode {s t : State} (h : exec .decode s = .next t) (h0 : t.errcode = 0) (w : Word) :
    Decodable s ∧ HoldsDecoded s (acceptCommand w t) := by
  obtain ⟨hd, rfl⟩ := exec_decode_success h h0
  obtain ⟨hnx, hny⟩ := decodeWrites_dims s (3 :: drawSite s) (hashNx s, hashNy s) (hashScale s) (hashGrid s)
    (hashNx_lt s) (hashNy_lt s)
  refine ⟨hd, by simp [imageW, decodeWrites], by simp [imageH, decodeWrites], by simpa [gridNx] using hnx,
    by simpa [gridNy] using hny, ?_, 3 :: drawSite s, ?_⟩ <;> rw [acceptCommand_mem, complete_mem]
  · exact decodeWrites_holdsGrid s _ _ _ (hashGrid_length s ▸ hashCount_le s)
  · exact decodeWrites_holdsPix s _ _ _ _

/-- DCTI computes the image that is there. -/
theorem exec_dcti_again {s t : State} (hd : Decodable s) (h : HoldsDecoded s t) :
    ∃ u, exec .dcti t = .next u ∧ Succeeded u ∧ SameMemory t.mem u.mem := by
  obtain ⟨hw, hh, hx, hy, hgrid, e, hpix⟩ := h
  have hpixels : pixelCount t = pixelCount s := by rw [pixelCount, hw, hh, pixelCount]
  have hr : Renderable t := ⟨by rw [hx, hy]; exact gridDims_hash s, hpixels ▸ hd.fits⟩
  by_cases h0 : pixelCount t = 0
  · exact ⟨_, exec_dcti_empty hr h0, complete_succeeded t, fun _ => by rw [complete_mem]⟩
  · have hcount : gridCount t = (hashGrid s).length := by rw [gridCount, hx, hy, hashGrid_length]
    have hread : readGridFrom t 0 (gridCount t) = .ok (hashGrid s) := hcount ▸ readGridFrom_holds hgrid
    obtain ⟨hw0, hh0⟩ : 0 < imageW s ∧ 0 < imageH s :=
      CanonicallyOrderedAdd.mul_pos.mp (Nat.pos_of_ne_zero (hpixels.symm.trans_ne h0))
    have hsite := dctiBytes_site (drawSite t) e hw0 hh0 s.width.isLt s.height.isLt (hashNx s)
      (hashGrid_length s ▸ hashCount_le s)
    refine ⟨_, exec_dcti hr h0 hread, complete_succeeded _, ?_⟩
    rw [complete_mem, writePix_mem, hw, hh, hx, hsite]
    exact sameMemory_writeBytes_of_holds hpix

end Sys2Proof.Machine

namespace Sys2Proof

open Machine

/-- Settles O47: DIM and the grid read back as decoded, and no byte shows that the draws differ. -/
theorem dctiRendersTheDecodedGridAgain : Obligations.DctiRendersTheDecodedGridAgain := by
  intro s t h h0
  obtain ⟨hd, hheld⟩ := holdsDecoded_of_decode h h0 (encode .dcti)
  exact exec_dcti_again hd hheld

end Sys2Proof
end

section
/-! SUPPORT. Where PUNCH reaches (spec/44_decoder.md R193; R200, item 4): the checks do not read it, and of the grid
only the AC terms depend on it. -/

namespace Sys2Proof.Machine

/-- The machine with another PUNCH. -/
def withPunch (s : State) (p : Word) : State := { s with punch := p }

section
variable (s : State) (p : Word)

@[simp] theorem withPunch_mem : (withPunch s p).mem = s.mem := rfl

theorem scanHash_withPunch (q count : Nat) : scanHash (withPunch s p) q count = scanHash s q count := by
  induction count generalizing q with
  | zero => rfl
  | succ n ih =>
    simp only [scanHash, ih]
    rfl

theorem decodeChecks_withPunch : decodeChecks (withPunch s p) = decodeChecks s := by
  simp only [decodeChecks, scanHash_withPunch]
  rfl

theorem hashScale_withPunch : hashScale (withPunch s p) = hashScale s := rfl

theorem complete_decodeWrites_withPunch (d : Site) (dims : Nat × Nat) (m : F64) (grid : List Triple) :
    complete (decodeWrites (withPunch s p) d dims m grid) = withPunch (complete (decodeWrites s d dims m grid)) p := rfl

/-- Two decoded grids are two memories, and nothing else. -/
theorem withPunch_complete_decodeWrites (d : Site) (dims : Nat × Nat) (m : F64) (grid grid' : List Triple) :
    let u := withPunch (complete (decodeWrites s d dims m grid')) p
    u = { complete (decodeWrites s d dims m grid) with punch := p, mem := u.mem } := by
  simp only [withPunch, complete, finish, decodeWrites, writePix, writeGrid]

/-- Whatever PUNCH is, DECODE completes, by the writes of its own grid or by the same error. -/
theorem exec_decode_withPunch {t : State} (h : exec .decode s = .next t) :
    (t = complete (decodeWrites s (3 :: drawSite s) (hashNx s, hashNy s) (hashScale s) (hashGrid s)) ∧
      exec .decode (withPunch s p) = .next (withPunch (complete (decodeWrites s (3 :: drawSite s) (hashNx s, hashNy s)
        (hashScale s) (hashGrid (withPunch s p)))) p)) ∨
      ∃ e, t = raiseError e s ∧ exec .decode (withPunch s p) = .next (withPunch t p) := by
  rcases exec_decode_cases h with ⟨hd, rfl⟩ | ⟨e, he, rfl⟩
  · refine .inl ⟨rfl, ?_⟩
    rw [exec_decode (s := withPunch s p) hd.hash hd.fits, complete_decodeWrites_withPunch, hashScale_withPunch]
    rfl
  · exact .inr ⟨e, rfl, exec_decode_error ((decodeChecks_withPunch s p).trans he)⟩

/-- The engine's punch is odd: its lowest bit is no operand (R193). -/
theorem xor_one_or_one : (p ^^^ 1) ||| 1 = p ||| 1 := by
  ext i hi
  simp only [BitVec.getElem_or, BitVec.getElem_xor]
  cases p[i] <;> cases (1#32)[i] <;> rfl

theorem hashGrid_withPunch_xor_one : hashGrid (withPunch s (s.punch ^^^ 1)) = hashGrid s := by
  have hpunch : (withPunch s (s.punch ^^^ 1)).punch ||| 1 = s.punch ||| 1 := xor_one_or_one s.punch
  rw [hashGrid, hpunch]
  rfl

/-- The DC term does not depend on PUNCH (R192). -/
theorem hashGrid_withPunch : ∃ v ts us, hashGrid s = v :: ts ∧ hashGrid (withPunch s p) = v :: us :=
  ⟨_, _, _, rfl, rfl⟩

end

/-- Two grids with one DC term leave the same bytes outside the AC terms and the image. -/
theorem decodeWrites_frame_acs (s : State) (d : Site) (dims : Nat × Nat) (m : F64) {v : Triple} {ts us : List Triple}
    {n x : Nat} (ht : (v :: ts).length = n) (hu : (v :: us).length = n) (hn : n ≤ 81)
    (hgrid : ¬ (0x800 + 24 ≤ x ∧ x < 0x800 + 24 * n)) (hpix : ¬ (0x10000 ≤ x ∧ x < 0x10000 + pixelCount s * 4)) :
    Memory.read (decodeWrites s d dims m (v :: us)).mem x = Memory.read (decodeWrites s d dims m (v :: ts)).mem x := by
  by_cases hdc : 0x800 ≤ x ∧ x < 0x800 + 24
  · have hheld {ws : List Triple} (hw : (v :: ws).length = n) :
        HoldsFrom (decodeWrites s d dims m (v :: ws)).mem 0x800 (tripleBytes v) := by
      have := decodeWrites_holdsGrid s d dims m (hw.trans_le hn)
      rw [List.flatMap_cons, holdsFrom_append] at this
      exact this.1
    obtain ⟨i, rfl⟩ := Nat.exists_eq_add_of_le hdc.1
    exact read_eq_of_holdsFrom (hheld ht) (hheld hu) (by rw [tripleBytes_length]; omega)
  · rw [decodeWrites_frame s d dims m (by omega) hpix, decodeWrites_frame s d dims m (by omega) hpix]

end Sys2Proof.Machine

namespace Sys2Proof

open Machine

/-- Settles O48: an odd punch is one value for 2p and 2p + 1, and two decoded grids differ in their AC terms only. -/
theorem punchReachesOnlyTheAcTerms : Obligations.PunchReachesOnlyTheAcTerms := by
  refine ⟨fun s t h => ?_, fun s t p h => ?_⟩
  · rcases exec_decode_withPunch s (s.punch ^^^ 1) h with ⟨rfl, hx⟩ | ⟨e, -, hx⟩
    · rw [hashGrid_withPunch_xor_one] at hx
      exact hx
    · exact hx
  · rcases exec_decode_withPunch s p h with ⟨rfl, hx⟩ | ⟨e, rfl, hx⟩
    · have hlen := hashGrid_length s
      have hlen' : (hashGrid (withPunch s p)).length = hashNx s * hashNy s := hashGrid_length (withPunch s p)
      obtain ⟨v, ts, us, hts, hus⟩ := hashGrid_withPunch s p
      rw [hts] at hlen ⊢
      rw [hus] at hx hlen'
      refine ⟨_, hx, withPunch_complete_decodeWrites s p _ _ _ _ _, fun x hgrid hpix => ?_⟩
      rw [withPunch_mem, complete_mem, complete_mem]
      exact decodeWrites_frame_acs s _ _ (hashScale s) hlen hlen' (hashCount_le s) hgrid hpix
    · exact ⟨_, hx, rfl, fun _ _ _ => rfl⟩

end Sys2Proof
end

section
/-! SUPPORT. The command VALIDATE (spec/45_validator.md R221, R222). -/

namespace Sys2Proof.Machine

section
variable {s : State}

/-- A listed character of HASH has its digit. -/
theorem hashDigit?_of_read {p d : Nat} {c : Byte} (hread : Memory.read s.mem (0x100 + p) = some c)
    (hc : indexOf c = some d) : hashDigit? s p = some d := by
  rw [hashDigit?, hashBase, hread, Option.bind_some, hc]

theorem hashDigit_eq_of_some {p d : Nat} (h : hashDigit? s p = some d) : hashDigit s p = d := by
  rw [hashDigit, h, Option.getD_some]

/-- A failed validation, or the poison byte that it reads, is what VALIDATE ends with. -/
theorem exec_validate_error {e : Stop} (h : validate s = .error e) : exec .validate s = commit s (.error e) := by
  rw [exec, execValidate, h]
  rfl

theorem exec_validate_failedOnly {code : ErrCode} {kind pos : Byte} (h : validate s = raiseErr code kind pos) :
    ∃ t, exec .validate s = .next t ∧ FailedOnly s t (errCodeBits code) kind pos :=
  ⟨_, exec_validate_error h, raiseError_failedOnly ⟨code, kind, pos⟩ s⟩

/-- Only a valid hash lets VALIDATE succeed: no error has the code 0 (R231). -/
theorem hashValid_of_exec_validate {t : State} (h : exec .validate s = .next t) (h0 : t.errcode = 0) : HashValid s := by
  cases hv : validate s with
  | ok dims => exact hashValid_of_validate hv
  | error e =>
    rw [exec_validate_error hv] at h
    cases e with
    | raise e =>
      obtain rfl := Host.Outcome.next.inj h
      exact absurd h0 (errCodeBits_ne_zero e.code)
    | poison a => simp at h

/-- The length of a valid hash is even and at most that of a 9 × 9 grid (R222, item 2). -/
theorem hashlen_bounds_of_hashValid (h : HashValid s) : s.hashlen.toNat ≤ 166 ∧ s.hashlen.toNat % 2 = 0 := by
  obtain ⟨-, -, hlen⟩ := h
  have hcount := hashCount_le s
  omega

end

end Sys2Proof.Machine

namespace Sys2Proof

open Machine

/-- Settles O39, check by check: the digit of HASH[0] is what the size flag's numbers are computed from. -/
theorem validateChecksInOrder : Obligations.ValidateChecksInOrder := by
  refine ⟨rfl, fun s => ⟨fun h => exec_validate_failedOnly (validate_short h),
    fun c h6 hread hc => exec_validate_failedOnly (validate_badChar h6 (readHash_of_read hread) hc),
    fun c d h6 hread hc hlen => ?_, fun c d h6 hread hc hlen => ?_⟩⟩
  all_goals
    have hdigit : hashDigit? s 0 = some d := hashDigit?_of_read hread hc
    rw [← hashDigit_eq_of_some hdigit] at hlen
    have hsome : (hashDigit? s 0).isSome = true := Option.isSome_of_eq_some hdigit
  · exact exec_validate_failedOnly (validate_mismatch h6 hsome hlen)
  · exact ⟨_, exec_validate ⟨h6, hsome, hlen⟩, (WritesOnly.refl .validate s).ran, by simp [SameOutputs],
      complete_mem s⟩

/-- Settles O40: VALIDATE reports exactly what validation finds, and a size flag declares at most 9 × 9. -/
theorem validateSucceedsIffTheLengthMatches : Obligations.ValidateSucceedsIffTheLengthMatches := by
  intro s t h
  have hvalid : t.errcode = 0 → HashValid s := hashValid_of_exec_validate h
  refine ⟨⟨hvalid, fun hv => ?_⟩, fun h0 => hashlen_bounds_of_hashValid (hvalid h0)⟩
  obtain rfl := Host.Outcome.next.inj ((exec_validate hv).symm.trans h)
  exact complete_errcode s

end Sys2Proof
end

section
/-! SUPPORT. The interrupt output after each event that R238 lists (spec/60_exceptions.md). -/

namespace Sys2Proof.Machine

/-- The reply of the port is not the engine's, so that it never reaches the interrupt. -/
@[simp] theorem irq_answer (data : Word) (err : Bool) (s : State) : irq (answer data err s) = irq s := rfl

@[simp] theorem irq_complete (s : State) : irq (complete s) = s.ie := Bool.and_true s.ie

@[simp] theorem irq_raiseError (e : CmdError) (s : State) : irq (raiseError e s) = s.ie := Bool.and_true s.ie

@[simp] theorem irq_acceptCommand (w : Word) (s : State) : irq (acceptCommand w s) = false := Bool.and_false s.ie

@[simp] theorem irq_setCtrl (v : Word) (s : State) : irq (setCtrl v s) = (v.getLsbD 0 && s.done) := rfl

theorem irq_clearStatus {v : Word} (h : v.getLsbD 1 = true) (s : State) : irq (clearStatus v s) = false := by
  rw [irq, clearStatus_done, h, Bool.not_true, Bool.and_false, Bool.and_false]

@[simp] theorem irq_resetInput (s : State) : irq (resetInput s) = false := rfl

/-- A completed command of either outcome raises the interrupt where IE, which no command writes, is 1. -/
theorem irq_of_exec {i : Instr} {s t : State} (h : exec i s = .next t) : irq t = s.ie := by
  rcases exec_next_cases h with ⟨u, rfl, hu⟩ | ⟨e, rfl, -⟩
  · obtain ⟨hie, -⟩ := hu.inputs
    rw [irq_complete, hie]
  · exact irq_raiseError e s

/-- After a host write to the CSR window the interrupt is that of the register write. -/
theorem irq_of_hostWrite_csr {a v : Word} {s t : State} (h : hostWrite .word a v s = .next t)
    (hcsr : a.toNat < 0x100) (h4 : a.toNat % 4 = 0) : irq t = irq (csrWrite (csrAt a.toNat) v s) := by
  obtain rfl := Host.Outcome.next.inj ((hostWrite_csr a v s hcsr h4).symm.trans h)
  exact irq_answer 0 false _

end Sys2Proof.Machine

namespace Sys2Proof

open Machine

/-- Settles O20, event by event: completion, the three register writes, and the reset input. -/
theorem interruptFollowsDoneUnderEnable : Obligations.InterruptFollowsDoneUnderEnable := by
  refine ⟨fun _ => rfl, fun i s t => irq_of_exec, fun s t v h hv => ?_, fun s t v h => ?_, fun s t w hb h => ?_,
    fun s t ts hts h => ?_⟩
  · exact (irq_of_hostWrite_csr h (by decide) (by decide)).trans (irq_clearStatus hv s)
  · exact (irq_of_hostWrite_csr h (by decide) (by decide)).trans (irq_setCtrl v s)
  · calc irq t = irq (csrWrite .cmd w s) := irq_of_hostWrite_csr h (by decide) (by decide)
      _ = irq (acceptCommand w s) := by rw [csrWrite_cmd_idle w hb]
      _ = false := irq_acceptCommand w s
  · obtain rfl := Host.Outcome.next.inj ((step_turn hts).symm.trans h)
    exact irq_resetInput _

/-- Settles O52: only an error records a code other than 0, and it leaves its record and nothing else. -/
theorem errorsArePrecise : Obligations.ErrorsArePrecise := by
  intro i s t h hcode
  rcases exec_next_cases h with ⟨u, rfl, -⟩ | ⟨e, rfl, -⟩
  · exact absurd (complete_errcode u) hcode
  · exact raiseError_failedOnly e s

/-- Settles O53: success leaves the record of success, an error one of the command's row. -/
theorem outcomesAreThoseOfTheMatrix : Obligations.OutcomesAreThoseOfTheMatrix := by
  intro i s t h
  rcases exec_next_cases h with ⟨u, rfl, -⟩ | ⟨e, rfl, hrow, -⟩
  · exact .inl ⟨complete_errcode u, complete_errKind u, complete_errPos u⟩
  · exact .inr hrow

end Sys2Proof
end

section
/-! SUPPORT. The host's port in the busy window (spec/70_reset_and_hazards.md R266), writes that a register ignores at
any time (spec/10_state.md R25, R42), reads of poison bytes (R262), and the state after reset. -/

namespace Sys2Proof.Machine

/-! ## Registers by what a write does -/

/-- An operand register: a write in the busy window is dropped with WERR (R266). -/
def csrOperand : Csr → Bool
  | .width | .height | .dim | .punch | .pixlen | .hashlen | .src0Lo | .src0Hi | .src1Lo | .src1Hi | .maxregLo
  | .maxregHi => true
  | _ => false

/-- A read-only register or a reserved offset: a write is ignored at any time (R25, R42). -/
def csrReadOnly : Csr → Bool
  | .id | .pixcap | .errinfo | .resultLo | .resultHi | .reserved => true
  | _ => false

theorem storeUnlessBusy_busy {s : State} (t : State) (h : s.busy = true) : storeUnlessBusy s t = dropWrite s :=
  if_pos h

theorem csrWrite_operand_busy {c : Csr} (hc : csrOperand c = true) (v : Word) {s : State} (hb : s.busy = true) :
    csrWrite c v s = dropWrite s := by
  cases c with
  | width | height | dim | punch | pixlen | hashlen | src0Lo | src0Hi | src1Lo | src1Hi | maxregLo | maxregHi =>
    exact storeUnlessBusy_busy _ hb
  | id | pixcap | ctrl | status | cmd | errinfo | resultLo | resultHi | reserved => cases hc

theorem csrWrite_readOnly {c : Csr} (hc : csrReadOnly c = true) (v : Word) (s : State) : csrWrite c v s = s := by
  cases c with
  | id | pixcap | errinfo | resultLo | resultHi | reserved => rfl
  | ctrl | status | cmd | width | height | dim | punch | pixlen | hashlen | src0Lo | src0Hi | src1Lo | src1Hi | maxregLo
  | maxregHi => cases hc

/-! ## Registers by address (R25) -/

theorem csrOperand_csrAt :
    ∀ a < 0x50, (0x18 ≤ a ∧ a ≤ 0x3C) ∨ a = 0x48 ∨ a = 0x4C → csrOperand (csrAt a) = true := by decide

theorem csrReadOnly_csrAt {a : Nat} (h : a ∈ [0x00, 0x04, 0x14, 0x40, 0x44] ∨ 0x50 ≤ a) :
    csrReadOnly (csrAt a) = true := by
  have table : ∀ a ∈ [0x00, 0x04, 0x14, 0x40, 0x44], csrReadOnly (csrAt a) = true := by decide
  rcases h with h | h
  · exact table a h
  · rw [csrAt_reserved h, csrReadOnly]

/-- The addresses below 0x40 of the registers that no command writes: all but those of DIM and HASHLEN. -/
theorem csrVolatile_csrAt :
    ∀ a < 0x40, a < 0x20 ∨ a = 0x24 ∨ a = 0x28 ∨ (0x30 ≤ a ∧ a ≤ 0x3C) → csrVolatile (csrAt a) = false := by decide

/-- A served access of the CSR window is a word at an aligned address (R71). -/
theorem word_aligned_of_accessOk {w : Width} {a : Nat} (ok : accessOk w a = true) (h : a < 0x100) :
    w = .word ∧ a % 4 = 0 := by
  obtain ⟨hal, hmap⟩ := (accessOk_iff w a).mp ok
  obtain rfl : w = .word := by
    rcases hmap with ⟨-, hw⟩ | ⟨ha, -⟩ | ⟨ha, -⟩ | ⟨ha, -⟩
    · exact hw
    all_goals omega
  exact ⟨rfl, hal⟩

/-! ## Served accesses in the busy window (R266) -/

section
variable {w : Width} {a : Word} {s : State} (ok : accessOk w a.toNat = true)
include ok

theorem hostWrite_operand_busy (v : Word) (hb : s.busy = true) (h : a.toNat < 0x100)
    (hc : csrOperand (csrAt a.toNat) = true) : hostWrite w a v s = .next (answer 0 false (dropWrite s)) := by
  obtain ⟨rfl, h4⟩ := word_aligned_of_accessOk ok h
  rw [hostWrite_csr a v s h h4, csrWrite_operand_busy hc v hb]

/-- A memory or a register that some command writes reads as any value in the busy window. -/
theorem hostRead_free (hb : s.busy = true) (h : 0x100 ≤ a.toNat ∨ csrVolatile (csrAt a.toNat) = true) :
    hostRead w a s = .next (freeAnswer w s) := by
  rcases h with h | hv
  · simp [hostRead, ok, regionOf_ne_csr h, hb]
  · simp [hostRead, ok, hb, hv]

/-- A register that no command writes reads as its word at any time. -/
theorem hostRead_csr_fixed (h : a.toNat < 0x100) (hv : csrVolatile (csrAt a.toNat) = false) :
    hostRead w a s = .next (answer (csrRead s (csrAt a.toNat)) false s) := by
  obtain ⟨rfl, h4⟩ := word_aligned_of_accessOk ok h
  exact hostRead_csr a s h h4 (.inr hv)

end

/-! ## Poison (R262) -/

/-- A run that takes in a poison byte fails at the first one. -/
theorem bytesFrom_poison {m : Memory} {a n i : Nat} (hi : i < n) (h : Memory.read m (a + i) = none) :
    ∃ j ≤ i, bytesFrom m a n = .error (a + j) ∧ Memory.read m (a + j) = none ∧
      ∀ k < j, (Memory.read m (a + k)).isSome = true := by
  rcases bytesFrom_cases m a n with ⟨bs, -, hl, hs⟩ | ⟨j, -, he, hj⟩
  · have hheld := hs i (hl ▸ hi)
    rw [h] at hheld
    cases hheld
  · obtain ⟨-, -, -, hfirst⟩ := bytesFrom_error he
    have hji : j ≤ i := by
      by_contra hlt
      have hdef := hfirst (a + i) (by omega) (by omega)
      rw [h] at hdef
      cases hdef
    exact ⟨j, hji, he, hj, fun k hk => hfirst (a + k) (by omega) (by omega)⟩

/-- A memory read outside the busy window that meets a poison byte stops the model there. -/
theorem hostRead_poison {w : Width} {a : Word} {s : State} {p : Nat} (h : 0x100 ≤ a.toNat)
    (ok : accessOk w a.toNat = true) (hb : s.busy = false) (hp : bytesFrom s.mem a.toNat (widthBytes w) = .error p) :
    hostRead w a s = .fault (.hostReadsPoison p) := by
  simp [hostRead, ok, regionOf_ne_csr h, hb, hp]

end Sys2Proof.Machine

namespace Sys2Proof

open Machine

/-- Settles O8: memories and operand registers drop the write, read-only and reserved registers ignore it. -/
theorem busyWindowWritesAreDropped : Obligations.BusyWindowWritesAreDropped := by
  refine ⟨fun s v hb width a ok h => ⟨answer 0 false (dropWrite s), ?_, sameEngine_answer 0 false _⟩, fun s v a h => ?_⟩
  · rcases h with hmem | hreg
    · exact hostWrite_memory_busy width a v s hmem ok hb
    · exact hostWrite_operand_busy ok v hb (by omega) (csrOperand_csrAt _ (by omega) hreg)
  · have hcsr : IsCsrAddress a := by
      simp only [List.mem_cons, List.not_mem_nil, or_false] at h
      unfold IsCsrAddress
      omega
    have hro : csrReadOnly (csrAt a.toNat) = true := csrReadOnly_csrAt (h.imp_right And.left)
    have hw := hostWrite_csr a v s hcsr.1 hcsr.2
    rw [csrWrite_readOnly hro] at hw
    exact ⟨_, _, hw, sameEngine_answer 0 false s, rfl, rfl⟩

/-- Settles O9: a read is a free answer where some command may write, else the word of its register. -/
theorem busyWindowReadsHaveNoEffect : Obligations.BusyWindowReadsHaveNoEffect := by
  intro s width a hb ok
  refine ⟨?_, fun h => ⟨_, hostRead_csr_fixed ok (by omega) (csrVolatile_csrAt _ (by omega) h), rfl⟩⟩
  by_cases hfree : 0x100 ≤ a.toNat ∨ csrVolatile (csrAt a.toNat) = true
  · exact ⟨_, _, hostRead_free ok hb hfree, sameEngine_freeAnswer width s, rfl, rfl⟩
  · obtain ⟨hcsr, hv⟩ := not_or.mp hfree
    have hread := hostRead_csr_fixed (s := s) ok (Nat.lt_of_not_le hcsr) (Bool.eq_false_iff.mpr hv)
    exact ⟨_, _, hread, sameEngine_answer _ false s, rfl, rfl⟩

/-- Settles O18: the read fails at the first poison byte of its run. -/
theorem poisonReadStopsTheModel : Obligations.PoisonReadStopsTheModel := by
  intro s width a i hb ha ok hi hpoison
  obtain ⟨j, hji, he, hj, hfirst⟩ := bytesFrom_poison hi hpoison
  exact ⟨j, hji, hostRead_poison ha ok hb he, hj, hfirst⟩

/-- Settles O56: at reset memory is empty, no command is pending and the record is clear. -/
theorem resetMeetsTheInvariant : Obligations.ResetMeetsTheInvariant :=
  inv_of_idle rfl rfl rfl rfl rfl

end Sys2Proof
end
